-- ==== Sys2Proof/Word.lean ====
section
/-! DEFINITION. The word types of the machine (spec/10_state.md R20, R24; spec/00_scope.md R10, R11). -/

namespace Sys2Proof

/-- A quadword: the width of every integer register, of the pc and of an address (R20, R24, R41). -/
abbrev Word := BitVec 64

/-- One byte of memory (R10). -/
abbrev Byte := BitVec 8

/-- The number of an integer register, `$0` to `$31` (R20). -/
abbrev Reg := BitVec 5

/-- The bits of one machine instruction (R82). -/
abbrev InstrWord := BitVec 32

end Sys2Proof
end

