-- ==== Sys2Proof/Syntax.lean ====
section
/-! DEFINITION. The statements of the main instruction set with their operands, one constructor per mnemonic
(spec/30_encoding.md R71 to R79). A statement is a machine instruction, a pseudo-instruction or a macro (R7, R79).
The two-operand forms 2 and 4 of R76 and the one-operand forms of R142 to R150 are the three-operand and two-operand
terms with the register written twice (R76, R80); an omitted operand is the register or hint R23 and R249 name. -/

namespace Sys2Proof

/-- The second operand of an operate statement: a register, or a `val_immed` of any integer value (R75). -/
inductive RegImm where
  | reg (r : Reg)
  | imm (v : Int)
deriving DecidableEq, Repr

/-- A label of the program (R77). -/
abbrev Label := Nat

/-- A symbol of a symbolic address: a label of the program, or another symbol, whose address the linker fixes by
resolving external items (R73). -/
inductive Symbol where
  | label (l : Label)
  | other (n : Nat)
deriving DecidableEq, Repr

/-- A symbolic address: a symbol plus or minus a constant (R73). -/
structure SymExpr where
  symbol : Symbol
  addend : Int
deriving DecidableEq, Repr

/-- An `address` operand: `offset(b_reg)`, of which `(b_reg)` is offset 0, or a symbolic expression (R73). -/
inductive Address where
  | base (offset : Int) (b : Reg)
  | symbolic (e : SymExpr)
deriving DecidableEq, Repr

/-- A branch target: the displacement field of the word (R86) or a `label` (R77). -/
inductive Target where
  | disp (d : BitVec 21)
  | label (l : Label)
deriving DecidableEq, Repr

/-- The hint of `jmp` and `jsr`: the 14 bits of a word, or a `jhint`, the address the bits are computed from (R78, R87).
An omitted `jhint` is the bits 0 (R87). -/
inductive Hint where
  | bits (h : BitVec 14)
  | address (e : SymExpr)
deriving DecidableEq, Repr

/-- The target operand of `jmp` and `jsr`: `(s_reg)` with a hint, or a symbolic address (R247). -/
inductive JumpOperand where
  | reg (s : Reg) (hint : Hint)
  | symbolic (e : SymExpr)
deriving DecidableEq, Repr

/-- The statements (R79). Three-operand statements read `s_reg1`, `s_reg2` or `val_immed`, `d_reg`; loads and
control statements name their destination first, stores the register that holds the data (R72). -/
inductive Instr where
  -- load and store (R100 to R129)
  | lda (d : Reg) (a : Address)
  | ldb (d : Reg) (a : Address)
  | ldbu (d : Reg) (a : Address)
  | ldw (d : Reg) (a : Address)
  | ldwu (d : Reg) (a : Address)
  | ldl (d : Reg) (a : Address)
  | ldlL (d : Reg) (a : Address)
  | ldq (d : Reg) (a : Address)
  | ldqL (d : Reg) (a : Address)
  | ldqU (d : Reg) (a : Address)
  | uldw (d : Reg) (a : Address)
  | uldwu (d : Reg) (a : Address)
  | uldl (d : Reg) (a : Address)
  | uldq (d : Reg) (a : Address)
  | ldah (d : Reg) (offset : Int) (b : Reg)
  | ldgp (d : Reg) (offset : Int) (b : Reg)
  | ldil (d : Reg) (v : Int)
  | ldiq (d : Reg) (v : Int)
  | stb (r : Reg) (a : Address)
  | stw (r : Reg) (a : Address)
  | stl (r : Reg) (a : Address)
  | stlC (r : Reg) (a : Address)
  | stq (r : Reg) (a : Address)
  | stqC (r : Reg) (a : Address)
  | stqU (r : Reg) (a : Address)
  | ustw (r : Reg) (a : Address)
  | ustl (r : Reg) (a : Address)
  | ustq (r : Reg) (a : Address)
  -- arithmetic (R140 to R182)
  | clr (d : Reg)
  | absl (b : RegImm) (d : Reg)
  | absq (b : RegImm) (d : Reg)
  | negl (b : RegImm) (d : Reg)
  | neglv (b : RegImm) (d : Reg)
  | negq (b : RegImm) (d : Reg)
  | negqv (b : RegImm) (d : Reg)
  | sextb (b : RegImm) (d : Reg)
  | sextl (b : RegImm) (d : Reg)
  | sextw (b : RegImm) (d : Reg)
  | addl (a : Reg) (b : RegImm) (c : Reg)
  | addlv (a : Reg) (b : RegImm) (c : Reg)
  | addq (a : Reg) (b : RegImm) (c : Reg)
  | addqv (a : Reg) (b : RegImm) (c : Reg)
  | s4addl (a : Reg) (b : RegImm) (c : Reg)
  | s4addq (a : Reg) (b : RegImm) (c : Reg)
  | s8addl (a : Reg) (b : RegImm) (c : Reg)
  | s8addq (a : Reg) (b : RegImm) (c : Reg)
  | mull (a : Reg) (b : RegImm) (c : Reg)
  | mullv (a : Reg) (b : RegImm) (c : Reg)
  | mulq (a : Reg) (b : RegImm) (c : Reg)
  | mulqv (a : Reg) (b : RegImm) (c : Reg)
  | subl (a : Reg) (b : RegImm) (c : Reg)
  | sublv (a : Reg) (b : RegImm) (c : Reg)
  | subq (a : Reg) (b : RegImm) (c : Reg)
  | subqv (a : Reg) (b : RegImm) (c : Reg)
  | s4subl (a : Reg) (b : RegImm) (c : Reg)
  | s4subq (a : Reg) (b : RegImm) (c : Reg)
  | s8subl (a : Reg) (b : RegImm) (c : Reg)
  | s8subq (a : Reg) (b : RegImm) (c : Reg)
  | umulh (a : Reg) (b : RegImm) (c : Reg)
  | divl (a : Reg) (b : RegImm) (c : Reg)
  | divlu (a : Reg) (b : RegImm) (c : Reg)
  | divq (a : Reg) (b : RegImm) (c : Reg)
  | divqu (a : Reg) (b : RegImm) (c : Reg)
  | reml (a : Reg) (b : RegImm) (c : Reg)
  | remlu (a : Reg) (b : RegImm) (c : Reg)
  | remq (a : Reg) (b : RegImm) (c : Reg)
  | remqu (a : Reg) (b : RegImm) (c : Reg)
  -- logical and shift (R190 to R203)
  | not (b : RegImm) (d : Reg)
  | and (a : Reg) (b : RegImm) (c : Reg)
  | bis (a : Reg) (b : RegImm) (c : Reg)
  | or (a : Reg) (b : RegImm) (c : Reg)
  | xor (a : Reg) (b : RegImm) (c : Reg)
  | bic (a : Reg) (b : RegImm) (c : Reg)
  | andnot (a : Reg) (b : RegImm) (c : Reg)
  | ornot (a : Reg) (b : RegImm) (c : Reg)
  | eqv (a : Reg) (b : RegImm) (c : Reg)
  | xornot (a : Reg) (b : RegImm) (c : Reg)
  | sll (a : Reg) (b : RegImm) (c : Reg)
  | srl (a : Reg) (b : RegImm) (c : Reg)
  | sra (a : Reg) (b : RegImm) (c : Reg)
  -- relational (R210 to R215)
  | cmpeq (a : Reg) (b : RegImm) (c : Reg)
  | cmplt (a : Reg) (b : RegImm) (c : Reg)
  | cmple (a : Reg) (b : RegImm) (c : Reg)
  | cmpult (a : Reg) (b : RegImm) (c : Reg)
  | cmpule (a : Reg) (b : RegImm) (c : Reg)
  -- move (R220 to R229)
  | mov (b : RegImm) (d : Reg)
  | cmoveq (a : Reg) (b : RegImm) (c : Reg)
  | cmovne (a : Reg) (b : RegImm) (c : Reg)
  | cmovlt (a : Reg) (b : RegImm) (c : Reg)
  | cmovle (a : Reg) (b : RegImm) (c : Reg)
  | cmovgt (a : Reg) (b : RegImm) (c : Reg)
  | cmovge (a : Reg) (b : RegImm) (c : Reg)
  | cmovlbc (a : Reg) (b : RegImm) (c : Reg)
  | cmovlbs (a : Reg) (b : RegImm) (c : Reg)
  -- control (R235 to R252)
  | beq (r : Reg) (t : Target)
  | bne (r : Reg) (t : Target)
  | blt (r : Reg) (t : Target)
  | ble (r : Reg) (t : Target)
  | bgt (r : Reg) (t : Target)
  | bge (r : Reg) (t : Target)
  | blbc (r : Reg) (t : Target)
  | blbs (r : Reg) (t : Target)
  | br (d : Reg) (t : Target)
  | bsr (d : Reg) (t : Target)
  | jmp (d : Reg) (j : JumpOperand)
  | jsr (d : Reg) (j : JumpOperand)
  | ret (d r : Reg) (hint : BitVec 14)
  | jsrCoroutine (d r : Reg) (hint : BitVec 14)
  -- byte manipulation (R260 to R285)
  | cmpbge (a : Reg) (b : RegImm) (c : Reg)
  | extbl (a : Reg) (b : RegImm) (c : Reg)
  | extwl (a : Reg) (b : RegImm) (c : Reg)
  | extll (a : Reg) (b : RegImm) (c : Reg)
  | extql (a : Reg) (b : RegImm) (c : Reg)
  | extwh (a : Reg) (b : RegImm) (c : Reg)
  | extlh (a : Reg) (b : RegImm) (c : Reg)
  | extqh (a : Reg) (b : RegImm) (c : Reg)
  | insbl (a : Reg) (b : RegImm) (c : Reg)
  | inswl (a : Reg) (b : RegImm) (c : Reg)
  | insll (a : Reg) (b : RegImm) (c : Reg)
  | insql (a : Reg) (b : RegImm) (c : Reg)
  | inswh (a : Reg) (b : RegImm) (c : Reg)
  | inslh (a : Reg) (b : RegImm) (c : Reg)
  | insqh (a : Reg) (b : RegImm) (c : Reg)
  | mskbl (a : Reg) (b : RegImm) (c : Reg)
  | mskwl (a : Reg) (b : RegImm) (c : Reg)
  | mskll (a : Reg) (b : RegImm) (c : Reg)
  | mskql (a : Reg) (b : RegImm) (c : Reg)
  | mskwh (a : Reg) (b : RegImm) (c : Reg)
  | msklh (a : Reg) (b : RegImm) (c : Reg)
  | mskqh (a : Reg) (b : RegImm) (c : Reg)
  | zap (a : Reg) (b : RegImm) (c : Reg)
  | zapnot (a : Reg) (b : RegImm) (c : Reg)
  -- special purpose (R295 to R306)
  | callPal (palcode : Nat)
  | amask (b : RegImm) (d : Reg)
  | fetch (offset : Int) (b : Reg)
  | fetchM (offset : Int) (b : Reg)
  | rpcc (d : Reg)
  | implver (d : Reg)
  | nop
  | unop
  | trapb
  | excb
  | mb
  | wmb
deriving DecidableEq, Repr

end Sys2Proof
end

