-- ==== Sys2Proof/Config.lean ====
section
/-! DEFINITION. What a run takes as given: the parameters of spec/00_scope.md R6 that are functions, the free values
of the machine, and the two launch addresses the model fixes. Every `opaque` has no body: nothing can be proved of its
values, so a statement about it holds for every assembler and every outcome of a draw. The parameters that are plain
data (`EXIT_PC`, `BWX`, `IMPLVER`, `AMASK_PRESENT`, `Mapped`, the program text) are fields of the state's `launch`;
`PAL`, a function of the state, is declared beside it (Machine/State.lean). -/

namespace Sys2Proof.Config

/-- The value of the n-th `draw_64()` (R12): a 64-bit value the rules do not determine. -/
opaque freeWord : Nat → Word

/-- The value of the draw `g` in 0, 1 of a store-conditional outside the locked block (spec/20_memory.md R59). -/
opaque freeBit : Nat → Bool

/-- Whether the environment leaves the lock flag alone between two statements (R58): it may clear it at any time. -/
opaque environmentKeepsLock : Nat → Bool

/-- One less than `MACRO_LEN(stmt)`, so that the length is positive whatever this is (R6). -/
opaque macroExtraWords : Instr → Nat

/-- `MACRO_LEN(stmt)`: how many machine instructions a macro statement occupies (R6, R25). -/
def macroLen (i : Instr) : Nat := macroExtraWords i + 1

/-- `addr_of(label) / 4` of a label. -/
opaque labelIndex : Label → BitVec 62

/-- `addr_of` of a symbol that is no label of the program. -/
opaque otherAddr : Nat → Word

/-- `addr_of(symbol)`, one function for address operands and branch targets (R6): a label is at a multiple of 4, the
address of the statement it names (R77). -/
def addrOf : Symbol → Word
  | .label l => labelIndex l ++ 0#2
  | .other n => otherAddr n

/-- `addr_of(label)` (R77). -/
def labelAddr (l : Label) : Word := addrOf (.label l)

/-- `addr_of(expr)` of a symbol plus or minus a constant (R73): the address of the symbol plus the constant, modulo
2^64. DEDUCED (log 9). -/
def symbolAddr (e : SymExpr) : Word := addrOf e.symbol + BitVec.ofInt 64 e.addend

/-- What a handler of `call_pal` leaves (R6, spec/60_exceptions.md R327): the registers, the pc the program resumes at
as a word index (so that it is a multiple of 4), the bytes it stored, and whether it left the lock flag alone. -/
structure PalResult where
  regs : Vector Word 31
  resume : BitVec 62
  stores : List (Word × Byte)
  keepsLock : Bool
deriving DecidableEq, Repr, Inhabited

/-- `GP_OF(pc)`: the global pointer value of the procedure whose `ldgp` stands at the address (R6, R116). -/
opaque gpOf : Word → Word

/-- `ENTRY_PC` of the state after reset. DESIGN CHOICE (unsafe; log 4). -/
def entryPc : Word := 0x1000#64

/-- `EXIT_PC` of the state after reset. DESIGN CHOICE (unsafe; log 4). -/
def exitPc : Word := 0x0F00#64

end Sys2Proof.Config
end

