-- ==== Sys2Proof/Decode.lean ====
section
/-! DEFINITION. Decoding of instruction words, and their encoding (spec/30_encoding.md R82 to R92). A word is first
taken apart into the fields of its format, which its opcode selects (R83, R88); then the row of the opcode table is
found; then the should-be-zero and must-be-31 fields are checked (R90, R92). Pseudo-instructions never come out of the
decoder: their words are those of the instruction they stand for (R80, R92; log 15). The formats and numbers are the
spec's from general knowledge (R8). -/

namespace Sys2Proof

/-- Why a word is no instruction: `IllegalInstruction` (R89, R90, R92). -/
inductive DecodeError where
  /-- Fewer than four bytes. -/
  | truncated
  /-- An opcode outside R88 (R89). -/
  | reservedOpcode
  /-- A function code outside R88 (R89). -/
  | reservedFunction
  /-- Bits 15..13 of a register-form Operate word are not zero (R90). -/
  | shouldBeZero
  /-- An unused register field is not 31 (R90). -/
  | mustBe31
deriving DecidableEq, Repr

/-- The second operand field of the Operate format (R85). -/
inductive OperandField where
  | reg (rb : Reg) (shouldBeZero : BitVec 3)
  | literal (value : BitVec 8)
deriving DecidableEq, Repr

/-- The fields of a word, by format (R83). -/
inductive Fields where
  | pcd (palcode : BitVec 26)
  | mem (opcode : BitVec 6) (ra rb : Reg) (disp : BitVec 16)
  | mfc (ra rb : Reg) (func : BitVec 16)
  | mbr (ra rb : Reg) (jtype : BitVec 2) (hint : BitVec 14)
  | bra (opcode : BitVec 6) (ra : Reg) (disp : BitVec 21)
  | opr (opcode : BitVec 6) (ra : Reg) (b : OperandField) (func : BitVec 7) (rc : Reg)
deriving DecidableEq, Repr

/-- The formats (R83). -/
inductive Format where
  | pcd
  | mem
  | mfc
  | mbr
  | bra
  | opr
deriving DecidableEq, Repr

/-- The format an opcode selects, for the opcodes of R88. -/
def formatOf (opcode : BitVec 6) : Option Format :=
  if opcode = 0x00#6 then some .pcd
  else if opcode = 0x18#6 then some .mfc
  else if opcode = 0x1a#6 then some .mbr
  else if [0x10#6, 0x11#6, 0x12#6, 0x13#6, 0x1c#6].contains opcode then some .opr
  else if [0x08#6, 0x09#6, 0x0a#6, 0x0b#6, 0x0c#6, 0x0d#6, 0x0e#6, 0x0f#6].contains opcode then some .mem
  else if [0x28#6, 0x29#6, 0x2a#6, 0x2b#6, 0x2c#6, 0x2d#6, 0x2e#6, 0x2f#6].contains opcode then some .mem
  else if [0x30#6, 0x34#6, 0x38#6, 0x39#6, 0x3a#6, 0x3b#6, 0x3c#6, 0x3d#6, 0x3e#6, 0x3f#6].contains opcode then
    some .bra
  else none

/-- `v[lo+n-1:lo]` of a word (spec/00_scope.md R9). -/
def wordField (w : InstrWord) (lo n : Nat) : BitVec n := w.extractLsb' lo n

/-- Bits 31..26 (R82). -/
def opcodeField (w : InstrWord) : BitVec 6 := wordField w 26 6

/-- The second operand field: bit 12 chooses the literal (R85). -/
def operandField (w : InstrWord) : OperandField :=
  if wordField w 12 1 = 1#1 then .literal (wordField w 13 8) else .reg (wordField w 16 5) (wordField w 13 3)

/-- The fields of a word in a format (R83). -/
def splitAs (w : InstrWord) : Format → Fields
  | .pcd => .pcd (wordField w 0 26)
  | .mem => .mem (opcodeField w) (wordField w 21 5) (wordField w 16 5) (wordField w 0 16)
  | .mfc => .mfc (wordField w 21 5) (wordField w 16 5) (wordField w 0 16)
  | .mbr => .mbr (wordField w 21 5) (wordField w 16 5) (wordField w 14 2) (wordField w 0 14)
  | .bra => .bra (opcodeField w) (wordField w 21 5) (wordField w 0 21)
  | .opr => .opr (opcodeField w) (wordField w 21 5) (operandField w) (wordField w 5 7) (wordField w 0 5)

/-- The word of the fields (R83). -/
def Fields.word : Fields → InstrWord
  | .pcd palcode => 0x00#6 ++ palcode
  | .mem opcode ra rb disp => opcode ++ ra ++ rb ++ disp
  | .mfc ra rb func => 0x18#6 ++ ra ++ rb ++ func
  | .mbr ra rb jtype hint => 0x1a#6 ++ ra ++ rb ++ jtype ++ hint
  | .bra opcode ra disp => opcode ++ ra ++ disp
  | .opr opcode ra (.reg rb sbz) func rc => opcode ++ ra ++ rb ++ sbz ++ 0#1 ++ func ++ rc
  | .opr opcode ra (.literal value) func rc => opcode ++ ra ++ value ++ 1#1 ++ func ++ rc

/-! The rows of the opcode table (R88) -/

/-- The row with a key. -/
def findRow {n : Nat} {α : Type} (key : BitVec n) : List (BitVec n × α) → Option α
  | [] => none
  | (k, row) :: rest => if k = key then some row else findRow key rest

/-- `ldah` from its fields; its operands are never symbolic. -/
def ldahOf (d : Reg) : Address → Instr
  | .base offset b => .ldah d offset b
  | .symbolic _ => .ldah d 0 0

/-- The Memory format: the rows take the register and the address. -/
def memRows : List (BitVec 6 × (Reg → Address → Instr)) := [
  (0x08#6, .lda), (0x0a#6, .ldbu), (0x0c#6, .ldwu), (0x28#6, .ldl), (0x2a#6, .ldlL), (0x29#6, .ldq),
  (0x2b#6, .ldqL), (0x0b#6, .ldqU), (0x0e#6, .stb), (0x0d#6, .stw), (0x2c#6, .stl), (0x2e#6, .stlC),
  (0x2d#6, .stq), (0x2f#6, .stqC), (0x0f#6, .stqU),
  (0x09#6, ldahOf)]

/-- The Branch format: the rows take the register and the target. -/
def branchRows : List (BitVec 6 × (Reg → Target → Instr)) := [
  (0x39#6, .beq), (0x3d#6, .bne), (0x3a#6, .blt), (0x3b#6, .ble), (0x3f#6, .bgt), (0x3e#6, .bge),
  (0x38#6, .blbc), (0x3c#6, .blbs), (0x30#6, .br), (0x34#6, .bsr)]

/-- An Operate row: three operands, one source with `ra` 31, or a destination alone with `ra` 31 (R84, R90). -/
inductive OperateRow where
  | three (make : Reg → RegImm → Reg → Instr)
  | two (make : RegImm → Reg → Instr)
  | one (make : Reg → Instr)

/-- Operate format, opcode 10. -/
def operateRows10 : List (BitVec 7 × OperateRow) := [
  (0x00#7, .three .addl), (0x40#7, .three .addlv), (0x20#7, .three .addq), (0x60#7, .three .addqv),
  (0x02#7, .three .s4addl), (0x22#7, .three .s4addq), (0x12#7, .three .s8addl), (0x32#7, .three .s8addq),
  (0x09#7, .three .subl), (0x49#7, .three .sublv), (0x29#7, .three .subq), (0x69#7, .three .subqv),
  (0x0b#7, .three .s4subl), (0x2b#7, .three .s4subq), (0x1b#7, .three .s8subl), (0x3b#7, .three .s8subq),
  (0x2d#7, .three .cmpeq), (0x4d#7, .three .cmplt), (0x6d#7, .three .cmple), (0x1d#7, .three .cmpult),
  (0x3d#7, .three .cmpule), (0x0f#7, .three .cmpbge)]

/-- Operate format, opcode 11. -/
def operateRows11 : List (BitVec 7 × OperateRow) := [
  (0x00#7, .three .and), (0x20#7, .three .bis), (0x40#7, .three .xor), (0x08#7, .three .bic),
  (0x28#7, .three .ornot), (0x48#7, .three .eqv), (0x24#7, .three .cmoveq), (0x26#7, .three .cmovne),
  (0x44#7, .three .cmovlt), (0x64#7, .three .cmovle), (0x66#7, .three .cmovgt), (0x46#7, .three .cmovge),
  (0x16#7, .three .cmovlbc), (0x14#7, .three .cmovlbs), (0x61#7, .two .amask), (0x6c#7, .one .implver)]

/-- Operate format, opcode 12. -/
def operateRows12 : List (BitVec 7 × OperateRow) := [
  (0x39#7, .three .sll), (0x34#7, .three .srl), (0x3c#7, .three .sra), (0x06#7, .three .extbl),
  (0x16#7, .three .extwl), (0x26#7, .three .extll), (0x36#7, .three .extql), (0x5a#7, .three .extwh),
  (0x6a#7, .three .extlh), (0x7a#7, .three .extqh), (0x0b#7, .three .insbl), (0x1b#7, .three .inswl),
  (0x2b#7, .three .insll), (0x3b#7, .three .insql), (0x57#7, .three .inswh), (0x67#7, .three .inslh),
  (0x77#7, .three .insqh), (0x02#7, .three .mskbl), (0x12#7, .three .mskwl), (0x22#7, .three .mskll),
  (0x32#7, .three .mskql), (0x52#7, .three .mskwh), (0x62#7, .three .msklh), (0x72#7, .three .mskqh),
  (0x30#7, .three .zap), (0x31#7, .three .zapnot)]

/-- Operate format, opcode 13. -/
def operateRows13 : List (BitVec 7 × OperateRow) := [
  (0x00#7, .three .mull), (0x40#7, .three .mullv), (0x20#7, .three .mulq), (0x60#7, .three .mulqv),
  (0x30#7, .three .umulh)]

/-- Operate format, opcode 1C. -/
def operateRows1C : List (BitVec 7 × OperateRow) := [
  (0x00#7, .two .sextb), (0x01#7, .two .sextw)]

/-- The Operate rows, by opcode. -/
def operateRows : List (BitVec 6 × List (BitVec 7 × OperateRow)) := [(0x10#6, operateRows10), (0x11#6, operateRows11), (0x12#6, operateRows12), (0x13#6, operateRows13), (0x1c#6, operateRows1C)]

/-- A Memory-function row: no operand, a base register, or a destination (R84). -/
inductive FunctionRow where
  | none (i : Instr)
  | base (make : Int → Reg → Instr)
  | dest (make : Reg → Instr)

/-- Memory format with a function code, opcode 18. -/
def functionRows : List (BitVec 16 × FunctionRow) := [
  (0x8000#16, .base .fetch), (0xa000#16, .base .fetchM), (0xc000#16, .dest .rpcc), (0x0000#16, .none .trapb),
  (0x0400#16, .none .excb), (0x4000#16, .none .mb), (0x4400#16, .none .wmb)]

/-! Decoding (R92) -/

/-- The operand of an Operate word: a nonzero should-be-zero field is refused (R85, R90). -/
def OperandField.operand : OperandField → Except DecodeError RegImm
  | .literal value => .ok (.imm value.toNat)
  | .reg rb sbz => if sbz = 0#3 then .ok (.reg rb) else .error .shouldBeZero

/-- A field the instruction does not use must hold 31 (R90). -/
def require31 (r : Reg) (i : Instr) : Except DecodeError Instr := if r = 31#5 then .ok i else .error .mustBe31

/-- The instruction of an Operate word. -/
def OperateRow.instr (row : OperateRow) (ra : Reg) (b : RegImm) (rc : Reg) : Except DecodeError Instr :=
  match row with
  | .three make => .ok (make ra b rc)
  | .two make => require31 ra (make b rc)
  | .one make => require31 ra (make rc)

/-- The instruction of a Memory-function word; the format has no displacement, so the offset is 0 (R84). -/
def FunctionRow.instr (row : FunctionRow) (ra rb : Reg) : Except DecodeError Instr :=
  match row with
  | .none i => if rb = 31#5 then require31 ra i else .error .mustBe31
  | .base make => require31 ra (make 0 rb)
  | .dest make => require31 rb (make ra)

/-- The instruction of a jump word (R87). -/
def jumpInstr (ra rb : Reg) (jtype : BitVec 2) (hint : BitVec 14) : Instr :=
  if jtype = 0#2 then .jmp ra (.reg rb (.bits hint))
  else if jtype = 1#2 then .jsr ra (.reg rb (.bits hint))
  else if jtype = 2#2 then .ret ra rb hint
  else .jsrCoroutine ra rb hint

/-- The instruction the fields spell. -/
def Fields.instr : Fields → Except DecodeError Instr
  | .pcd palcode => .ok (.callPal palcode.toNat)
  | .mem opcode ra rb disp =>
    match findRow opcode memRows with
    | some make => .ok (make ra (.base disp.toInt rb))
    | none => .error .reservedOpcode
  | .mfc ra rb func =>
    match findRow func functionRows with
    | some row => row.instr ra rb
    | none => .error .reservedFunction
  | .mbr ra rb jtype hint => .ok (jumpInstr ra rb jtype hint)
  | .bra opcode ra disp =>
    match findRow opcode branchRows with
    | some make => .ok (make ra (.disp disp))
    | none => .error .reservedOpcode
  | .opr opcode ra b func rc =>
    match findRow opcode operateRows with
    | none => .error .reservedOpcode
    | some rows =>
      match findRow func rows with
      | none => .error .reservedFunction
      | some row =>
        match b.operand with
        | .error e => .error e
        | .ok operand => row.instr ra operand rc

/-- The instruction a word spells, or why it spells none (R92). -/
def decodeWord (w : InstrWord) : Except DecodeError Instr :=
  match formatOf (opcodeField w) with
  | none => .error .reservedOpcode
  | some format => (splitAs w format).instr

/-- The word that four bytes hold, the first least significant (spec/20_memory.md R43). -/
def wordOfBytes (b0 b1 b2 b3 : Byte) : InstrWord := b3 ++ b2 ++ b1 ++ b0

/-- Byte `k` of a word (R43). -/
def byteOfWord (w : InstrWord) (k : Nat) : Byte := w.extractLsb' (8 * k) 8

/-- The four bytes of a word as the machine stores them (R43). -/
def bytesOfWord (w : InstrWord) : List Byte := [byteOfWord w 0, byteOfWord w 1, byteOfWord w 2, byteOfWord w 3]

/-- The instruction at the front of a list of bytes, and the bytes after it (R82, R92). -/
def decode : List Byte → Except DecodeError (Instr × List Byte)
  | b0 :: b1 :: b2 :: b3 :: rest =>
    match decodeWord (wordOfBytes b0 b1 b2 b3) with
    | .ok i => .ok (i, rest)
    | .error e => .error e
  | _ => .error .truncated

/-- The word of an instruction whose low `nbits` bits are those of `w`, the rest zero. -/
def tableWord (nbits w : Nat) : InstrWord := BitVec.ofNat 32 (w % 2 ^ nbits)

/-- The instruction the decoder reads from an instruction whose bits are `w`: the four bytes as the hardware stores
them, decoded. -/
def decodeTableWord (nbits w : Nat) : Option Instr :=
  match decode (bytesOfWord (tableWord nbits w)) with
  | .ok (i, _) => some i
  | .error _ => none

/-! Encoding (R80, R83 to R88) -/

/-- The operand field of a second operand: a register, or an immediate that fits the literal (R75, R85). -/
def RegImm.field : RegImm → Option OperandField
  | .reg r => some (.reg r 0#3)
  | .imm v => if 0 ≤ v ∧ v ≤ 255 then some (.literal (BitVec.ofInt 8 v)) else none

/-- The fields of a Memory word, for an address with a base register and an offset in range (R73, R84). -/
def memFields (opcode : BitVec 6) (r : Reg) : Address → Option Fields
  | .base offset b =>
    if -32768 ≤ offset ∧ offset ≤ 32767 then some (.mem opcode r b (BitVec.ofInt 16 offset)) else none
  | .symbolic _ => none

/-- The displacement of a label for a branch that stands at `pc`, where 21 bits reach it (R77, R86). -/
def labelDisp (pc : Word) (l : Label) : Option (BitVec 21) :=
  let words := ((Config.labelAddr l - (pc + 4#64)).sshiftRight 2).toInt
  if -1048576 ≤ words ∧ words ≤ 1048575 then some (BitVec.ofInt 21 words) else none

/-- The displacement field of a branch that stands at `pc`. -/
def targetDisp (pc : Word) : Target → Option (BitVec 21)
  | .disp d => some d
  | .label l => labelDisp pc l

/-- The fields of a Branch word (R84). -/
def braFields (pc : Word) (opcode : BitVec 6) (r : Reg) (t : Target) : Option Fields :=
  (targetDisp pc t).map (.bra opcode r)

/-- The fields of an Operate word (R84). -/
def oprFields (opcode : BitVec 6) (func : BitVec 7) (a : Reg) (b : RegImm) (c : Reg) : Option Fields :=
  b.field.map fun field => .opr opcode a field func c

/-- The 14 hint bits of a `jmp` or `jsr` that stands at `pc`: the low bits of the distance in instructions from the
statement after it to the `jhint` (R87). -/
def hintBits (pc : Word) : Hint → BitVec 14
  | .bits h => h
  | .address e => (Config.symbolAddr e - (pc + 4#64)).extractLsb' 2 14

/-- The fields of a jump word (R87). -/
def jumpFields (pc : Word) (jtype : BitVec 2) (d : Reg) : JumpOperand → Option Fields
  | .reg r hint => some (.mbr d r jtype (hintBits pc hint))
  | .symbolic _ => none

/-- The fields of `fetch` and `fetch_m`: only offset 0 has an encoding (R84). -/
def fetchFields (func : BitVec 16) (offset : Int) (b : Reg) : Option Fields :=
  if offset = 0 then some (.mfc 31 b func) else none

/-- The fields of `mov`: `bis $31`, or `lda` for an immediate the literal cannot hold (R80, R221). -/
def movFields (b : RegImm) (d : Reg) : Option Fields :=
  match b.field with
  | some field => some (.opr 0x11#6 31 field 0x20#7 d)
  | none =>
    match b with
    | .imm v => memFields 0x08#6 d (.base v 31)
    | .reg _ => none

/-- The fields of a statement that is one machine instruction where it stands at `pc`; none for a macro and for an
operand out of range. -/
def Instr.fields (pc : Word) : Instr → Option Fields
  | .lda d a => memFields 0x08#6 d a
  | .ldbu d a => memFields 0x0a#6 d a
  | .ldwu d a => memFields 0x0c#6 d a
  | .ldl d a => memFields 0x28#6 d a
  | .ldlL d a => memFields 0x2a#6 d a
  | .ldq d a => memFields 0x29#6 d a
  | .ldqL d a => memFields 0x2b#6 d a
  | .ldqU d a => memFields 0x0b#6 d a
  | .ldah d offset b => memFields 0x09#6 d (.base offset b)
  | .stb r a => memFields 0x0e#6 r a
  | .stw r a => memFields 0x0d#6 r a
  | .stl r a => memFields 0x2c#6 r a
  | .stlC r a => memFields 0x2e#6 r a
  | .stq r a => memFields 0x2d#6 r a
  | .stqC r a => memFields 0x2f#6 r a
  | .stqU r a => memFields 0x0f#6 r a
  | .clr d => oprFields 0x11#6 0x20#7 31 (.reg 31) d
  | .negl b d => oprFields 0x10#6 0x09#7 31 b d
  | .neglv b d => oprFields 0x10#6 0x49#7 31 b d
  | .negq b d => oprFields 0x10#6 0x29#7 31 b d
  | .negqv b d => oprFields 0x10#6 0x69#7 31 b d
  | .sextb b d => oprFields 0x1c#6 0x00#7 31 b d
  | .sextl b d => oprFields 0x10#6 0x00#7 31 b d
  | .sextw b d => oprFields 0x1c#6 0x01#7 31 b d
  | .addl a b c => oprFields 0x10#6 0x00#7 a b c
  | .addlv a b c => oprFields 0x10#6 0x40#7 a b c
  | .addq a b c => oprFields 0x10#6 0x20#7 a b c
  | .addqv a b c => oprFields 0x10#6 0x60#7 a b c
  | .s4addl a b c => oprFields 0x10#6 0x02#7 a b c
  | .s4addq a b c => oprFields 0x10#6 0x22#7 a b c
  | .s8addl a b c => oprFields 0x10#6 0x12#7 a b c
  | .s8addq a b c => oprFields 0x10#6 0x32#7 a b c
  | .mull a b c => oprFields 0x13#6 0x00#7 a b c
  | .mullv a b c => oprFields 0x13#6 0x40#7 a b c
  | .mulq a b c => oprFields 0x13#6 0x20#7 a b c
  | .mulqv a b c => oprFields 0x13#6 0x60#7 a b c
  | .subl a b c => oprFields 0x10#6 0x09#7 a b c
  | .sublv a b c => oprFields 0x10#6 0x49#7 a b c
  | .subq a b c => oprFields 0x10#6 0x29#7 a b c
  | .subqv a b c => oprFields 0x10#6 0x69#7 a b c
  | .s4subl a b c => oprFields 0x10#6 0x0b#7 a b c
  | .s4subq a b c => oprFields 0x10#6 0x2b#7 a b c
  | .s8subl a b c => oprFields 0x10#6 0x1b#7 a b c
  | .s8subq a b c => oprFields 0x10#6 0x3b#7 a b c
  | .umulh a b c => oprFields 0x13#6 0x30#7 a b c
  | .not b d => oprFields 0x11#6 0x28#7 31 b d
  | .and a b c => oprFields 0x11#6 0x00#7 a b c
  | .bis a b c => oprFields 0x11#6 0x20#7 a b c
  | .or a b c => oprFields 0x11#6 0x20#7 a b c
  | .xor a b c => oprFields 0x11#6 0x40#7 a b c
  | .bic a b c => oprFields 0x11#6 0x08#7 a b c
  | .andnot a b c => oprFields 0x11#6 0x08#7 a b c
  | .ornot a b c => oprFields 0x11#6 0x28#7 a b c
  | .eqv a b c => oprFields 0x11#6 0x48#7 a b c
  | .xornot a b c => oprFields 0x11#6 0x48#7 a b c
  | .sll a b c => oprFields 0x12#6 0x39#7 a b c
  | .srl a b c => oprFields 0x12#6 0x34#7 a b c
  | .sra a b c => oprFields 0x12#6 0x3c#7 a b c
  | .cmpeq a b c => oprFields 0x10#6 0x2d#7 a b c
  | .cmplt a b c => oprFields 0x10#6 0x4d#7 a b c
  | .cmple a b c => oprFields 0x10#6 0x6d#7 a b c
  | .cmpult a b c => oprFields 0x10#6 0x1d#7 a b c
  | .cmpule a b c => oprFields 0x10#6 0x3d#7 a b c
  | .mov b d => movFields b d
  | .cmoveq a b c => oprFields 0x11#6 0x24#7 a b c
  | .cmovne a b c => oprFields 0x11#6 0x26#7 a b c
  | .cmovlt a b c => oprFields 0x11#6 0x44#7 a b c
  | .cmovle a b c => oprFields 0x11#6 0x64#7 a b c
  | .cmovgt a b c => oprFields 0x11#6 0x66#7 a b c
  | .cmovge a b c => oprFields 0x11#6 0x46#7 a b c
  | .cmovlbc a b c => oprFields 0x11#6 0x16#7 a b c
  | .cmovlbs a b c => oprFields 0x11#6 0x14#7 a b c
  | .beq r t => braFields pc 0x39#6 r t
  | .bne r t => braFields pc 0x3d#6 r t
  | .blt r t => braFields pc 0x3a#6 r t
  | .ble r t => braFields pc 0x3b#6 r t
  | .bgt r t => braFields pc 0x3f#6 r t
  | .bge r t => braFields pc 0x3e#6 r t
  | .blbc r t => braFields pc 0x38#6 r t
  | .blbs r t => braFields pc 0x3c#6 r t
  | .br d t => braFields pc 0x30#6 d t
  | .bsr d t => braFields pc 0x34#6 d t
  | .jmp d j => jumpFields pc 0 d j
  | .jsr d j => jumpFields pc 1 d j
  | .ret d r hint => some (.mbr d r 2 hint)
  | .jsrCoroutine d r hint => some (.mbr d r 3 hint)
  | .cmpbge a b c => oprFields 0x10#6 0x0f#7 a b c
  | .extbl a b c => oprFields 0x12#6 0x06#7 a b c
  | .extwl a b c => oprFields 0x12#6 0x16#7 a b c
  | .extll a b c => oprFields 0x12#6 0x26#7 a b c
  | .extql a b c => oprFields 0x12#6 0x36#7 a b c
  | .extwh a b c => oprFields 0x12#6 0x5a#7 a b c
  | .extlh a b c => oprFields 0x12#6 0x6a#7 a b c
  | .extqh a b c => oprFields 0x12#6 0x7a#7 a b c
  | .insbl a b c => oprFields 0x12#6 0x0b#7 a b c
  | .inswl a b c => oprFields 0x12#6 0x1b#7 a b c
  | .insll a b c => oprFields 0x12#6 0x2b#7 a b c
  | .insql a b c => oprFields 0x12#6 0x3b#7 a b c
  | .inswh a b c => oprFields 0x12#6 0x57#7 a b c
  | .inslh a b c => oprFields 0x12#6 0x67#7 a b c
  | .insqh a b c => oprFields 0x12#6 0x77#7 a b c
  | .mskbl a b c => oprFields 0x12#6 0x02#7 a b c
  | .mskwl a b c => oprFields 0x12#6 0x12#7 a b c
  | .mskll a b c => oprFields 0x12#6 0x22#7 a b c
  | .mskql a b c => oprFields 0x12#6 0x32#7 a b c
  | .mskwh a b c => oprFields 0x12#6 0x52#7 a b c
  | .msklh a b c => oprFields 0x12#6 0x62#7 a b c
  | .mskqh a b c => oprFields 0x12#6 0x72#7 a b c
  | .zap a b c => oprFields 0x12#6 0x30#7 a b c
  | .zapnot a b c => oprFields 0x12#6 0x31#7 a b c
  | .callPal palcode => if palcode < 2 ^ 26 then some (.pcd (BitVec.ofNat 26 palcode)) else none
  | .amask b d => oprFields 0x11#6 0x61#7 31 b d
  | .fetch offset b => fetchFields 0x8000#16 offset b
  | .fetchM offset b => fetchFields 0xa000#16 offset b
  | .rpcc d => some (.mfc d 31 0xc000#16)
  | .implver d => some (.opr 0x11#6 31 (.literal 1) 0x6c#7 d)
  | .nop => oprFields 0x11#6 0x20#7 31 (.reg 31) 31
  | .unop => memFields 0x0b#6 31 (.base 0 30)
  | .trapb => some (.mfc 31 31 0x0000#16)
  | .excb => some (.mfc 31 31 0x0400#16)
  | .mb => some (.mfc 31 31 0x4000#16)
  | .wmb => some (.mfc 31 31 0x4400#16)
  | .ldb _ _ | .ldw _ _ | .uldw _ _ | .uldwu _ _ | .uldl _ _ | .uldq _ _ | .ldgp _ _ _ | .ldil _ _ | .ldiq _ _
  | .ustw _ _ | .ustl _ _ | .ustq _ _ | .absl _ _ | .absq _ _ | .divl _ _ _ | .divlu _ _ _ | .divq _ _ _
  | .divqu _ _ _ | .reml _ _ _ | .remlu _ _ _ | .remq _ _ _ | .remqu _ _ _ => none

/-- The word of a statement that is one machine instruction where it stands at `pc`. -/
def encode (pc : Word) (i : Instr) : Option InstrWord := (i.fields pc).map Fields.word

/-- The machine instruction whose word a statement at `pc` has: itself, with a label as its displacement (R86) and a
`jhint` as its bits (R87), or the instruction a pseudo-instruction stands for (R80). -/
def Instr.machineForm (pc : Word) : Instr → Instr
  | .or a b c => .bis a b c
  | .andnot a b c => .bic a b c
  | .xornot a b c => .eqv a b c
  | .clr d => .bis 31 (.reg 31) d
  | .mov (.reg r) d => .bis 31 (.reg r) d
  | .mov (.imm v) d => if 0 ≤ v ∧ v ≤ 255 then .bis 31 (.imm v) d else .lda d (.base v 31)
  | .not b d => .ornot 31 b d
  | .negl b d => .subl 31 b d
  | .neglv b d => .sublv 31 b d
  | .negq b d => .subq 31 b d
  | .negqv b d => .subqv 31 b d
  | .sextl b d => .addl 31 b d
  | .nop => .bis 31 (.reg 31) 31
  | .unop => .ldqU 31 (.base 0 30)
  | .beq r (.label l) => .beq r (((labelDisp pc l).map Target.disp).getD (.label l))
  | .bne r (.label l) => .bne r (((labelDisp pc l).map Target.disp).getD (.label l))
  | .blt r (.label l) => .blt r (((labelDisp pc l).map Target.disp).getD (.label l))
  | .ble r (.label l) => .ble r (((labelDisp pc l).map Target.disp).getD (.label l))
  | .bgt r (.label l) => .bgt r (((labelDisp pc l).map Target.disp).getD (.label l))
  | .bge r (.label l) => .bge r (((labelDisp pc l).map Target.disp).getD (.label l))
  | .blbc r (.label l) => .blbc r (((labelDisp pc l).map Target.disp).getD (.label l))
  | .blbs r (.label l) => .blbs r (((labelDisp pc l).map Target.disp).getD (.label l))
  | .br d (.label l) => .br d (((labelDisp pc l).map Target.disp).getD (.label l))
  | .bsr d (.label l) => .bsr d (((labelDisp pc l).map Target.disp).getD (.label l))
  | .jmp d (.reg r hint) => .jmp d (.reg r (.bits (hintBits pc hint)))
  | .jsr d (.reg r hint) => .jsr d (.reg r (.bits (hintBits pc hint)))
  | i => i

end Sys2Proof
end

