-- ==== Sys2Proof/Machine/Flags.lean ====
section
/-! DEFINITION. The conditions statements test. The machine has no flags (spec/10_state.md R26): an overflow is a
condition of the operands under which an exception is raised (spec/41_arithmetic.md R181), and the conditional
branches and moves test a register (spec/44_move.md R220, spec/45_control.md R235). Arithmetic results and their
overflows are computed on the exact integers. -/

namespace Sys2Proof.Machine

/-- `s32(v)` (spec/00_scope.md R11). -/
def s32 (v : Word) : Int := (v.setWidth 32).toInt

/-- `u32(v)` (R11). -/
def u32 (v : Word) : Nat := (v.setWidth 32).toNat

/-- A longword result: the low 32 bits of an exact integer, sign-extended to the register (R140). -/
def longword (t : Int) : Word := (BitVec.ofInt 32 t).signExtend 64

/-- A quadword result: an exact integer modulo 2^64. -/
def quadword (t : Int) : Word := BitVec.ofInt 64 t

/-- The exact result is no signed 32-bit number. -/
def overflows32 (t : Int) : Bool := decide (t < -2 ^ 31 ∨ 2 ^ 31 - 1 < t)

/-- The exact result is no signed 64-bit number. -/
def overflows64 (t : Int) : Bool := decide (t < -2 ^ 63 ∨ 2 ^ 63 - 1 < t)

/-- Equal to zero (R222, R237). -/
def testEq (v : Word) : Bool := v == 0#64
/-- Not equal to zero (R223, R238). -/
def testNe (v : Word) : Bool := v != 0#64
/-- Less than zero (R224, R239). -/
def testLt (v : Word) : Bool := decide (v.toInt < 0)
/-- Less than or equal to zero (R225, R240). -/
def testLe (v : Word) : Bool := decide (v.toInt ≤ 0)
/-- Greater than zero (R226, R241). -/
def testGt (v : Word) : Bool := decide (0 < v.toInt)
/-- Greater than or equal to zero (R227, R242). -/
def testGe (v : Word) : Bool := decide (0 ≤ v.toInt)
/-- Low bit clear (R228, R243). -/
def testLbc (v : Word) : Bool := !v.getLsbD 0
/-- Low bit set (R229, R244). -/
def testLbs (v : Word) : Bool := v.getLsbD 0

/-- The result of a comparison: 1 or 0 (spec/43_relational.md R210). -/
def truth (b : Bool) : Word := if b then 1#64 else 0#64

end Sys2Proof.Machine
end

