-- ==== Sys2Proof/Machine/Kinds.lean ====
section
/-! DEFINITION. The kinds of statement (spec/30_encoding.md R79), the registers a statement names, and the temporary
registers it destroys (R81): one table for the length of a statement, for its temporaries and for its refusals. -/

namespace Sys2Proof

/-- Register `$28`, the assembler's temporary `AT` (spec/10_state.md R22). -/
def regAT : Reg := 28
/-- Register `$23` (R22). -/
def regT9 : Reg := 23
/-- Register `$24` (R22). -/
def regT10 : Reg := 24
/-- Register `$25` (R22). -/
def regT11 : Reg := 25
/-- Register `$27`, `t12` or `pv` (R22). -/
def regT12 : Reg := 27

/-- The register an operand names. -/
def RegImm.registers : RegImm → List Reg
  | .reg r => [r]
  | .imm _ => []

/-- The immediate outside the 8-bit literal, for which the assembler first builds the value in `AT` (R75). -/
def RegImm.wide : RegImm → Bool
  | .reg _ => false
  | .imm v => decide (v < 0 ∨ 255 < v)

/-- The immediate of `mov` outside both of its one-instruction forms (spec/44_move.md R221). -/
def RegImm.wideForMov : RegImm → Bool
  | .reg _ => false
  | .imm v => decide (v < -32768 ∨ 32767 < v)

/-- The base register of an address (R73). -/
def Address.registers : Address → List Reg
  | .base _ b => [b]
  | .symbolic _ => []

/-- A symbolic address (R73): the statement is then a macro that destroys `AT` (R81). -/
def Address.isSymbolic : Address → Bool
  | .base _ _ => false
  | .symbolic _ => true

/-- The source register of a jump (R247). -/
def JumpOperand.registers : JumpOperand → List Reg
  | .reg r _ => [r]
  | .symbolic _ => []

/-- The symbolic form of `jmp` and `jsr` (R247). -/
def JumpOperand.isSymbolic : JumpOperand → Bool
  | .reg _ _ => false
  | .symbolic _ => true

/-- The range of the `offset` operand (R73, R74). -/
def offsetInRange (offset : Int) : Bool := decide (-32768 ≤ offset ∧ offset ≤ 32767)

/-- The offset of an address is in range; a symbolic address has none (R73). -/
def Address.offsetInRange : Address → Bool
  | .base offset _ => Sys2Proof.offsetInRange offset
  | .symbolic _ => true

/-- The registers a statement names: its source, base and destination registers (R72, R81). -/
def Instr.registers : Instr → List Reg
  | .lda d a | .ldb d a | .ldbu d a | .ldw d a | .ldwu d a | .ldl d a | .ldlL d a | .ldq d a | .ldqL d a
  | .ldqU d a | .uldw d a | .uldwu d a | .uldl d a | .uldq d a => d :: a.registers
  | .ldah d _ b | .ldgp d _ b => [d, b]
  | .ldil d _ | .ldiq d _ => [d]
  | .stb r a | .stw r a | .stl r a | .stlC r a | .stq r a | .stqC r a | .stqU r a | .ustw r a | .ustl r a
  | .ustq r a => r :: a.registers
  | .clr d | .rpcc d | .implver d => [d]
  | .absl b d | .absq b d | .negl b d | .neglv b d | .negq b d | .negqv b d | .sextb b d | .sextl b d | .sextw b d
  | .not b d | .mov b d | .amask b d => d :: b.registers
  | .addl a b c | .addlv a b c | .addq a b c | .addqv a b c | .s4addl a b c | .s4addq a b c | .s8addl a b c
  | .s8addq a b c | .mull a b c | .mullv a b c | .mulq a b c | .mulqv a b c | .subl a b c | .sublv a b c
  | .subq a b c | .subqv a b c | .s4subl a b c | .s4subq a b c | .s8subl a b c | .s8subq a b c | .umulh a b c
  | .divl a b c | .divlu a b c | .divq a b c | .divqu a b c | .reml a b c | .remlu a b c | .remq a b c
  | .remqu a b c | .and a b c | .bis a b c | .or a b c | .xor a b c | .bic a b c | .andnot a b c | .ornot a b c
  | .eqv a b c | .xornot a b c | .sll a b c | .srl a b c | .sra a b c | .cmpeq a b c | .cmplt a b c | .cmple a b c
  | .cmpult a b c | .cmpule a b c | .cmoveq a b c | .cmovne a b c | .cmovlt a b c | .cmovle a b c | .cmovgt a b c
  | .cmovge a b c | .cmovlbc a b c | .cmovlbs a b c | .cmpbge a b c | .extbl a b c | .extwl a b c | .extll a b c
  | .extql a b c | .extwh a b c | .extlh a b c | .extqh a b c | .insbl a b c | .inswl a b c | .insll a b c
  | .insql a b c | .inswh a b c | .inslh a b c | .insqh a b c | .mskbl a b c | .mskwl a b c | .mskll a b c
  | .mskql a b c | .mskwh a b c | .msklh a b c | .mskqh a b c | .zap a b c | .zapnot a b c => a :: c :: b.registers
  | .beq r _ | .bne r _ | .blt r _ | .ble r _ | .bgt r _ | .bge r _ | .blbc r _ | .blbs r _ => [r]
  | .br d _ | .bsr d _ => [d]
  | .jmp d j | .jsr d j => d :: j.registers
  | .ret d r _ | .jsrCoroutine d r _ => [d, r]
  | .callPal _ => []
  | .fetch _ b | .fetchM _ b => [b]
  | .nop | .unop | .trapb | .excb | .mb | .wmb => []

/-- The statement is several machine instructions (kind X of R79, kind B without `BWX`, a symbolic address of R73,
an immediate outside the literal of R75): its length is then `MACRO_LEN` (R25). -/
def Instr.isMacro (bwx : Bool) : Instr → Bool
  | .lda _ a | .ldl _ a | .ldlL _ a | .ldq _ a | .ldqL _ a | .ldqU _ a | .stl _ a | .stlC _ a | .stq _ a
  | .stqC _ a | .stqU _ a => a.isSymbolic
  | .ldbu _ a | .ldwu _ a | .stb _ a | .stw _ a => !bwx || a.isSymbolic
  | .ldb _ _ | .ldw _ _ | .uldw _ _ | .uldwu _ _ | .uldl _ _ | .uldq _ _ | .ldgp _ _ _ | .ldil _ _ | .ldiq _ _
  | .ustw _ _ | .ustl _ _ | .ustq _ _ | .absl _ _ | .absq _ _ | .divl _ _ _ | .divlu _ _ _ | .divq _ _ _
  | .divqu _ _ _ | .reml _ _ _ | .remlu _ _ _ | .remq _ _ _ | .remqu _ _ _ => true
  | .mov b _ => b.wideForMov
  | .sextb b _ | .sextw b _ => !bwx || b.wide
  | .negl b _ | .neglv b _ | .negq b _ | .negqv b _ | .sextl b _ | .addl _ b _ | .addlv _ b _ | .addq _ b _
  | .addqv _ b _ | .s4addl _ b _ | .s4addq _ b _ | .s8addl _ b _ | .s8addq _ b _ | .mull _ b _ | .mullv _ b _
  | .mulq _ b _ | .mulqv _ b _ | .subl _ b _ | .sublv _ b _ | .subq _ b _ | .subqv _ b _ | .s4subl _ b _
  | .s4subq _ b _ | .s8subl _ b _ | .s8subq _ b _ | .umulh _ b _ | .not b _ | .and _ b _ | .bis _ b _ | .or _ b _
  | .xor _ b _ | .bic _ b _ | .andnot _ b _ | .ornot _ b _ | .eqv _ b _ | .xornot _ b _ | .sll _ b _ | .srl _ b _
  | .sra _ b _ | .cmpeq _ b _ | .cmplt _ b _ | .cmple _ b _ | .cmpult _ b _ | .cmpule _ b _ | .cmoveq _ b _
  | .cmovne _ b _ | .cmovlt _ b _ | .cmovle _ b _ | .cmovgt _ b _ | .cmovge _ b _ | .cmovlbc _ b _
  | .cmovlbs _ b _ | .cmpbge _ b _ | .extbl _ b _ | .extwl _ b _ | .extll _ b _ | .extql _ b _ | .extwh _ b _
  | .extlh _ b _ | .extqh _ b _ | .insbl _ b _ | .inswl _ b _ | .insll _ b _ | .insql _ b _ | .inswh _ b _
  | .inslh _ b _ | .insqh _ b _ | .mskbl _ b _ | .mskwl _ b _ | .mskll _ b _ | .mskql _ b _ | .mskwh _ b _
  | .msklh _ b _ | .mskqh _ b _ | .zap _ b _ | .zapnot _ b _ | .amask b _ => b.wide
  | .jmp _ j | .jsr _ j => j.isSymbolic
  | .ldah _ _ _ | .clr _ | .beq _ _ | .bne _ _ | .blt _ _ | .ble _ _ | .bgt _ _ | .bge _ _ | .blbc _ _ | .blbs _ _
  | .br _ _ | .bsr _ _ | .ret _ _ _ | .jsrCoroutine _ _ _ | .callPal _ | .fetch _ _ | .fetchM _ _ | .rpcc _
  | .implver _ | .nop | .unop | .trapb | .excb | .mb | .wmb => false

/-- The temporaries of the statement's own expansion (R81), whatever its operands are. -/
def Instr.ownTemporaries (bwx : Bool) : Instr → List Reg
  | .ldb _ _ => [regAT, regT9]
  | .ldbu _ _ => if bwx then [] else [regAT, regT9]
  | .ldw _ _ => [regAT, regT9, regT10]
  | .ldwu _ _ => if bwx then [] else [regAT, regT9, regT10]
  | .uldw _ _ | .uldwu _ _ | .uldl _ _ | .uldq _ _ => [regAT, regT9, regT10]
  | .stb _ _ => if bwx then [] else [regAT, regT9, regT10]
  | .stw _ _ => if bwx then [] else [regAT, regT9, regT10, regT11, regT12]
  | .ustw _ _ | .ustl _ _ | .ustq _ _ => [regAT, regT9, regT10, regT11, regT12]
  | .divl _ _ _ | .divlu _ _ _ | .divq _ _ _ | .divqu _ _ _ | .reml _ _ _ | .remlu _ _ _ | .remq _ _ _
  | .remqu _ _ _ => [regAT, regT9, regT10, regT11, regT12]
  | .absl _ _ | .absq _ _ => [regAT]
  | .lda _ _ | .ldl _ _ | .ldlL _ _ | .ldq _ _ | .ldqL _ _ | .ldqU _ _ | .ldah _ _ _ | .ldgp _ _ _ | .ldil _ _
  | .ldiq _ _ | .stl _ _ | .stlC _ _ | .stq _ _ | .stqC _ _ | .stqU _ _ | .clr _ | .negl _ _ | .neglv _ _
  | .negq _ _ | .negqv _ _ | .sextb _ _ | .sextl _ _ | .sextw _ _ | .addl _ _ _ | .addlv _ _ _ | .addq _ _ _
  | .addqv _ _ _ | .s4addl _ _ _ | .s4addq _ _ _ | .s8addl _ _ _ | .s8addq _ _ _ | .mull _ _ _ | .mullv _ _ _
  | .mulq _ _ _ | .mulqv _ _ _ | .subl _ _ _ | .sublv _ _ _ | .subq _ _ _ | .subqv _ _ _ | .s4subl _ _ _
  | .s4subq _ _ _ | .s8subl _ _ _ | .s8subq _ _ _ | .umulh _ _ _ | .not _ _ | .and _ _ _ | .bis _ _ _ | .or _ _ _
  | .xor _ _ _ | .bic _ _ _ | .andnot _ _ _ | .ornot _ _ _ | .eqv _ _ _ | .xornot _ _ _ | .sll _ _ _ | .srl _ _ _
  | .sra _ _ _ | .cmpeq _ _ _ | .cmplt _ _ _ | .cmple _ _ _ | .cmpult _ _ _ | .cmpule _ _ _ | .mov _ _
  | .cmoveq _ _ _ | .cmovne _ _ _ | .cmovlt _ _ _ | .cmovle _ _ _ | .cmovgt _ _ _ | .cmovge _ _ _ | .cmovlbc _ _ _
  | .cmovlbs _ _ _ | .beq _ _ | .bne _ _ | .blt _ _ | .ble _ _ | .bgt _ _ | .bge _ _ | .blbc _ _ | .blbs _ _
  | .br _ _ | .bsr _ _ | .jmp _ _ | .jsr _ _ | .ret _ _ _ | .jsrCoroutine _ _ _ | .cmpbge _ _ _ | .extbl _ _ _
  | .extwl _ _ _ | .extll _ _ _ | .extql _ _ _ | .extwh _ _ _ | .extlh _ _ _ | .extqh _ _ _ | .insbl _ _ _
  | .inswl _ _ _ | .insll _ _ _ | .insql _ _ _ | .inswh _ _ _ | .inslh _ _ _ | .insqh _ _ _ | .mskbl _ _ _
  | .mskwl _ _ _ | .mskll _ _ _ | .mskql _ _ _ | .mskwh _ _ _ | .msklh _ _ _ | .mskqh _ _ _ | .zap _ _ _
  | .zapnot _ _ _ | .callPal _ | .amask _ _ | .fetch _ _ | .fetchM _ _ | .rpcc _ | .implver _ | .nop | .unop
  | .trapb | .excb | .mb | .wmb => []

/-- The statement needs `AT` for an operand: a symbolic address (R73) or an immediate outside the literal (R75);
`mov` builds its immediate in the destination (R81). -/
def Instr.operandNeedsAT : Instr → Bool
  | .lda _ a | .ldb _ a | .ldbu _ a | .ldw _ a | .ldwu _ a | .ldl _ a | .ldlL _ a | .ldq _ a | .ldqL _ a
  | .ldqU _ a | .uldw _ a | .uldwu _ a | .uldl _ a | .uldq _ a | .stb _ a | .stw _ a | .stl _ a | .stlC _ a
  | .stq _ a | .stqC _ a | .stqU _ a | .ustw _ a | .ustl _ a | .ustq _ a => a.isSymbolic
  | .jmp _ j | .jsr _ j => j.isSymbolic
  | .absl b _ | .absq b _ | .negl b _ | .neglv b _ | .negq b _ | .negqv b _ | .sextb b _ | .sextl b _ | .sextw b _
  | .addl _ b _ | .addlv _ b _ | .addq _ b _ | .addqv _ b _ | .s4addl _ b _ | .s4addq _ b _ | .s8addl _ b _
  | .s8addq _ b _ | .mull _ b _ | .mullv _ b _ | .mulq _ b _ | .mulqv _ b _ | .subl _ b _ | .sublv _ b _
  | .subq _ b _ | .subqv _ b _ | .s4subl _ b _ | .s4subq _ b _ | .s8subl _ b _ | .s8subq _ b _ | .umulh _ b _
  | .divl _ b _ | .divlu _ b _ | .divq _ b _ | .divqu _ b _ | .reml _ b _ | .remlu _ b _ | .remq _ b _
  | .remqu _ b _ | .not b _ | .and _ b _ | .bis _ b _ | .or _ b _ | .xor _ b _ | .bic _ b _ | .andnot _ b _
  | .ornot _ b _ | .eqv _ b _ | .xornot _ b _ | .sll _ b _ | .srl _ b _ | .sra _ b _ | .cmpeq _ b _ | .cmplt _ b _
  | .cmple _ b _ | .cmpult _ b _ | .cmpule _ b _ | .cmoveq _ b _ | .cmovne _ b _ | .cmovlt _ b _ | .cmovle _ b _
  | .cmovgt _ b _ | .cmovge _ b _ | .cmovlbc _ b _ | .cmovlbs _ b _ | .cmpbge _ b _ | .extbl _ b _ | .extwl _ b _
  | .extll _ b _ | .extql _ b _ | .extwh _ b _ | .extlh _ b _ | .extqh _ b _ | .insbl _ b _ | .inswl _ b _
  | .insll _ b _ | .insql _ b _ | .inswh _ b _ | .inslh _ b _ | .insqh _ b _ | .mskbl _ b _ | .mskwl _ b _
  | .mskll _ b _ | .mskql _ b _ | .mskwh _ b _ | .msklh _ b _ | .mskqh _ b _ | .zap _ b _ | .zapnot _ b _
  | .amask b _ => b.wide
  | .mov _ _ | .ldah _ _ _ | .ldgp _ _ _ | .ldil _ _ | .ldiq _ _ | .clr _ | .beq _ _ | .bne _ _ | .blt _ _
  | .ble _ _ | .bgt _ _ | .bge _ _ | .blbc _ _ | .blbs _ _ | .br _ _ | .bsr _ _ | .ret _ _ _ | .jsrCoroutine _ _ _
  | .callPal _ | .fetch _ _ | .fetchM _ _ | .rpcc _ | .implver _ | .nop | .unop | .trapb | .excb | .mb | .wmb => false

/-- Every register the statement destroys (R81, `clobber` of R12). -/
def Instr.temporaries (bwx : Bool) (i : Instr) : List Reg :=
  if i.operandNeedsAT && !(i.ownTemporaries bwx).contains regAT then regAT :: i.ownTemporaries bwx
  else i.ownTemporaries bwx

/-- The length of the statement in 4-byte words: 1, or `MACRO_LEN(stmt)` (R25). -/
def Instr.length (bwx : Bool) (i : Instr) : Nat := if i.isMacro bwx then Config.macroLen i else 1

/-- Every `offset` operand of the statement is in the range of R73, R74 and spec/40_load_store.md R115. -/
def Instr.offsetsInRange : Instr → Bool
  | .lda _ a | .ldb _ a | .ldbu _ a | .ldw _ a | .ldwu _ a | .ldl _ a | .ldlL _ a | .ldq _ a | .ldqL _ a
  | .ldqU _ a | .uldw _ a | .uldwu _ a | .uldl _ a | .uldq _ a | .stb _ a | .stw _ a | .stl _ a | .stlC _ a
  | .stq _ a | .stqC _ a | .stqU _ a | .ustw _ a | .ustl _ a | .ustq _ a => a.offsetInRange
  | .ldah _ offset _ | .ldgp _ offset _ => Sys2Proof.offsetInRange offset
  | .ldil _ _ | .ldiq _ _ | .clr _ | .absl _ _ | .absq _ _ | .negl _ _ | .neglv _ _ | .negq _ _ | .negqv _ _
  | .sextb _ _ | .sextl _ _ | .sextw _ _ | .addl _ _ _ | .addlv _ _ _ | .addq _ _ _ | .addqv _ _ _ | .s4addl _ _ _
  | .s4addq _ _ _ | .s8addl _ _ _ | .s8addq _ _ _ | .mull _ _ _ | .mullv _ _ _ | .mulq _ _ _ | .mulqv _ _ _
  | .subl _ _ _ | .sublv _ _ _ | .subq _ _ _ | .subqv _ _ _ | .s4subl _ _ _ | .s4subq _ _ _ | .s8subl _ _ _
  | .s8subq _ _ _ | .umulh _ _ _ | .divl _ _ _ | .divlu _ _ _ | .divq _ _ _ | .divqu _ _ _ | .reml _ _ _
  | .remlu _ _ _ | .remq _ _ _ | .remqu _ _ _ | .not _ _ | .and _ _ _ | .bis _ _ _ | .or _ _ _ | .xor _ _ _
  | .bic _ _ _ | .andnot _ _ _ | .ornot _ _ _ | .eqv _ _ _ | .xornot _ _ _ | .sll _ _ _ | .srl _ _ _ | .sra _ _ _
  | .cmpeq _ _ _ | .cmplt _ _ _ | .cmple _ _ _ | .cmpult _ _ _ | .cmpule _ _ _ | .mov _ _ | .cmoveq _ _ _
  | .cmovne _ _ _ | .cmovlt _ _ _ | .cmovle _ _ _ | .cmovgt _ _ _ | .cmovge _ _ _ | .cmovlbc _ _ _
  | .cmovlbs _ _ _ | .beq _ _ | .bne _ _ | .blt _ _ | .ble _ _ | .bgt _ _ | .bge _ _ | .blbc _ _ | .blbs _ _
  | .br _ _ | .bsr _ _ | .jmp _ _ | .jsr _ _ | .ret _ _ _ | .jsrCoroutine _ _ _ | .cmpbge _ _ _ | .extbl _ _ _
  | .extwl _ _ _ | .extll _ _ _ | .extql _ _ _ | .extwh _ _ _ | .extlh _ _ _ | .extqh _ _ _ | .insbl _ _ _
  | .inswl _ _ _ | .insll _ _ _ | .insql _ _ _ | .inswh _ _ _ | .inslh _ _ _ | .insqh _ _ _ | .mskbl _ _ _
  | .mskwl _ _ _ | .mskll _ _ _ | .mskql _ _ _ | .mskwh _ _ _ | .msklh _ _ _ | .mskqh _ _ _ | .zap _ _ _
  | .zapnot _ _ _ | .callPal _ | .amask _ _ | .fetch _ _ | .fetchM _ _ | .rpcc _ | .implver _ | .nop | .unop
  | .trapb | .excb | .mb | .wmb => true

end Sys2Proof
end

