-- ==== Sys2Proof/WellFormed.lean ====
section
/-! DEFINITION. Which statements the spec gives a meaning by their text alone (spec/00_scope.md R13, "refused").
The refusals that depend on the state are the machine's: a label out of the range of R77, an `ldgp` away from its own
address (R116), a store into the program text (R56), and a transfer into the middle of a placed statement (R360). -/

namespace Sys2Proof

/-- Why a statement has no meaning as it is written. -/
inductive IllFormed where
  /-- An `offset` outside -32768..32767 (R73, R74, R115). -/
  | offsetOutOfRange
  /-- A statement that names one of the temporaries it destroys (R81). -/
  | operandInTemporarySet
  /-- A `palcode` of more than 26 bits (R295). -/
  | palcodeOutOfRange
  /-- A `fetch` or `fetch_m` with an offset other than 0 (R297, R298). -/
  | fetchOffsetNonzero
deriving DecidableEq, Repr

/-- The `palcode` operand, where there is one, fits 26 bits (R78, R295). -/
def Instr.palcodeInRange : Instr → Bool
  | .callPal palcode => decide (palcode < 2 ^ 26)
  | _ => true

/-- The offset of `fetch` and `fetch_m` is 0 (R297, R298). -/
def Instr.fetchOffsetZero : Instr → Bool
  | .fetch offset _ => decide (offset = 0)
  | .fetchM offset _ => decide (offset = 0)
  | _ => true

/-- The statement names none of its own temporaries (R81). -/
def Instr.avoidsTemporaries (bwx : Bool) (i : Instr) : Bool :=
  i.registers.all fun r => !(i.temporaries bwx).contains r

/-- The first check a statement fails. -/
def Instr.illFormed? (bwx : Bool) (i : Instr) : Option IllFormed :=
  if !i.offsetsInRange then some .offsetOutOfRange
  else if !i.palcodeInRange then some .palcodeOutOfRange
  else if !i.fetchOffsetZero then some .fetchOffsetNonzero
  else if !i.avoidsTemporaries bwx then some .operandInTemporarySet
  else none

/-- The statement passes every check. -/
abbrev Instr.WellFormed (bwx : Bool) (i : Instr) : Prop := i.illFormed? bwx = none

end Sys2Proof
end

