-- ==== Sys2Proof/Machine/State.lean ====
section
/-! DEFINITION. The state of the machine as plain data (spec/10_state.md), the launch configuration it runs under
(spec/00_scope.md R6), the reasons a step stops, and the state after reset (spec/10_state.md R35, spec/70 R350, R351).
There are no flags and no control registers (R26, R31). -/

namespace Sys2Proof.Machine

/-- Memory: the bytes that are not zero, by address, addresses strictly rising (R32). An unlisted address reads as
zero. DESIGN CHOICE (unsafe; log 5). -/
abbrev Memory := List Host.Cell

/-- A range of byte addresses that may be read, written or fetched: one entry of `Mapped` (R6, R47). A range may go
round the top of the address space. -/
structure Region where
  base : Word
  size : Nat
  read : Bool
  write : Bool
  fetch : Bool
deriving DecidableEq, Repr

/-- A range of byte addresses. -/
structure Range where
  base : Word
  size : Nat
deriving DecidableEq, Repr

/-- What a run is launched with and never changes (R6, R351): `EXIT_PC`, `BWX`, `IMPLVER`, `AMASK_PRESENT`, `Mapped`,
the program text (R56), the statements of the program that stand at an address as statements, not as words: the way a
macro comes to run (R7, R12; log 1; the bytes of memory under them are not tied to them, log 30), and the codes of
`call_pal` a `PAL` handler is given for (log 8). -/
structure Launch where
  exitPc : Word
  bwx : Bool
  implver : BitVec 1
  amaskPresent : Word
  regions : List Region
  text : List Range
  statements : List (Word × Instr)
  palHandlers : List Nat
deriving DecidableEq, Repr

/-- The state of the machine. `regs` are `$0` to `$30` (R20); `$31` is not stored (R21). `lockFlag` and `lockAddr`:
R27, R28. `cycleCounter` is the contents of the process cycle counter as the last `rpcc` returned them (R29; log 21).
`draws` is the model's own field: how many free values have been taken (log 6). -/
structure State where
  regs : Vector Word 31
  pc : Word
  lockFlag : Bool
  lockAddr : Word
  cycleCounter : Word
  mem : Memory
  launch : Launch
  draws : Nat
deriving DecidableEq, Repr

/-- The ends of a run (spec/60_exceptions.md R320, R324, R327, spec/70_reset_and_hazards.md R352). All are terminal:
each carries the state the run ends in, `pc` still at the statement (R324). Safe: the spec ends the run here too. -/
inductive Fault where
  /-- `DataAlignment(ea)`: a load or store whose address is not a multiple of its size (R321). Safe. -/
  | dataAlignment (ea : Word) (final : State)
  /-- `IntegerOverflow`: the ten statements of R322; `final` holds the wrapped result. Safe (log 7). -/
  | integerOverflow (final : State)
  /-- `DivideByZero`: the eight division and remainder statements (R323). Safe. -/
  | divideByZero (final : State)
  /-- `AccessViolation(addr)`: a load, store or fetch of a byte that is not `Mapped` (R325). Safe. -/
  | accessViolation (addr : Word) (final : State)
  /-- `IllegalInstruction(w)`: the fetched word is no instruction (R325). Safe. -/
  | illegalInstruction (w : InstrWord) (final : State)
  /-- `EnvCall(palcode)`: a `call_pal` no handler is given for leaves the machine (R295, R327, R352 c). Safe (log 8). -/
  | envCall (palcode : Nat) (final : State)
  /-- The normal end: the pc is `EXIT_PC` before a fetch (R352 a). Safe (log 22). -/
  | runEnded (final : State)
deriving DecidableEq, Repr

/-- Why a statement has no meaning (spec/00_scope.md R13, "refused"). Every one is safe: the machine stops. -/
inductive Refusal where
  /-- An instruction whose arm is not written yet. Raised by Machine/Dispatch.lean only. Safe. -/
  | notModelled (mnemonic : String)
  /-- The statement is ill-formed as it is written (R73, R81, R115, R295, R297, R298). Safe. -/
  | illFormed (why : IllFormed)
  /-- A label farther than the 21-bit displacement reaches (R77). Safe. -/
  | labelOutOfRange
  /-- An `ldgp` whose base and offset do not give its own address (R116). Safe. -/
  | ldgpNotOwnAddress
  /-- A store that overlaps the program text (R56). Safe. -/
  | storeToText
  /-- A transfer into the middle of a placed statement (spec/70_reset_and_hazards.md R360). Raised by a direct branch
  that is taken, and by the fetch (log 29). Safe. -/
  | insideStatement
deriving DecidableEq, Repr

/-- The launch configuration after reset: every address mapped for every kind of access, no program text, no placed
statement, no `PAL` handler, `BWX` with the bit of `AMASK_PRESENT` that stands for it, and the implementation version
of the chip the source names first (R1). DESIGN CHOICE (unsafe; log 4). -/
def Launch.reset : Launch where
  exitPc := Config.exitPc
  bwx := true
  implver := 1
  amaskPresent := 1
  regions := [⟨0, 2 ^ 64, true, true, true⟩]
  text := []
  statements := []
  palHandlers := []

/-- The registers at launch (R35): `$26` holds `EXIT_PC`, `$27` `ENTRY_PC`, `$30` a stack address that is a multiple
of 16 (R351); the spec leaves the others unspecified and forbids zero (R36). DESIGN CHOICE (unsafe; log 2). -/
def State.resetRegs : Vector Word 31 :=
  (((Vector.replicate 31 0x2000#64).set 26 Config.exitPc).set 27 Config.entryPc).set 30 0x8000#64

/-- The machine right after reset: the launch state of R35 (spec/70_reset_and_hazards.md R350). -/
def State.reset : State where
  regs := State.resetRegs
  pc := Config.entryPc
  lockFlag := false
  lockAddr := 0
  cycleCounter := 0
  mem := []
  launch := Launch.reset
  draws := 0

end Sys2Proof.Machine

/-- `PAL(palcode, state)`: what the handler of a `call_pal` does, for the codes one is given for
(spec/00_scope.md R6, spec/60_exceptions.md R327; log 8). -/
opaque Sys2Proof.Config.pal : Nat → Sys2Proof.Machine.State → Sys2Proof.Config.PalResult
end

