-- ==== Sys2Proof/Machine/Memory.lean ====
section
/-! DEFINITION. Memory as a sorted list of the bytes that are not zero (spec/10_state.md R32): reading and writing one
byte, and the canonical form both keep. -/

namespace Sys2Proof.Machine

/-- The byte at an address; an unlisted address reads as zero (log 5). -/
def Memory.byte : Memory → Nat → Byte
  | [], _ => 0#8
  | (key, value) :: rest, addr => if key = addr then value else Memory.byte rest addr

/-- One byte in front of a memory: zero is not listed. -/
def Memory.cons (addr : Nat) (v : Byte) (m : Memory) : Memory := if v = 0#8 then m else (addr, v) :: m

/-- The memory with one byte replaced; storing zero removes the entry. -/
def Memory.setByte : Memory → Nat → Byte → Memory
  | [], addr, v => Memory.cons addr v []
  | (key, value) :: rest, addr, v =>
    if addr < key then Memory.cons addr v ((key, value) :: rest)
    else if addr = key then Memory.cons addr v rest
    else (key, value) :: Memory.setByte rest addr v

/-- The canonical form of a memory whose addresses are all at least `low`. -/
def Memory.wfFrom : Nat → Memory → Bool
  | _, [] => true
  | low, (key, value) :: rest =>
    decide (low ≤ key) && decide (key < 2 ^ 64) && decide (value ≠ 0#8) && Memory.wfFrom (key + 1) rest

/-- The canonical form: addresses strictly rising and below 2^64, no entry zero. -/
def Memory.wf (m : Memory) : Bool := Memory.wfFrom 0 m

end Sys2Proof.Machine
end

