-- ==== Sys2Proof/Machine/Ops.lean ====
section
/-! DEFINITION. The named operations over registers, memory and the ends of a run (spec/00_scope.md R12): the one place
where `$31`, the byte order, admission, the free values and the raising of an exception are decided. -/

namespace Sys2Proof.Machine

/-- What a statement ends in (R13). -/
abbrev Outcome := Host.Outcome State Fault Refusal

/-! Registers -/

/-- `x[i]`: register 31 reads as zero (R12, spec/10_state.md R21). -/
def State.x (s : State) (r : Reg) : Word := if h : r.toNat < 31 then s.regs[r.toNat] else 0#64

/-- `x[i] <- v`: a write to register 31 is discarded (R12, R21). -/
def State.setX (s : State) (r : Reg) (v : Word) : State :=
  if h : r.toNat < 31 then { s with regs := s.regs.set r.toNat v } else s

/-! Free values -/

/-- The free value `draw_64()` would give now (R12). -/
def State.drawn (s : State) : Word := Config.freeWord s.draws

/-- The state after one free value is taken. -/
def State.drew (s : State) : State := { s with draws := s.draws + 1 }

/-- `clobber(S)`: each register of the list gets a free value of its own (R12). A destination in the list would have
to be left out; no statement comes to that, for R81 refuses it (Instr.avoidsTemporaries). -/
def State.clobber : State → List Reg → State
  | s, [] => s
  | s, r :: rest => ((s.setX r s.drawn).drew).clobber rest

/-! The program counter -/

/-- `npc`: the address of the statement that follows (R12, R25). -/
def State.npc (s : State) (i : Instr) : Word := s.pc + 4#64 * BitVec.ofNat 64 (i.length s.launch.bwx)

/-- `pc <- target`. -/
def State.setPc (s : State) (target : Word) : State := { s with pc := target }

/-- `pc <- npc`: what ends every rule that does not write the pc (R12, R25). -/
def State.advance (s : State) (i : Instr) : State := s.setPc (s.npc i)

/-! Memory -/

/-- The byte of memory at an address (R32). Under a placed statement it is whatever `mem` holds there, not tied to the
statement's words, though R35 has the program text in the launch memory. DESIGN CHOICE (unsafe; log 30). -/
def State.byteAt (s : State) (a : Word) : Byte := s.mem.byte a.toNat

/-- One byte stored. -/
def State.setByte (s : State) (a : Word) (v : Byte) : State := { s with mem := s.mem.setByte a.toNat v }

/-- `MemRead(addr, n)` zero-extended: little-endian, addresses modulo 2^64 (spec/20_memory.md R42; log 12). -/
def State.memRead (s : State) (a : Word) : Nat → Word
  | 0 => 0#64
  | n + 1 => (s.byteAt a).zeroExtend 64 ||| (s.memRead (a + 1) n) <<< 8

/-- `MemWrite(addr, n, v)`: little-endian (R42). -/
def State.memWrite (s : State) (a : Word) (v : Word) : Nat → State
  | 0 => s
  | n + 1 => (s.setByte a (v.setWidth 8)).memWrite (a + 1) (v >>> 8) n

/-- The address lies in the range. -/
def Range.contains (r : Range) (a : Word) : Bool := decide ((a - r.base).toNat < r.size)

/-- The address lies in the region. -/
def Region.contains (r : Region) (a : Word) : Bool := decide ((a - r.base).toNat < r.size)

/-- The three kinds of access of R47. -/
inductive AccessKind where
  | read
  | write
  | fetch
deriving DecidableEq, Repr

/-- The region admits the kind of access. -/
def Region.allows (r : Region) : AccessKind → Bool
  | .read => r.read
  | .write => r.write
  | .fetch => r.fetch

/-- `Mapped(addr, kind)` (R6, R47). -/
def Launch.mapped (l : Launch) (kind : AccessKind) (a : Word) : Bool :=
  l.regions.any fun r => r.contains a && r.allows kind

/-- The `n` byte addresses from `a` on. -/
def bytesFrom (a : Word) : Nat → List Word
  | 0 => []
  | n + 1 => a :: bytesFrom (a + 1) n

/-- The aligned quadword that holds the byte: `ea & ~7` (R48). -/
def quadOf (a : Word) : Word := a &&& ~~~7#64

/-- The bytes the macros of R49 touch: the aligned quadwords of the first and of the last byte. -/
def quadBytes (a : Word) (n : Nat) : List Word :=
  bytesFrom (quadOf a) 8 ++ bytesFrom (quadOf (a + BitVec.ofNat 64 n - 1)) 8

/-- The statement placed at an address (R7; log 1). -/
def statementAt : List (Word × Instr) → Word → Option Instr
  | [], _ => none
  | (address, i) :: rest, pc => if address = pc then some i else statementAt rest pc

/-- The words of a placed statement. -/
def Launch.wordsOf (l : Launch) (placed : Word × Instr) : Range := ⟨placed.1, 4 * placed.2.length l.bwx⟩

/-- A placed statement covers the address with one of its words. -/
def Launch.statementCovers (l : Launch) (a : Word) : Bool :=
  l.statements.any fun placed => (l.wordsOf placed).contains a

/-- The address lies inside a placed statement and no statement begins there: no branch can target it and nothing
is fetched from it (spec/70_reset_and_hazards.md R360; log 29). -/
def Launch.insideStatement (l : Launch) (a : Word) : Bool :=
  l.statementCovers a && (statementAt l.statements a).isNone

/-- The address belongs to the program text: a range of it, or a placed statement (R56; log 19). -/
def Launch.isText (l : Launch) (a : Word) : Bool :=
  (l.text.any fun r => r.contains a) || l.statementCovers a

/-- A store of `n` bytes at `a` would overlap the program text (R56). -/
def State.overlapsText (s : State) (a : Word) (n : Nat) : Bool := (bytesFrom a n).any s.launch.isText

/-! The lock (spec/20_memory.md R57 to R59) -/

/-- `lock_flag <- 1; lock_addr <- ea` (R57). -/
def State.setLock (s : State) (ea : Word) : State := { s with lockFlag := true, lockAddr := ea }

/-- `lock_flag <- 0` (R59). -/
def State.clearLock (s : State) : State := { s with lockFlag := false }

/-- The address lies in the aligned 16-byte block of the locked address (R59). -/
def State.inLockedBlock (s : State) (ea : Word) : Bool := ea >>> 4 == s.lockAddr >>> 4

/-- What the environment may do between two statements: clear the lock flag, never set it (R58). -/
def State.environment (s : State) : State :=
  { s with lockFlag := s.lockFlag && Config.environmentKeepsLock s.draws, draws := s.draws + 1 }

/-! The handler of `call_pal` (spec/60_exceptions.md R327; log 8) -/

/-- The handler's stores, byte after byte; the program text stays as it was launched (spec/20_memory.md R56). -/
def State.palStores : State → List (Word × Byte) → State
  | s, [] => s
  | s, (a, v) :: rest => (if s.launch.isText a then s else s.setByte a v).palStores rest

/-- The state the program resumes in: what the handler leaves of registers, pc and memory. It never sets the lock
flag (R58), and leaves the launch configuration alone. -/
def State.palReturn (s : State) (result : Config.PalResult) : State :=
  { s.palStores result.stores with
    regs := result.regs
    pc := result.resume ++ 0#2
    lockFlag := s.lockFlag && result.keepsLock }

/-! Ends of a statement -/

/-- `raise E(info)`, the one way an exception is taken (R12, spec/60_exceptions.md R324): the run ends at once with
the writes done so far, and the pc still holds the address of the raising statement. The spec gives no trap entry and
no return from one (R330, R331): nothing is saved and no handler is entered. -/
def State.raise (s : State) (e : State → Fault) : Outcome := .fault (e s)

/-- What runs when the statement is well-formed; a statement that is not is refused (R13). -/
def State.guarded (s : State) (i : Instr) (run : Outcome) : Outcome :=
  match i.illFormed? s.launch.bwx with
  | some why => .refused (.illFormed why)
  | none => run

end Sys2Proof.Machine
end

