-- ==== Sys2Proof/Machine/Operands.lean ====
section
/-! DEFINITION. The values of the operand forms (spec/30_encoding.md R73 to R78). -/

namespace Sys2Proof.Machine

/-- The register value of an `offset` operand: its 16 bits sign-extended (R74). -/
def offsetValue (offset : Int) : Word := (BitVec.ofInt 16 offset).signExtend 64

/-- `EA(address)` (R73): the base register, read before anything is written, plus the offset, modulo 2^64; or the
value the linker gives a symbolic address. -/
def State.ea (s : State) : Address → Word
  | .base offset b => s.x b + offsetValue offset
  | .symbolic e => Config.symbolAddr e

/-- `Rbv`: the register, or the immediate taken modulo 2^64 (R75). -/
def State.rbv (s : State) : RegImm → Word
  | .reg r => s.x r
  | .imm v => BitVec.ofInt 64 v

/-- The distance in instructions from the statement after the branch to an address (R77, R86). -/
def State.distance (s : State) (a : Word) : Int := ((a - (s.pc + 4#64)).sshiftRight 2).toInt

/-- A label the 21-bit displacement reaches (R77). -/
def State.labelInRange (s : State) (l : Label) : Bool :=
  decide (-1048576 ≤ s.distance (Config.labelAddr l) ∧ s.distance (Config.labelAddr l) ≤ 1048575)

/-- The address a branch goes to: `pc + 4 + 4 * sext(disp)` (R86), or the label; none for a label out of range (R77). -/
def State.target (s : State) : Target → Option Word
  | .disp d => some (s.pc + 4#64 + 4#64 * d.signExtend 64)
  | .label l => if s.labelInRange l then some (Config.labelAddr l) else none

/-- A jump target: the two low bits are cleared (spec/45_control.md R236). -/
def jumpTarget (v : Word) : Word := v &&& ~~~3#64

end Sys2Proof.Machine
end

