-- ==== Sys2Proof/Machine/Forms.lean ====
section
/-! DEFINITION. The shapes of a statement's effect, each written once: every meaning of the family files is one of
these with its own operation. In all of them the operands are read before anything is written (spec/30_encoding.md
R73, R76), the temporaries are destroyed last (spec/00_scope.md R12), and the pc advances (R25). -/

namespace Sys2Proof.Machine

/-- `clobber` of every temporary of the statement (R81). -/
def State.clobberTemps (s : State) (i : Instr) : State := s.clobber (i.temporaries s.launch.bwx)

/-- The end of a statement that completes without a transfer of control (R25). -/
def State.finish (s : State) (i : Instr) : Outcome := .next ((s.clobberTemps i).advance i)

/-! Memory access -/

/-- How a load or store reaches memory: the bytes it moves (spec/20_memory.md R44), whether its address must be a
multiple of that (R45, R46), whether it is one of the macros that touch whole aligned quadwords (R49), and whether
the three low address bits are cleared (R48, R110, R126). -/
structure AccessForm where
  size : Nat
  aligned : Bool
  wholeQuads : Bool
  lowBitsCleared : Bool
deriving DecidableEq, Repr

/-- A machine load or store of `n` bytes at a multiple of `n` (R45). -/
def AccessForm.natural (n : Nat) : AccessForm := ⟨n, true, false, false⟩

/-- A macro load or store of `n` bytes at any address (R48, R49). -/
def AccessForm.unaligned (n : Nat) : AccessForm := ⟨n, false, true, false⟩

/-- The byte accesses: one byte, or the whole quadword when the statement is a macro (R48, R49). -/
def AccessForm.byteAccess (asMacro : Bool) : AccessForm := ⟨1, false, asMacro, false⟩

/-- The word accesses: even addresses, and the whole quadword when the statement is a macro (R46, R49). -/
def AccessForm.wordAccess (asMacro : Bool) : AccessForm := ⟨2, true, asMacro, false⟩

/-- `ldq_u` and `stq_u`: the aligned quadword around any address (R48). -/
def AccessForm.quadAround : AccessForm := ⟨8, false, false, true⟩

/-- The address of the first byte moved. -/
def AccessForm.start (f : AccessForm) (ea : Word) : Word := if f.lowBitsCleared then quadOf ea else ea

/-- The bytes that must be `Mapped` (R47, R49). -/
def AccessForm.touched (f : AccessForm) (ea : Word) : List Word :=
  if f.wholeQuads then quadBytes ea f.size else bytesFrom (f.start ea) f.size

/-- The alignment condition of R45 and R46 fails. -/
def AccessForm.misaligned (f : AccessForm) (ea : Word) : Bool := f.aligned && ea.toNat % f.size != 0

/-- Every byte the access touches is `Mapped` for the kind (R47). -/
def State.admits (s : State) (kind : AccessKind) (f : AccessForm) (ea : Word) : Bool :=
  (f.touched ea).all (s.launch.mapped kind)

/-- A load or store of `f` at `ea` once its operands are read: alignment, then admission (R47, R328); either exception
leaves all but the statement's temporaries as they were (R321, R325; log 16). -/
def State.access (s : State) (i : Instr) (f : AccessForm) (kinds : List AccessKind) (ea : Word) (run : Outcome) :
    Outcome :=
  if f.misaligned ea then (s.clobberTemps i).raise (.dataAlignment ea)
  else if kinds.all fun kind => s.admits kind f ea then run
  else (s.clobberTemps i).raise (.accessViolation ea)

/-- The extension of a loaded value to the register (R44). -/
inductive Extension where
  | signed
  | unsigned
deriving DecidableEq, Repr

/-- The loaded value as the register receives it. -/
def Extension.apply (ext : Extension) (n : Nat) (v : Word) : Word :=
  match ext with
  | .signed => (v.setWidth (8 * n)).signExtend 64
  | .unsigned => v

/-- The value a load of form `f` at `ea` delivers. -/
def State.loaded (s : State) (f : AccessForm) (ext : Extension) (ea : Word) : Word :=
  ext.apply f.size (s.memRead (f.start ea) f.size)

/-- A load (spec/40_load_store.md R100). -/
def State.load (s : State) (i : Instr) (f : AccessForm) (ext : Extension) (d : Reg) (a : Address) : Outcome :=
  s.guarded i <| s.access i f [.read] (s.ea a) <|
    (s.setX d (s.loaded f ext (s.ea a))).finish i

/-- A load that sets the lock flag and the locked address (R57). -/
def State.loadLocked (s : State) (i : Instr) (f : AccessForm) (ext : Extension) (d : Reg) (a : Address) : Outcome :=
  s.guarded i <| s.access i f [.read] (s.ea a) <|
    ((s.setX d (s.loaded f ext (s.ea a))).setLock (s.ea a)).finish i

/-- The kinds of access a store needs: a macro store reads the quadwords it rewrites (R49). -/
def AccessForm.storeKinds (f : AccessForm) : List AccessKind := if f.wholeQuads then [.read, .write] else [.write]

/-- A store (R119); one that overlaps the program text is refused (R56). -/
def State.store (s : State) (i : Instr) (f : AccessForm) (r : Reg) (a : Address) : Outcome :=
  s.guarded i <| s.access i f f.storeKinds (s.ea a) <|
    if s.overlapsText (f.start (s.ea a)) f.size then .refused .storeToText
    else (s.memWrite (f.start (s.ea a)) (s.x r) f.size).finish i

/-- The lock flag is set and the address lies outside the locked block: a draw decides (R59). -/
def State.outsideLock (s : State) (ea : Word) : Bool := s.lockFlag && !s.inLockedBlock ea

/-- Whether a store-conditional at the address stores: `f` of R59. -/
def State.storesConditionally (s : State) (ea : Word) : Bool :=
  if s.outsideLock ea then Config.freeBit s.draws else s.lockFlag

/-- A store-conditional (R59, R123, R125): the store is done or not, the flag is returned in the source register and
then cleared. Alignment and admission are checked either way; the refusal of R56 only where the store is done. -/
def State.storeConditional (s : State) (i : Instr) (f : AccessForm) (r : Reg) (a : Address) : Outcome :=
  s.guarded i <| s.access i f f.storeKinds (s.ea a) <|
    let drawn := if s.outsideLock (s.ea a) then s.drew else s
    if s.storesConditionally (s.ea a) then
      if s.overlapsText (s.ea a) f.size then .refused .storeToText
      else (((drawn.memWrite (s.ea a) (s.x r) f.size).setX r 1#64).clearLock).finish i
    else ((drawn.setX r 0#64).clearLock).finish i

/-! Operate statements -/

/-- A value written to one register: `lda`, `ldah`, `ldil`, `clr`, ... -/
def State.put (s : State) (i : Instr) (d : Reg) (v : Word) : Outcome :=
  s.guarded i <| (s.setX d v).finish i

/-- A statement of two sources and a destination that raises nothing (R76). -/
def State.operate (s : State) (i : Instr) (a : Reg) (b : RegImm) (c : Reg) (f : Word → Word → Word) : Outcome :=
  s.put i c (f (s.x a) (s.rbv b))

/-- A statement of one source that raises nothing (R80, spec/41_arithmetic.md R142). -/
def State.operate1 (s : State) (i : Instr) (b : RegImm) (d : Reg) (f : Word → Word) : Outcome :=
  s.put i d (f (s.rbv b))

/-- A result computed on the exact integers: written wrapped, and then the overflow is raised
(spec/60_exceptions.md R322). -/
def State.putTrap (s : State) (i : Instr) (d : Reg) (wrap : Int → Word) (overflows : Int → Bool) (t : Int) : Outcome :=
  s.guarded i <|
    if overflows t then ((s.setX d (wrap t)).clobberTemps i).raise .integerOverflow
    else (s.setX d (wrap t)).finish i

/-- The absolute value macros: of the most negative value the destination and the temporary become free values and
the overflow is raised (R142, R143, R322). -/
def State.absolute (s : State) (i : Instr) (d : Reg) (wrap : Int → Word) (mostNegative v : Int) : Outcome :=
  s.guarded i <|
    if v = mostNegative then (s.clobber (d :: i.temporaries s.launch.bwx)).raise .integerOverflow
    else (s.setX d (wrap |v|)).finish i

/-- The division and remainder macros (R172 to R179): a zero divisor raises `DivideByZero` with the destination and
the temporaries free values (R323); a quotient that cannot be represented makes the result a free value (`none`). -/
def State.divide (s : State) (i : Instr) (d : Reg) (divisorZero : Bool) (result : Option Word) : Outcome :=
  s.guarded i <|
    if divisorZero then (s.clobber (d :: i.temporaries s.launch.bwx)).raise .divideByZero
    else match result with
      | some v => (s.setX d v).finish i
      | none => ((s.setX d s.drawn).drew).finish i

/-- A conditional move: the destination keeps its value where the test fails (spec/44_move.md R220). -/
def State.condMove (s : State) (i : Instr) (test : Word → Bool) (a : Reg) (b : RegImm) (c : Reg) : Outcome :=
  s.guarded i <|
    if test (s.x a) then (s.setX c (s.rbv b)).finish i else s.finish i

/-! Control -/

/-- What happens at the address of a branch target; a label out of range is refused (R77). -/
def State.toTarget (s : State) (t : Target) (go : Word → Outcome) : Outcome :=
  match s.target t with
  | some address => go address
  | none => .refused .labelOutOfRange

/-- `pc <- address` of a direct branch; one into the middle of a placed statement is refused
(spec/70_reset_and_hazards.md R360; log 29). -/
def State.branchTo (s : State) (address : Word) : Outcome :=
  if s.launch.insideStatement address then .refused .insideStatement else .next (s.setPc address)

/-- A conditional branch (spec/45_control.md R235). -/
def State.condBranch (s : State) (i : Instr) (test : Word → Bool) (r : Reg) (t : Target) : Outcome :=
  s.guarded i <| s.toTarget t fun address =>
    if test (s.x r) then s.branchTo address else s.finish i

/-- `br` and `bsr`: the return address, then the transfer (R245, R246). -/
def State.branch (s : State) (i : Instr) (d : Reg) (t : Target) : Outcome :=
  s.guarded i <| s.toTarget t fun address => (s.setX d (s.npc i)).branchTo address

/-- The one operation of the jumps (R236): the target is read before the return address is written. -/
def State.jump (s : State) (i : Instr) (d r : Reg) : Outcome :=
  s.guarded i <| .next ((s.setX d (s.npc i)).setPc (jumpTarget (s.x r)))

/-- `jmp` and `jsr` with a symbolic address: `$27` receives the address, `AT` is destroyed, and the return address is
that of the statement after the whole expansion (R247, R248; log 23). -/
def State.jumpSymbolic (s : State) (i : Instr) (d : Reg) (e : SymExpr) : Outcome :=
  s.guarded i <|
    .next ((((s.setX regT12 (Config.symbolAddr e)).clobberTemps i).setX d (s.npc i)).setPc
      (jumpTarget (Config.symbolAddr e)))

/-- The two operand forms of `jmp` and `jsr` (R247, R248). -/
def State.jumpTo (s : State) (i : Instr) (d : Reg) : JumpOperand → Outcome
  | .reg r _ => s.jump i d r
  | .symbolic e => s.jumpSymbolic i d e

end Sys2Proof.Machine
end

