-- ==== Sys2Proof/Machine/Arithmetic.lean ====
section
/-! DEFINITION. Arithmetic statements (spec/41_arithmetic.md). A longword statement reads bits 31..0 of its sources and
writes its 32-bit result sign-extended (R140, decisions D10, D11; log 27). The `v` statements compute the exact
integer and raise the overflow after the write (R322). -/

namespace Sys2Proof.Machine

/-- `Rv[31:0]` (R140). -/
def low32 (v : Word) : BitVec 32 := v.setWidth 32

/-- The canonical longword form (spec/00_scope.md R15). -/
def fromLow32 (v : BitVec 32) : Word := v.signExtend 64

/-- Clear (R141). -/
def execClr (d : Reg) (s : State) : Outcome :=
  s.put (.clr d) d 0#64

/-- Absolute Value Longword (R142). -/
def execAbsl (b : RegImm) (d : Reg) (s : State) : Outcome :=
  s.absolute (.absl b d) d longword (-2147483648) (s32 (s.rbv b))

/-- Absolute Value Quadword (R143). -/
def execAbsq (b : RegImm) (d : Reg) (s : State) : Outcome :=
  s.absolute (.absq b d) d quadword (-9223372036854775808) (s.rbv b).toInt

/-- Negate Longword (R144). -/
def execNegl (b : RegImm) (d : Reg) (s : State) : Outcome :=
  s.operate1 (.negl b d) b d fun y => fromLow32 (0#32 - low32 y)

/-- Negate Longword with overflow (R145). -/
def execNeglv (b : RegImm) (d : Reg) (s : State) : Outcome :=
  s.putTrap (.neglv b d) d longword overflows32 (-s32 (s.rbv b))

/-- Negate Quadword (R146). -/
def execNegq (b : RegImm) (d : Reg) (s : State) : Outcome :=
  s.operate1 (.negq b d) b d fun y => 0#64 - y

/-- Negate Quadword with overflow (R147). -/
def execNegqv (b : RegImm) (d : Reg) (s : State) : Outcome :=
  s.putTrap (.negqv b d) d quadword overflows64 (-(s.rbv b).toInt)

/-- Sign-Extension Byte (R148). -/
def execSextb (b : RegImm) (d : Reg) (s : State) : Outcome :=
  s.operate1 (.sextb b d) b d fun y => (y.setWidth 8).signExtend 64

/-- Sign-Extension Longword (R149). -/
def execSextl (b : RegImm) (d : Reg) (s : State) : Outcome :=
  s.operate1 (.sextl b d) b d fun y => fromLow32 (low32 y)

/-- Sign-Extension Word (R150). -/
def execSextw (b : RegImm) (d : Reg) (s : State) : Outcome :=
  s.operate1 (.sextw b d) b d fun y => (y.setWidth 16).signExtend 64

/-- Add Longword (R151). -/
def execAddl (a : Reg) (b : RegImm) (c : Reg) (s : State) : Outcome :=
  s.operate (.addl a b c) a b c fun x y => fromLow32 (low32 x + low32 y)

/-- Add Longword with overflow (R152). -/
def execAddlv (a : Reg) (b : RegImm) (c : Reg) (s : State) : Outcome :=
  s.putTrap (.addlv a b c) c longword overflows32 (s32 (s.x a) + s32 (s.rbv b))

/-- Add Quadword (R153). -/
def execAddq (a : Reg) (b : RegImm) (c : Reg) (s : State) : Outcome :=
  s.operate (.addq a b c) a b c fun x y => x + y

/-- Add Quadword with overflow (R154). -/
def execAddqv (a : Reg) (b : RegImm) (c : Reg) (s : State) : Outcome :=
  s.putTrap (.addqv a b c) c quadword overflows64 ((s.x a).toInt + (s.rbv b).toInt)

/-- Scaled Longword Add by 4 (R155). -/
def execS4addl (a : Reg) (b : RegImm) (c : Reg) (s : State) : Outcome :=
  s.operate (.s4addl a b c) a b c fun x y => fromLow32 (4#32 * low32 x + low32 y)

/-- Scaled Quadword Add by 4 (R156). -/
def execS4addq (a : Reg) (b : RegImm) (c : Reg) (s : State) : Outcome :=
  s.operate (.s4addq a b c) a b c fun x y => 4#64 * x + y

/-- Scaled Longword Add by 8 (R157). -/
def execS8addl (a : Reg) (b : RegImm) (c : Reg) (s : State) : Outcome :=
  s.operate (.s8addl a b c) a b c fun x y => fromLow32 (8#32 * low32 x + low32 y)

/-- Scaled Quadword Add by 8 (R158). -/
def execS8addq (a : Reg) (b : RegImm) (c : Reg) (s : State) : Outcome :=
  s.operate (.s8addq a b c) a b c fun x y => 8#64 * x + y

/-- Multiply Longword (R159). -/
def execMull (a : Reg) (b : RegImm) (c : Reg) (s : State) : Outcome :=
  s.operate (.mull a b c) a b c fun x y => fromLow32 (low32 x * low32 y)

/-- Multiply Longword with overflow (R160). -/
def execMullv (a : Reg) (b : RegImm) (c : Reg) (s : State) : Outcome :=
  s.putTrap (.mullv a b c) c longword overflows32 (s32 (s.x a) * s32 (s.rbv b))

/-- Multiply Quadword (R161). -/
def execMulq (a : Reg) (b : RegImm) (c : Reg) (s : State) : Outcome :=
  s.operate (.mulq a b c) a b c fun x y => x * y

/-- Multiply Quadword with overflow (R162). -/
def execMulqv (a : Reg) (b : RegImm) (c : Reg) (s : State) : Outcome :=
  s.putTrap (.mulqv a b c) c quadword overflows64 ((s.x a).toInt * (s.rbv b).toInt)

/-- Subtract Longword (R163). -/
def execSubl (a : Reg) (b : RegImm) (c : Reg) (s : State) : Outcome :=
  s.operate (.subl a b c) a b c fun x y => fromLow32 (low32 x - low32 y)

/-- Subtract Longword with overflow (R164). -/
def execSublv (a : Reg) (b : RegImm) (c : Reg) (s : State) : Outcome :=
  s.putTrap (.sublv a b c) c longword overflows32 (s32 (s.x a) - s32 (s.rbv b))

/-- Subtract Quadword (R165). -/
def execSubq (a : Reg) (b : RegImm) (c : Reg) (s : State) : Outcome :=
  s.operate (.subq a b c) a b c fun x y => x - y

/-- Subtract Quadword with overflow (R166). -/
def execSubqv (a : Reg) (b : RegImm) (c : Reg) (s : State) : Outcome :=
  s.putTrap (.subqv a b c) c quadword overflows64 ((s.x a).toInt - (s.rbv b).toInt)

/-- Scaled Longword Subtract by 4 (R167). -/
def execS4subl (a : Reg) (b : RegImm) (c : Reg) (s : State) : Outcome :=
  s.operate (.s4subl a b c) a b c fun x y => fromLow32 (4#32 * low32 x - low32 y)

/-- Scaled Quadword Subtract by 4 (R168). -/
def execS4subq (a : Reg) (b : RegImm) (c : Reg) (s : State) : Outcome :=
  s.operate (.s4subq a b c) a b c fun x y => 4#64 * x - y

/-- Scaled Longword Subtract by 8 (R169). -/
def execS8subl (a : Reg) (b : RegImm) (c : Reg) (s : State) : Outcome :=
  s.operate (.s8subl a b c) a b c fun x y => fromLow32 (8#32 * low32 x - low32 y)

/-- Scaled Quadword Subtract by 8 (R170). -/
def execS8subq (a : Reg) (b : RegImm) (c : Reg) (s : State) : Outcome :=
  s.operate (.s8subq a b c) a b c fun x y => 8#64 * x - y

/-- Unsigned Quadword Multiply High: bits 127..64 of the exact product (R171). -/
def execUmulh (a : Reg) (b : RegImm) (c : Reg) (s : State) : Outcome :=
  s.operate (.umulh a b c) a b c fun x y => BitVec.ofNat 64 (x.toNat * y.toNat / 2 ^ 64)

/-- The signed quotient and remainder of -2^31 by -1, and of -2^63 by -1, are not representable: the spec leaves the
result a draw (R172, R174, R176, R178; log 6). -/
def signedResult (mostNegative i j : Int) (result : Word) : Option Word :=
  if i = mostNegative ∧ j = -1 then none else some result

/-- Divide Longword, rounded toward zero (R172). -/
def execDivl (a : Reg) (b : RegImm) (c : Reg) (s : State) : Outcome :=
  s.divide (.divl a b c) c (s32 (s.rbv b) = 0)
    (signedResult (-2147483648) (s32 (s.x a)) (s32 (s.rbv b))
      (longword ((s32 (s.x a)).tdiv (s32 (s.rbv b)))))

/-- Divide Longword Unsigned (R173). -/
def execDivlu (a : Reg) (b : RegImm) (c : Reg) (s : State) : Outcome :=
  s.divide (.divlu a b c) c (u32 (s.rbv b) = 0) (some (longword (u32 (s.x a) / u32 (s.rbv b) : Nat)))

/-- Divide Quadword, rounded toward zero (R174). -/
def execDivq (a : Reg) (b : RegImm) (c : Reg) (s : State) : Outcome :=
  s.divide (.divq a b c) c (s.rbv b = 0#64)
    (signedResult (-9223372036854775808) (s.x a).toInt (s.rbv b).toInt
      (quadword ((s.x a).toInt.tdiv (s.rbv b).toInt)))

/-- Divide Quadword Unsigned (R175). -/
def execDivqu (a : Reg) (b : RegImm) (c : Reg) (s : State) : Outcome :=
  s.divide (.divqu a b c) c (s.rbv b = 0#64)
    (some (quadword ((s.x a).toNat / (s.rbv b).toNat : Nat)))

/-- Longword Remainder, by the rounded quotient (R176). -/
def execReml (a : Reg) (b : RegImm) (c : Reg) (s : State) : Outcome :=
  s.divide (.reml a b c) c (s32 (s.rbv b) = 0)
    (signedResult (-2147483648) (s32 (s.x a)) (s32 (s.rbv b))
      (longword (s32 (s.x a) - s32 (s.rbv b) * (s32 (s.x a)).tdiv (s32 (s.rbv b)))))

/-- Longword Remainder Unsigned (R177). -/
def execRemlu (a : Reg) (b : RegImm) (c : Reg) (s : State) : Outcome :=
  s.divide (.remlu a b c) c (u32 (s.rbv b) = 0)
    (some (longword (u32 (s.x a) - u32 (s.rbv b) * (u32 (s.x a) / u32 (s.rbv b)) : Nat)))

/-- Quadword Remainder, by the rounded quotient (R178). -/
def execRemq (a : Reg) (b : RegImm) (c : Reg) (s : State) : Outcome :=
  s.divide (.remq a b c) c (s.rbv b = 0#64)
    (signedResult (-9223372036854775808) (s.x a).toInt (s.rbv b).toInt
      (quadword ((s.x a).toInt - (s.rbv b).toInt * (s.x a).toInt.tdiv (s.rbv b).toInt)))

/-- Quadword Remainder Unsigned (R179). -/
def execRemqu (a : Reg) (b : RegImm) (c : Reg) (s : State) : Outcome :=
  s.divide (.remqu a b c) c (s.rbv b = 0#64)
    (some (quadword ((s.x a).toNat - (s.rbv b).toNat * ((s.x a).toNat / (s.rbv b).toNat) : Nat)))

end Sys2Proof.Machine
end

