-- ==== Sys2Proof/Machine/ByteManipulation.lean ====
section
/-! DEFINITION. Byte-manipulation statements (spec/46_byte_manipulation.md): only bits 2..0 of the second operand select a byte in
the extract, insert and mask statements, only bits 7..0 in `zap` and `zapnot` (R260). The high forms are the
architecture's formulas (decision D26; log 27). -/

namespace Sys2Proof.Machine

/-- Byte `k` of a quadword (R260). -/
def byteOf (v : Word) (k : Nat) : Byte := v.extractLsb' (8 * k) 8

/-- `n`: the byte count `Rbv[2:0]` (R260). -/
def byteCount (y : Word) : Nat := (y.setWidth 3).toNat

/-- The mask of the low `n` bytes (R260). -/
def sizeMask (n : Nat) : Word := BitVec.ofNat 64 (2 ^ (8 * n) - 1)

/-- The upper quadword of a value placed at byte `k` of a 16-byte field (R273, R280). -/
def upperQuad (v : Word) (k : Nat) : Word := ((v.setWidth 128) <<< (8 * k)).extractLsb' 64 64

/-- `extXl` (R262 to R265). -/
def extractLow (n : Nat) (x y : Word) : Word := (x >>> (8 * byteCount y)) &&& sizeMask n

/-- `extXh` (R266 to R268). -/
def extractHigh (n : Nat) (x y : Word) : Word := (x <<< ((64 - 8 * byteCount y) % 64)) &&& sizeMask n

/-- `insXl` (R269 to R272). -/
def insertLow (n : Nat) (x y : Word) : Word := (x &&& sizeMask n) <<< (8 * byteCount y)

/-- `insXh` (R273 to R275). -/
def insertHigh (n : Nat) (x y : Word) : Word := upperQuad (x &&& sizeMask n) (byteCount y)

/-- `mskXl` (R276 to R279). -/
def maskLow (n : Nat) (x y : Word) : Word := x &&& ~~~(sizeMask n <<< (8 * byteCount y))

/-- `mskXh` (R280 to R282). -/
def maskHigh (n : Nat) (x y : Word) : Word := x &&& ~~~upperQuad (sizeMask n) (byteCount y)

/-- The word whose bit `k`, for each `k` below the bound, is `p k`. -/
def packBits (p : Nat → Bool) : Nat → Word
  | 0 => 0#64
  | n + 1 => packBits p n ||| truth (p n) <<< n

/-- The word whose byte `k`, for each `k` below the bound, is `f k`. -/
def packBytes (f : Nat → Byte) : Nat → Word
  | 0 => 0#64
  | n + 1 => packBytes f n ||| (f n).zeroExtend 64 <<< (8 * n)

/-- `cmpbge`: bit `k` is set where byte `k` of the first operand is at least that of the second, unsigned (R261). -/
def compareBytes (x y : Word) : Word := packBits (fun k => decide ((byteOf y k).toNat ≤ (byteOf x k).toNat)) 8

/-- Byte `k` is zeroed where bit `k` of the mask is the given one (R283, R284). -/
def zeroBytes (zeroWhere : Bool) (x y : Word) : Word :=
  packBytes (fun k => if y.getLsbD k = zeroWhere then 0#8 else byteOf x k) 8

/-- Compare Byte (R261). -/
def execCmpbge (a : Reg) (b : RegImm) (c : Reg) (s : State) : Outcome :=
  s.operate (.cmpbge a b c) a b c compareBytes

/-- Extract Byte Low (R262). -/
def execExtbl (a : Reg) (b : RegImm) (c : Reg) (s : State) : Outcome :=
  s.operate (.extbl a b c) a b c (extractLow 1)

/-- Extract Word Low (R263). -/
def execExtwl (a : Reg) (b : RegImm) (c : Reg) (s : State) : Outcome :=
  s.operate (.extwl a b c) a b c (extractLow 2)

/-- Extract Longword Low (R264). -/
def execExtll (a : Reg) (b : RegImm) (c : Reg) (s : State) : Outcome :=
  s.operate (.extll a b c) a b c (extractLow 4)

/-- Extract Quadword Low (R265). -/
def execExtql (a : Reg) (b : RegImm) (c : Reg) (s : State) : Outcome :=
  s.operate (.extql a b c) a b c (extractLow 8)

/-- Extract Word High (R266). -/
def execExtwh (a : Reg) (b : RegImm) (c : Reg) (s : State) : Outcome :=
  s.operate (.extwh a b c) a b c (extractHigh 2)

/-- Extract Longword High (R267). -/
def execExtlh (a : Reg) (b : RegImm) (c : Reg) (s : State) : Outcome :=
  s.operate (.extlh a b c) a b c (extractHigh 4)

/-- Extract Quadword High (R268). -/
def execExtqh (a : Reg) (b : RegImm) (c : Reg) (s : State) : Outcome :=
  s.operate (.extqh a b c) a b c (extractHigh 8)

/-- Insert Byte Low (R269). -/
def execInsbl (a : Reg) (b : RegImm) (c : Reg) (s : State) : Outcome :=
  s.operate (.insbl a b c) a b c (insertLow 1)

/-- Insert Word Low (R270). -/
def execInswl (a : Reg) (b : RegImm) (c : Reg) (s : State) : Outcome :=
  s.operate (.inswl a b c) a b c (insertLow 2)

/-- Insert Longword Low (R271). -/
def execInsll (a : Reg) (b : RegImm) (c : Reg) (s : State) : Outcome :=
  s.operate (.insll a b c) a b c (insertLow 4)

/-- Insert Quadword Low (R272). -/
def execInsql (a : Reg) (b : RegImm) (c : Reg) (s : State) : Outcome :=
  s.operate (.insql a b c) a b c (insertLow 8)

/-- Insert Word High (R273). -/
def execInswh (a : Reg) (b : RegImm) (c : Reg) (s : State) : Outcome :=
  s.operate (.inswh a b c) a b c (insertHigh 2)

/-- Insert Longword High (R274). -/
def execInslh (a : Reg) (b : RegImm) (c : Reg) (s : State) : Outcome :=
  s.operate (.inslh a b c) a b c (insertHigh 4)

/-- Insert Quadword High (R275). -/
def execInsqh (a : Reg) (b : RegImm) (c : Reg) (s : State) : Outcome :=
  s.operate (.insqh a b c) a b c (insertHigh 8)

/-- Mask Byte Low (R276). -/
def execMskbl (a : Reg) (b : RegImm) (c : Reg) (s : State) : Outcome :=
  s.operate (.mskbl a b c) a b c (maskLow 1)

/-- Mask Word Low (R277). -/
def execMskwl (a : Reg) (b : RegImm) (c : Reg) (s : State) : Outcome :=
  s.operate (.mskwl a b c) a b c (maskLow 2)

/-- Mask Longword Low (R278). -/
def execMskll (a : Reg) (b : RegImm) (c : Reg) (s : State) : Outcome :=
  s.operate (.mskll a b c) a b c (maskLow 4)

/-- Mask Quadword Low (R279). -/
def execMskql (a : Reg) (b : RegImm) (c : Reg) (s : State) : Outcome :=
  s.operate (.mskql a b c) a b c (maskLow 8)

/-- Mask Word High (R280). -/
def execMskwh (a : Reg) (b : RegImm) (c : Reg) (s : State) : Outcome :=
  s.operate (.mskwh a b c) a b c (maskHigh 2)

/-- Mask Longword High (R281). -/
def execMsklh (a : Reg) (b : RegImm) (c : Reg) (s : State) : Outcome :=
  s.operate (.msklh a b c) a b c (maskHigh 4)

/-- Mask Quadword High (R282). -/
def execMskqh (a : Reg) (b : RegImm) (c : Reg) (s : State) : Outcome :=
  s.operate (.mskqh a b c) a b c (maskHigh 8)

/-- Zero Bytes (R283). -/
def execZap (a : Reg) (b : RegImm) (c : Reg) (s : State) : Outcome :=
  s.operate (.zap a b c) a b c (zeroBytes true)

/-- Zero Bytes NOT (R284). -/
def execZapnot (a : Reg) (b : RegImm) (c : Reg) (s : State) : Outcome :=
  s.operate (.zapnot a b c) a b c (zeroBytes false)

end Sys2Proof.Machine
end

