-- ==== Sys2Proof/Machine/Control.lean ====
section
/-! DEFINITION. Control statements (spec/45_control.md): no delay slot (R252), no exception of their own (R235, R236). The hints of
the jumps change nothing (R236). -/

namespace Sys2Proof.Machine

/-- Branch if Equal to Zero (R237). -/
def execBeq (r : Reg) (t : Target) (s : State) : Outcome :=
  s.condBranch (.beq r t) testEq r t

/-- Branch if Not Equal to Zero (R238). -/
def execBne (r : Reg) (t : Target) (s : State) : Outcome :=
  s.condBranch (.bne r t) testNe r t

/-- Branch if Less Than Zero (R239). -/
def execBlt (r : Reg) (t : Target) (s : State) : Outcome :=
  s.condBranch (.blt r t) testLt r t

/-- Branch if Less Than or Equal to Zero (R240). -/
def execBle (r : Reg) (t : Target) (s : State) : Outcome :=
  s.condBranch (.ble r t) testLe r t

/-- Branch if Greater Than Zero (R241). -/
def execBgt (r : Reg) (t : Target) (s : State) : Outcome :=
  s.condBranch (.bgt r t) testGt r t

/-- Branch if Greater Than or Equal to Zero (R242). -/
def execBge (r : Reg) (t : Target) (s : State) : Outcome :=
  s.condBranch (.bge r t) testGe r t

/-- Branch if Low Bit Clear (R243). -/
def execBlbc (r : Reg) (t : Target) (s : State) : Outcome :=
  s.condBranch (.blbc r t) testLbc r t

/-- Branch if Low Bit Set (R244). -/
def execBlbs (r : Reg) (t : Target) (s : State) : Outcome :=
  s.condBranch (.blbs r t) testLbs r t

/-- Branch (R245). -/
def execBr (d : Reg) (t : Target) (s : State) : Outcome :=
  s.branch (.br d t) d t

/-- Branch to Subroutine (R246). -/
def execBsr (d : Reg) (t : Target) (s : State) : Outcome :=
  s.branch (.bsr d t) d t

/-- Jump (R247). -/
def execJmp (d : Reg) (j : JumpOperand) (s : State) : Outcome :=
  s.jumpTo (.jmp d j) d j

/-- Jump to Subroutine (R248). -/
def execJsr (d : Reg) (j : JumpOperand) (s : State) : Outcome :=
  s.jumpTo (.jsr d j) d j

/-- Return from Subroutine (R249). -/
def execRet (d r : Reg) (hint : BitVec 14) (s : State) : Outcome :=
  s.jump (.ret d r hint) d r

/-- Jump to Subroutine Return (R250). -/
def execJsrCoroutine (d r : Reg) (hint : BitVec 14) (s : State) : Outcome :=
  s.jump (.jsrCoroutine d r hint) d r

end Sys2Proof.Machine
end

