-- ==== Sys2Proof/Machine/LoadStore.lean ====
section
/-! DEFINITION. Load and store statements (spec/40_load_store.md): one meaning per mnemonic. A symbolic address and the
temporaries are the business of the shared forms. -/

namespace Sys2Proof.Machine

/-- Load Address: the effective address; memory is not touched (R101). -/
def execLda (d : Reg) (a : Address) (s : State) : Outcome :=
  s.put (.lda d a) d (s.ea a)

/-- Load Byte: a macro whatever `BWX` is (R102). -/
def execLdb (d : Reg) (a : Address) (s : State) : Outcome :=
  s.load (.ldb d a) (.byteAccess true) .signed d a

/-- Load Byte Unsigned (R103). -/
def execLdbu (d : Reg) (a : Address) (s : State) : Outcome :=
  s.load (.ldbu d a) (.byteAccess !s.launch.bwx) .unsigned d a

/-- Load Word (R104). -/
def execLdw (d : Reg) (a : Address) (s : State) : Outcome :=
  s.load (.ldw d a) (.wordAccess true) .signed d a

/-- Load Word Unsigned (R105). -/
def execLdwu (d : Reg) (a : Address) (s : State) : Outcome :=
  s.load (.ldwu d a) (.wordAccess !s.launch.bwx) .unsigned d a

/-- Load Sign Extended Longword (R106). -/
def execLdl (d : Reg) (a : Address) (s : State) : Outcome :=
  s.load (.ldl d a) (.natural 4) .signed d a

/-- Load Sign Extended Longword Locked (R107). -/
def execLdlL (d : Reg) (a : Address) (s : State) : Outcome :=
  s.loadLocked (.ldlL d a) (.natural 4) .signed d a

/-- Load Quadword (R108). -/
def execLdq (d : Reg) (a : Address) (s : State) : Outcome :=
  s.load (.ldq d a) (.natural 8) .unsigned d a

/-- Load Quadword Locked (R109). -/
def execLdqL (d : Reg) (a : Address) (s : State) : Outcome :=
  s.loadLocked (.ldqL d a) (.natural 8) .unsigned d a

/-- The word of `ldq_u $31, 0($30)` is that of `unop` (spec/30_encoding.md R80), which has no effect and no
exception (R302): as the same word, it does what `unop` does (R91; log 13). -/
def isUnop (d : Reg) (a : Address) : Bool := decide (d = 31 ∧ a = .base 0 30)

/-- Load Quadword Unaligned: the aligned quadword around the address (R110). -/
def execLdqU (d : Reg) (a : Address) (s : State) : Outcome :=
  if isUnop d a then s.finish (.ldqU d a) else s.load (.ldqU d a) .quadAround .unsigned d a

/-- Unaligned Load Word (R111). -/
def execUldw (d : Reg) (a : Address) (s : State) : Outcome :=
  s.load (.uldw d a) (.unaligned 2) .signed d a

/-- Unaligned Load Word Unsigned (R112). -/
def execUldwu (d : Reg) (a : Address) (s : State) : Outcome :=
  s.load (.uldwu d a) (.unaligned 2) .unsigned d a

/-- Unaligned Load Longword; sign-extended by decision D10 (log 27) (R113). -/
def execUldl (d : Reg) (a : Address) (s : State) : Outcome :=
  s.load (.uldl d a) (.unaligned 4) .signed d a

/-- Unaligned Load Quadword (R114). -/
def execUldq (d : Reg) (a : Address) (s : State) : Outcome :=
  s.load (.uldq d a) (.unaligned 8) .unsigned d a

/-- Load Address High: the offset times 65536 (R115). -/
def execLdah (d : Reg) (offset : Int) (b : Reg) (s : State) : Outcome :=
  s.put (.ldah d offset b) d (s.x b + offsetValue offset * 65536#64)

/-- Load Global Pointer: base and offset must give the address of the statement itself (R116). -/
def execLdgp (d : Reg) (offset : Int) (b : Reg) (s : State) : Outcome :=
  s.guarded (.ldgp d offset b) <|
    if s.x b + offsetValue offset = s.pc then (s.setX d (Config.gpOf s.pc)).finish (.ldgp d offset b)
    else .refused .ldgpNotOwnAddress

/-- Load Immediate Longword: the low 32 bits, sign-extended (R117). -/
def execLdil (d : Reg) (v : Int) (s : State) : Outcome :=
  s.put (.ldil d v) d (longword v)

/-- Load Immediate Quadword (R118). -/
def execLdiq (d : Reg) (v : Int) (s : State) : Outcome :=
  s.put (.ldiq d v) d (quadword v)

/-- Store Byte (R120). -/
def execStb (r : Reg) (a : Address) (s : State) : Outcome :=
  s.store (.stb r a) (.byteAccess !s.launch.bwx) r a

/-- Store Word (R121). -/
def execStw (r : Reg) (a : Address) (s : State) : Outcome :=
  s.store (.stw r a) (.wordAccess !s.launch.bwx) r a

/-- Store Longword (R122). -/
def execStl (r : Reg) (a : Address) (s : State) : Outcome :=
  s.store (.stl r a) (.natural 4) r a

/-- Store Longword Conditional (R123). -/
def execStlC (r : Reg) (a : Address) (s : State) : Outcome :=
  s.storeConditional (.stlC r a) (.natural 4) r a

/-- Store Quadword (R124). -/
def execStq (r : Reg) (a : Address) (s : State) : Outcome :=
  s.store (.stq r a) (.natural 8) r a

/-- Store Quadword Conditional (R125). -/
def execStqC (r : Reg) (a : Address) (s : State) : Outcome :=
  s.storeConditional (.stqC r a) (.natural 8) r a

/-- Store Quadword Unaligned: the aligned quadword around the address (R126). -/
def execStqU (r : Reg) (a : Address) (s : State) : Outcome :=
  s.store (.stqU r a) .quadAround r a

/-- Unaligned Store Word (R127). -/
def execUstw (r : Reg) (a : Address) (s : State) : Outcome :=
  s.store (.ustw r a) (.unaligned 2) r a

/-- Unaligned Store Longword (R128). -/
def execUstl (r : Reg) (a : Address) (s : State) : Outcome :=
  s.store (.ustl r a) (.unaligned 4) r a

/-- Unaligned Store Quadword (R129). -/
def execUstq (r : Reg) (a : Address) (s : State) : Outcome :=
  s.store (.ustq r a) (.unaligned 8) r a

end Sys2Proof.Machine
end

