-- ==== Sys2Proof/Machine/LogicalShift.lean ====
section
/-! DEFINITION. Logical and shift statements (spec/42_logical_shift.md): all 64 bits, no exception (R190). The shift count is
always the low six bits of the second operand (R201). -/

namespace Sys2Proof.Machine

/-- The shift count `Rbv[5:0]` (R201). -/
def shiftCount (y : Word) : Nat := (y.setWidth 6).toNat

/-- Logical Complement (R191). -/
def execNot (b : RegImm) (d : Reg) (s : State) : Outcome :=
  s.operate1 (.not b d) b d fun y => ~~~y

/-- Logical Product (R192). -/
def execAnd (a : Reg) (b : RegImm) (c : Reg) (s : State) : Outcome :=
  s.operate (.and a b c) a b c fun x y => x &&& y

/-- Logical Sum (R193). -/
def execBis (a : Reg) (b : RegImm) (c : Reg) (s : State) : Outcome :=
  s.operate (.bis a b c) a b c fun x y => x ||| y

/-- Logical Sum: the synonym of `bis` (R194). -/
def execOr (a : Reg) (b : RegImm) (c : Reg) (s : State) : Outcome :=
  s.operate (.or a b c) a b c fun x y => x ||| y

/-- Logical Difference (R195). -/
def execXor (a : Reg) (b : RegImm) (c : Reg) (s : State) : Outcome :=
  s.operate (.xor a b c) a b c fun x y => x ^^^ y

/-- Logical Product with Complement (R196). -/
def execBic (a : Reg) (b : RegImm) (c : Reg) (s : State) : Outcome :=
  s.operate (.bic a b c) a b c fun x y => x &&& ~~~y

/-- Logical Product with Complement: the synonym of `bic` (R197). -/
def execAndnot (a : Reg) (b : RegImm) (c : Reg) (s : State) : Outcome :=
  s.operate (.andnot a b c) a b c fun x y => x &&& ~~~y

/-- Logical Sum with Complement (R198). -/
def execOrnot (a : Reg) (b : RegImm) (c : Reg) (s : State) : Outcome :=
  s.operate (.ornot a b c) a b c fun x y => x ||| ~~~y

/-- Logical Equivalence (R199). -/
def execEqv (a : Reg) (b : RegImm) (c : Reg) (s : State) : Outcome :=
  s.operate (.eqv a b c) a b c fun x y => x ^^^ ~~~y

/-- Logical Equivalence: the synonym of `eqv` (R200). -/
def execXornot (a : Reg) (b : RegImm) (c : Reg) (s : State) : Outcome :=
  s.operate (.xornot a b c) a b c fun x y => x ^^^ ~~~y

/-- Shift Left Logical (R201). -/
def execSll (a : Reg) (b : RegImm) (c : Reg) (s : State) : Outcome :=
  s.operate (.sll a b c) a b c fun x y => x <<< shiftCount y

/-- Shift Right Logical (R202). -/
def execSrl (a : Reg) (b : RegImm) (c : Reg) (s : State) : Outcome :=
  s.operate (.srl a b c) a b c fun x y => x >>> shiftCount y

/-- Shift Right Arithmetic (R203). -/
def execSra (a : Reg) (b : RegImm) (c : Reg) (s : State) : Outcome :=
  s.operate (.sra a b c) a b c fun x y => x.sshiftRight (shiftCount y)

end Sys2Proof.Machine
end

