-- ==== Sys2Proof/Machine/Move.lean ====
section
/-! DEFINITION. Move statements (spec/44_move.md): `mov`, and the conditional moves, which write only where the test holds (R220). -/

namespace Sys2Proof.Machine

/-- Move: a register or a whole 64-bit immediate (R221). -/
def execMov (b : RegImm) (d : Reg) (s : State) : Outcome :=
  s.operate1 (.mov b d) b d fun y => y

/-- Move if Equal to Zero (R222). -/
def execCmoveq (a : Reg) (b : RegImm) (c : Reg) (s : State) : Outcome :=
  s.condMove (.cmoveq a b c) testEq a b c

/-- Move if Not Equal to Zero (R223). -/
def execCmovne (a : Reg) (b : RegImm) (c : Reg) (s : State) : Outcome :=
  s.condMove (.cmovne a b c) testNe a b c

/-- Move if Less Than Zero (R224). -/
def execCmovlt (a : Reg) (b : RegImm) (c : Reg) (s : State) : Outcome :=
  s.condMove (.cmovlt a b c) testLt a b c

/-- Move if Less Than or Equal to Zero (R225). -/
def execCmovle (a : Reg) (b : RegImm) (c : Reg) (s : State) : Outcome :=
  s.condMove (.cmovle a b c) testLe a b c

/-- Move if Greater Than Zero (R226). -/
def execCmovgt (a : Reg) (b : RegImm) (c : Reg) (s : State) : Outcome :=
  s.condMove (.cmovgt a b c) testGt a b c

/-- Move if Greater Than or Equal to Zero (R227). -/
def execCmovge (a : Reg) (b : RegImm) (c : Reg) (s : State) : Outcome :=
  s.condMove (.cmovge a b c) testGe a b c

/-- Move if Low Bit Clear (R228). -/
def execCmovlbc (a : Reg) (b : RegImm) (c : Reg) (s : State) : Outcome :=
  s.condMove (.cmovlbc a b c) testLbc a b c

/-- Move if Low Bit Set (R229). -/
def execCmovlbs (a : Reg) (b : RegImm) (c : Reg) (s : State) : Outcome :=
  s.condMove (.cmovlbs a b c) testLbs a b c

end Sys2Proof.Machine
end

