-- ==== Sys2Proof/Machine/Relational.lean ====
section
/-! DEFINITION. Relational statements (spec/43_relational.md): the result is a full register holding 0 or 1 (R210). -/

namespace Sys2Proof.Machine

/-- Compare Signed Quadword Equal (R211). -/
def execCmpeq (a : Reg) (b : RegImm) (c : Reg) (s : State) : Outcome :=
  s.operate (.cmpeq a b c) a b c fun x y => truth (x == y)

/-- Compare Signed Quadword Less Than (R212). -/
def execCmplt (a : Reg) (b : RegImm) (c : Reg) (s : State) : Outcome :=
  s.operate (.cmplt a b c) a b c fun x y => truth (x.toInt < y.toInt)

/-- Compare Signed Quadword Less Than or Equal (R213). -/
def execCmple (a : Reg) (b : RegImm) (c : Reg) (s : State) : Outcome :=
  s.operate (.cmple a b c) a b c fun x y => truth (x.toInt ≤ y.toInt)

/-- Compare Unsigned Quadword Less Than (R214). -/
def execCmpult (a : Reg) (b : RegImm) (c : Reg) (s : State) : Outcome :=
  s.operate (.cmpult a b c) a b c fun x y => truth (x.toNat < y.toNat)

/-- Compare Unsigned Quadword Less Than or Equal (R215). -/
def execCmpule (a : Reg) (b : RegImm) (c : Reg) (s : State) : Outcome :=
  s.operate (.cmpule a b c) a b c fun x y => truth (x.toNat ≤ y.toNat)

end Sys2Proof.Machine
end

