-- ==== Sys2Proof/Machine/Special.lean ====
section
/-! DEFINITION. Special-purpose statements (spec/47_special.md). None touches data memory, but for what a handler of
`call_pal` does; the barriers order nothing in a machine of one processor that takes its traps precisely (R303 to
R306; log 28). -/

namespace Sys2Proof.Machine

/-- Call Privileged Architecture Library (R295): control goes to the handler where `PAL` gives one for the code, and
the run ends with the environment call where it gives none (R327, R352; log 8). -/
def execCallPal (palcode : Nat) (s : State) : Outcome :=
  s.guarded (.callPal palcode) <|
    if s.launch.palHandlers.contains palcode then .next (s.palReturn (Config.pal palcode s))
    else s.raise (.envCall palcode)

/-- Architecture Mask: the bits of the extensions that are present are cleared (R296). -/
def execAmask (b : RegImm) (d : Reg) (s : State) : Outcome :=
  s.operate1 (.amask b d) b d fun y => y &&& ~~~s.launch.amaskPresent

/-- Prefetch Data: a hint without effect, which never faults (R297). -/
def execFetch (offset : Int) (b : Reg) (s : State) : Outcome :=
  s.guarded (.fetch offset b) <| s.finish (.fetch offset b)

/-- Prefetch Data, Modify Intent: a hint without effect (R298). -/
def execFetchM (offset : Int) (b : Reg) (s : State) : Outcome :=
  s.guarded (.fetchM offset b) <| s.finish (.fetchM offset b)

/-- The process cycle counter is read: its contents are a free value at every read (spec/10_state.md R29; log 21). -/
def State.readCounter (s : State) : State := { s with cycleCounter := s.drawn, draws := s.draws + 1 }

/-- Read Process Cycle Counter (R299). -/
def execRpcc (d : Reg) (s : State) : Outcome :=
  s.guarded (.rpcc d) <| (s.readCounter.setX d s.readCounter.cycleCounter).finish (.rpcc d)

/-- Implementation Version (R300). -/
def execImplver (d : Reg) (s : State) : Outcome :=
  s.put (.implver d) d (s.launch.implver.zeroExtend 64)

/-- No Operation (R301). -/
def execNop (s : State) : Outcome :=
  s.finish .nop

/-- Universal No Operation: no memory access though its word is a load (R302). -/
def execUnop (s : State) : Outcome :=
  s.finish .unop

/-- Trap Barrier (R303). -/
def execTrapb (s : State) : Outcome :=
  s.finish .trapb

/-- Exception Barrier (R304). -/
def execExcb (s : State) : Outcome :=
  s.finish .excb

/-- Memory Barrier (R305). -/
def execMb (s : State) : Outcome :=
  s.finish .mb

/-- Write Memory Barrier (R306). -/
def execWmb (s : State) : Outcome :=
  s.finish .wmb

end Sys2Proof.Machine
end

