-- ==== Sys2Proof/Machine/Dispatch.lean ====
section
/-! DEFINITION. The meaning of a statement: one arm per constructor, in the order of spec/opcode_table.json. -/

namespace Sys2Proof.Machine

def exec (i : Instr) (s : State) : Host.Outcome State Fault Refusal :=
  match i with
  | .lda d a => Sys2Proof.Machine.execLda d a s
  | .ldb d a => Sys2Proof.Machine.execLdb d a s
  | .ldbu d a => Sys2Proof.Machine.execLdbu d a s
  | .ldw d a => Sys2Proof.Machine.execLdw d a s
  | .ldwu d a => Sys2Proof.Machine.execLdwu d a s
  | .ldl d a => Sys2Proof.Machine.execLdl d a s
  | .ldlL d a => Sys2Proof.Machine.execLdlL d a s
  | .ldq d a => Sys2Proof.Machine.execLdq d a s
  | .ldqL d a => Sys2Proof.Machine.execLdqL d a s
  | .ldqU d a => Sys2Proof.Machine.execLdqU d a s
  | .uldw d a => Sys2Proof.Machine.execUldw d a s
  | .uldwu d a => Sys2Proof.Machine.execUldwu d a s
  | .uldl d a => Sys2Proof.Machine.execUldl d a s
  | .uldq d a => Sys2Proof.Machine.execUldq d a s
  | .ldah d offset b => Sys2Proof.Machine.execLdah d offset b s
  | .ldgp d offset b => Sys2Proof.Machine.execLdgp d offset b s
  | .ldil d v => Sys2Proof.Machine.execLdil d v s
  | .ldiq d v => Sys2Proof.Machine.execLdiq d v s
  | .stb r a => Sys2Proof.Machine.execStb r a s
  | .stw r a => Sys2Proof.Machine.execStw r a s
  | .stl r a => Sys2Proof.Machine.execStl r a s
  | .stlC r a => Sys2Proof.Machine.execStlC r a s
  | .stq r a => Sys2Proof.Machine.execStq r a s
  | .stqC r a => Sys2Proof.Machine.execStqC r a s
  | .stqU r a => Sys2Proof.Machine.execStqU r a s
  | .ustw r a => Sys2Proof.Machine.execUstw r a s
  | .ustl r a => Sys2Proof.Machine.execUstl r a s
  | .ustq r a => Sys2Proof.Machine.execUstq r a s
  | .clr d => Sys2Proof.Machine.execClr d s
  | .absl b d => Sys2Proof.Machine.execAbsl b d s
  | .absq b d => Sys2Proof.Machine.execAbsq b d s
  | .negl b d => Sys2Proof.Machine.execNegl b d s
  | .neglv b d => Sys2Proof.Machine.execNeglv b d s
  | .negq b d => Sys2Proof.Machine.execNegq b d s
  | .negqv b d => Sys2Proof.Machine.execNegqv b d s
  | .sextb b d => Sys2Proof.Machine.execSextb b d s
  | .sextl b d => Sys2Proof.Machine.execSextl b d s
  | .sextw b d => Sys2Proof.Machine.execSextw b d s
  | .addl a b c => Sys2Proof.Machine.execAddl a b c s
  | .addlv a b c => Sys2Proof.Machine.execAddlv a b c s
  | .addq a b c => Sys2Proof.Machine.execAddq a b c s
  | .addqv a b c => Sys2Proof.Machine.execAddqv a b c s
  | .s4addl a b c => Sys2Proof.Machine.execS4addl a b c s
  | .s4addq a b c => Sys2Proof.Machine.execS4addq a b c s
  | .s8addl a b c => Sys2Proof.Machine.execS8addl a b c s
  | .s8addq a b c => Sys2Proof.Machine.execS8addq a b c s
  | .mull a b c => Sys2Proof.Machine.execMull a b c s
  | .mullv a b c => Sys2Proof.Machine.execMullv a b c s
  | .mulq a b c => Sys2Proof.Machine.execMulq a b c s
  | .mulqv a b c => Sys2Proof.Machine.execMulqv a b c s
  | .subl a b c => Sys2Proof.Machine.execSubl a b c s
  | .sublv a b c => Sys2Proof.Machine.execSublv a b c s
  | .subq a b c => Sys2Proof.Machine.execSubq a b c s
  | .subqv a b c => Sys2Proof.Machine.execSubqv a b c s
  | .s4subl a b c => Sys2Proof.Machine.execS4subl a b c s
  | .s4subq a b c => Sys2Proof.Machine.execS4subq a b c s
  | .s8subl a b c => Sys2Proof.Machine.execS8subl a b c s
  | .s8subq a b c => Sys2Proof.Machine.execS8subq a b c s
  | .umulh a b c => Sys2Proof.Machine.execUmulh a b c s
  | .divl a b c => Sys2Proof.Machine.execDivl a b c s
  | .divlu a b c => Sys2Proof.Machine.execDivlu a b c s
  | .divq a b c => Sys2Proof.Machine.execDivq a b c s
  | .divqu a b c => Sys2Proof.Machine.execDivqu a b c s
  | .reml a b c => Sys2Proof.Machine.execReml a b c s
  | .remlu a b c => Sys2Proof.Machine.execRemlu a b c s
  | .remq a b c => Sys2Proof.Machine.execRemq a b c s
  | .remqu a b c => Sys2Proof.Machine.execRemqu a b c s
  | .not b d => Sys2Proof.Machine.execNot b d s
  | .and a b c => Sys2Proof.Machine.execAnd a b c s
  | .bis a b c => Sys2Proof.Machine.execBis a b c s
  | .or a b c => Sys2Proof.Machine.execOr a b c s
  | .xor a b c => Sys2Proof.Machine.execXor a b c s
  | .bic a b c => Sys2Proof.Machine.execBic a b c s
  | .andnot a b c => Sys2Proof.Machine.execAndnot a b c s
  | .ornot a b c => Sys2Proof.Machine.execOrnot a b c s
  | .eqv a b c => Sys2Proof.Machine.execEqv a b c s
  | .xornot a b c => Sys2Proof.Machine.execXornot a b c s
  | .sll a b c => Sys2Proof.Machine.execSll a b c s
  | .srl a b c => Sys2Proof.Machine.execSrl a b c s
  | .sra a b c => Sys2Proof.Machine.execSra a b c s
  | .cmpeq a b c => Sys2Proof.Machine.execCmpeq a b c s
  | .cmplt a b c => Sys2Proof.Machine.execCmplt a b c s
  | .cmple a b c => Sys2Proof.Machine.execCmple a b c s
  | .cmpult a b c => Sys2Proof.Machine.execCmpult a b c s
  | .cmpule a b c => Sys2Proof.Machine.execCmpule a b c s
  | .mov b d => Sys2Proof.Machine.execMov b d s
  | .cmoveq a b c => Sys2Proof.Machine.execCmoveq a b c s
  | .cmovne a b c => Sys2Proof.Machine.execCmovne a b c s
  | .cmovlt a b c => Sys2Proof.Machine.execCmovlt a b c s
  | .cmovle a b c => Sys2Proof.Machine.execCmovle a b c s
  | .cmovgt a b c => Sys2Proof.Machine.execCmovgt a b c s
  | .cmovge a b c => Sys2Proof.Machine.execCmovge a b c s
  | .cmovlbc a b c => Sys2Proof.Machine.execCmovlbc a b c s
  | .cmovlbs a b c => Sys2Proof.Machine.execCmovlbs a b c s
  | .beq r t => Sys2Proof.Machine.execBeq r t s
  | .bne r t => Sys2Proof.Machine.execBne r t s
  | .blt r t => Sys2Proof.Machine.execBlt r t s
  | .ble r t => Sys2Proof.Machine.execBle r t s
  | .bgt r t => Sys2Proof.Machine.execBgt r t s
  | .bge r t => Sys2Proof.Machine.execBge r t s
  | .blbc r t => Sys2Proof.Machine.execBlbc r t s
  | .blbs r t => Sys2Proof.Machine.execBlbs r t s
  | .br d t => Sys2Proof.Machine.execBr d t s
  | .bsr d t => Sys2Proof.Machine.execBsr d t s
  | .jmp d j => Sys2Proof.Machine.execJmp d j s
  | .jsr d j => Sys2Proof.Machine.execJsr d j s
  | .ret d r hint => Sys2Proof.Machine.execRet d r hint s
  | .jsrCoroutine d r hint => Sys2Proof.Machine.execJsrCoroutine d r hint s
  | .cmpbge a b c => Sys2Proof.Machine.execCmpbge a b c s
  | .extbl a b c => Sys2Proof.Machine.execExtbl a b c s
  | .extwl a b c => Sys2Proof.Machine.execExtwl a b c s
  | .extll a b c => Sys2Proof.Machine.execExtll a b c s
  | .extql a b c => Sys2Proof.Machine.execExtql a b c s
  | .extwh a b c => Sys2Proof.Machine.execExtwh a b c s
  | .extlh a b c => Sys2Proof.Machine.execExtlh a b c s
  | .extqh a b c => Sys2Proof.Machine.execExtqh a b c s
  | .insbl a b c => Sys2Proof.Machine.execInsbl a b c s
  | .inswl a b c => Sys2Proof.Machine.execInswl a b c s
  | .insll a b c => Sys2Proof.Machine.execInsll a b c s
  | .insql a b c => Sys2Proof.Machine.execInsql a b c s
  | .inswh a b c => Sys2Proof.Machine.execInswh a b c s
  | .inslh a b c => Sys2Proof.Machine.execInslh a b c s
  | .insqh a b c => Sys2Proof.Machine.execInsqh a b c s
  | .mskbl a b c => Sys2Proof.Machine.execMskbl a b c s
  | .mskwl a b c => Sys2Proof.Machine.execMskwl a b c s
  | .mskll a b c => Sys2Proof.Machine.execMskll a b c s
  | .mskql a b c => Sys2Proof.Machine.execMskql a b c s
  | .mskwh a b c => Sys2Proof.Machine.execMskwh a b c s
  | .msklh a b c => Sys2Proof.Machine.execMsklh a b c s
  | .mskqh a b c => Sys2Proof.Machine.execMskqh a b c s
  | .zap a b c => Sys2Proof.Machine.execZap a b c s
  | .zapnot a b c => Sys2Proof.Machine.execZapnot a b c s
  | .callPal palcode => Sys2Proof.Machine.execCallPal palcode s
  | .amask b d => Sys2Proof.Machine.execAmask b d s
  | .fetch offset b => Sys2Proof.Machine.execFetch offset b s
  | .fetchM offset b => Sys2Proof.Machine.execFetchM offset b s
  | .rpcc d => Sys2Proof.Machine.execRpcc d s
  | .implver d => Sys2Proof.Machine.execImplver d s
  | .nop => Sys2Proof.Machine.execNop s
  | .unop => Sys2Proof.Machine.execUnop s
  | .trapb => Sys2Proof.Machine.execTrapb s
  | .excb => Sys2Proof.Machine.execExcb s
  | .mb => Sys2Proof.Machine.execMb s
  | .wmb => Sys2Proof.Machine.execWmb s

end Sys2Proof.Machine
end

