-- ==== Sys2Proof/Machine/Fetch.lean ====
section
/-! DEFINITION. Fetching the statement at the pc (spec/20_memory.md R43, R50, spec/60_exceptions.md R328,
spec/70_reset_and_hazards.md R352), and placing a word where it will be fetched. -/

namespace Sys2Proof.Machine

/-- How a step ends without a statement to run. -/
inductive FetchStop where
  | fault (f : Fault)
  | refused (r : Refusal)
deriving DecidableEq, Repr

/-- The four bytes at an address (R43). -/
def State.fetchBytes (s : State) (a : Word) : List Byte := (bytesFrom a 4).map s.byteAt

/-- The word at the pc (R43). -/
def State.fetchWord (s : State) : InstrWord := (s.memRead s.pc 4).setWidth 32

/-- The word at the pc as an instruction (R92); the word of one of the six byte and word instructions is none without
`BWX`, for the statement is then a macro (R79, kind B; log 14). -/
def State.decodeAtPc (s : State) : Except FetchStop Instr :=
  match decode (s.fetchBytes s.pc) with
  | .ok (i, _) => if i.isMacro s.launch.bwx then .error (.fault (.illegalInstruction s.fetchWord s)) else .ok i
  | .error _ => .error (.fault (.illegalInstruction s.fetchWord s))

/-- The statement to run, or how the step ends without one: the run ends before a fetch at `EXIT_PC` (R352); the four
bytes at the pc must be mapped for fetch (R50, R328; log 24); a placed statement is itself; the middle of one is refused
(R360; log 29); anything else is decoded (log 1). -/
def State.fetchStatement (s : State) : Except FetchStop Instr :=
  if s.pc = s.launch.exitPc then .error (.fault (.runEnded s))
  else if (bytesFrom s.pc 4).all (s.launch.mapped .fetch) then
    match statementAt s.launch.statements s.pc with
    | some i => .ok i
    | none => if s.launch.insideStatement s.pc then .error (.refused .insideStatement) else s.decodeAtPc
  else .error (.fault (.accessViolation s.pc s))

/-- The placed statements without those that cover an address. -/
def Launch.withoutStatement (l : Launch) (pc : Word) : List (Word × Instr) :=
  l.statements.filter fun placed => !(l.wordsOf placed).contains pc

/-- The regions with the four bytes at an address mapped for fetch, where they are not yet. -/
def withFetchRegion (l : Launch) (pc : Word) : List Region :=
  if (bytesFrom pc 4).all (l.mapped .fetch) then l.regions else ⟨pc, 4, false, false, true⟩ :: l.regions

/-- An `EXIT_PC` other than an address. -/
def exitAwayFrom (exitPc pc : Word) : Word := if exitPc = pc then pc + 4#64 else exitPc

/-- The bytes stored one after the other from an address on. -/
def State.storeBytes : State → Word → List Byte → State
  | s, _, [] => s
  | s, a, v :: rest => (s.setByte a v).storeBytes (a + 1) rest

/-- The state whose next fetch gets a word: its bytes at the pc, the place fetchable and no end of the run there. -/
def State.placeWord (s : State) (w : InstrWord) : State :=
  { s.storeBytes s.pc (bytesOfWord w) with
    launch := { s.launch with
      exitPc := exitAwayFrom s.launch.exitPc s.pc
      regions := withFetchRegion s.launch s.pc
      statements := s.launch.withoutStatement s.pc } }

end Sys2Proof.Machine
end

