-- ==== Sys2Proof/Machine/Step.lean ====
section
/-! DEFINITION. One step of the machine: the statement at the pc, and then what the environment may do before the next
one (spec/20_memory.md R58). -/

namespace Sys2Proof.Machine

/-- One statement, and the environment after it. An exception, an environment call and the normal end are faults; a
refusal is no behaviour of the hardware (spec/60_exceptions.md R324). -/
def step (s : State) : Host.Outcome State Fault Refusal :=
  match s.fetchStatement with
  | .error (.fault f) => .fault f
  | .error (.refused r) => .refused r
  | .ok i =>
    match exec i s with
    | .next t => .next t.environment
    | .fault f => .fault f
    | .refused r => .refused r

/-- The state whose next step fetches and runs the instruction of the word (log 1). -/
def State.withFetchWord (s : State) (nbits w : Nat) : State := s.placeWord (tableWord nbits w)

end Sys2Proof.Machine
end

