-- ==== Sys2Proof/Safety.lean ====
section
/-! DEFINITION. What claims about the machine are said in: the invariant of a run, and what a statement leaves as it
was (the frame). -/

namespace Sys2Proof.Machine

/-- The pc is a multiple of 4 (spec/10_state.md R24). -/
def State.PcAligned (s : State) : Prop := s.pc &&& 3#64 = 0#64

/-- What every step keeps: the memory's canonical form, and the alignment of the pc (R24). -/
structure State.Inv (s : State) : Prop where
  memory : s.mem.wf = true
  pc : s.PcAligned

/-- Every byte of memory is as before. -/
def SameMemory (s t : State) : Prop := ∀ a, t.byteAt a = s.byteAt a

/-- Every byte of memory outside the `n` bytes at `a` is as before. -/
def SameMemoryOutside (a : Word) (n : Nat) (s t : State) : Prop :=
  ∀ b : Word, n ≤ (b - a).toNat → t.byteAt b = s.byteAt b

/-- The `n` bytes at `a` hold the low `n` bytes of `v`, least significant first (spec/20_memory.md R42). -/
def HoldsBytes (t : State) (a : Word) (v : Word) (n : Nat) : Prop :=
  ∀ k, k < n → t.byteAt (a + BitVec.ofNat 64 k) = v.extractLsb' (8 * k) 8

/-- Every register outside the list is as before. -/
def SameRegsExcept (written : List Reg) (s t : State) : Prop := ∀ r, r ∉ written → t.x r = s.x r

/-- The lock flag and the locked address are as before. -/
def SameLock (s t : State) : Prop := t.lockFlag = s.lockFlag ∧ t.lockAddr = s.lockAddr

/-- The cycle counter and the launch configuration are as before. -/
def SameCounter (s t : State) : Prop := t.cycleCounter = s.cycleCounter ∧ t.launch = s.launch

/-- Register `d` holds `v`; register 31 holds zero whatever is written to it (spec/10_state.md R21). -/
def RegHolds (t : State) (d : Reg) (v : Word) : Prop := t.x d = if d = 31#5 then 0#64 else v

/-- The statement wrote `v` to `d` and destroyed its temporaries (spec/30_encoding.md R81), and nothing else. -/
structure WroteReg (i : Instr) (d : Reg) (v : Word) (s t : State) : Prop where
  value : RegHolds t d v
  others : SameRegsExcept (d :: i.temporaries s.launch.bwx) s t
  memory : SameMemory s t
  lock : SameLock s t
  counter : SameCounter s t

/-- The statement destroyed its temporaries and did nothing else to registers, memory and lock. -/
structure WroteNothing (i : Instr) (s t : State) : Prop where
  others : SameRegsExcept (i.temporaries s.launch.bwx) s t
  memory : SameMemory s t
  lock : SameLock s t
  counter : SameCounter s t

/-- The statement stored the low `n` bytes of `v` at `a`, destroyed its temporaries, and did nothing else. -/
structure Stored (i : Instr) (a : Word) (v : Word) (n : Nat) (s t : State) : Prop where
  bytes : HoldsBytes t a v n
  outside : SameMemoryOutside a n s t
  others : SameRegsExcept (i.temporaries s.launch.bwx) s t
  lock : SameLock s t
  counter : SameCounter s t

/-! The shapes of a claim about one mnemonic -/

/-- Every byte address of the list is mapped for the kind of access (spec/20_memory.md R47). -/
def State.MapsAll (s : State) (kind : AccessKind) (bytes : List Word) : Prop :=
  ∀ b ∈ bytes, s.launch.mapped kind b = true

/-- None of the byte addresses is program text (R56). -/
def State.OffText (s : State) (bytes : List Word) : Prop := ∀ b ∈ bytes, s.launch.isText b = false

/-- The statement completes: it writes `v` to `d`, destroys its temporaries, and goes on to the next statement. -/
def Writes (i : Instr) (s : State) (d : Reg) (v : Word) : Prop :=
  ∃ t, exec i s = .next t ∧ t.pc = s.npc i ∧ WroteReg i d v s t

/-- A well-formed statement of two sources always completes with this result. -/
def WritesThree (mk : Reg → RegImm → Reg → Instr) (f : Word → Word → Word) : Prop :=
  ∀ (a : Reg) (b : RegImm) (c : Reg) (s : State), (mk a b c).WellFormed s.launch.bwx →
    Writes (mk a b c) s c (f (s.x a) (s.rbv b))

/-- A well-formed statement of one source always completes with this result. -/
def WritesTwo (mk : RegImm → Reg → Instr) (f : Word → Word) : Prop :=
  ∀ (b : RegImm) (d : Reg) (s : State), (mk b d).WellFormed s.launch.bwx → Writes (mk b d) s d (f (s.rbv b))

/-- A well-formed load whose address is good completes with this value. -/
def Loads (mk : Reg → Address → Instr) (good : State → Word → Prop) (value : State → Word → Word) : Prop :=
  ∀ (d : Reg) (a : Address) (s : State), (mk d a).WellFormed s.launch.bwx → good s (s.ea a) →
    Writes (mk d a) s d (value s (s.ea a))

/-- A well-formed store whose address is good and whose bytes are no program text completes: it stores the low `n`
bytes of the source register from `start ea` on and does nothing else. -/
def Stores (mk : Reg → Address → Instr) (good : State → Word → Prop) (start : Word → Word) (n : Nat) : Prop :=
  ∀ (r : Reg) (a : Address) (s : State), (mk r a).WellFormed s.launch.bwx → s.mem.wf = true → good s (s.ea a) →
    s.OffText (bytesFrom (start (s.ea a)) n) →
    ∃ t, exec (mk r a) s = .next t ∧ t.pc = s.npc (mk r a) ∧ Stored (mk r a) (start (s.ea a)) (s.x r) n s t

/-- A well-formed store whose address is good is refused where one of its bytes is program text (R56). -/
def RefusesText (mk : Reg → Address → Instr) (good : State → Word → Prop) (start : Word → Word) (n : Nat) : Prop :=
  ∀ (r : Reg) (a : Address) (s : State), (mk r a).WellFormed s.launch.bwx → good s (s.ea a) →
    ¬ s.OffText (bytesFrom (start (s.ea a)) n) → exec (mk r a) s = .refused .storeToText

/-- A well-formed load or store whose address is bad raises the alignment exception with the address, and leaves all
but its temporaries as it was, the pc included (spec/60_exceptions.md R321, R324). -/
def Misaligns (mk : Reg → Address → Instr) (bad : Word → Prop) : Prop :=
  ∀ (r : Reg) (a : Address) (s : State), (mk r a).WellFormed s.launch.bwx → bad (s.ea a) →
    ∃ u, exec (mk r a) s = .fault (.dataAlignment (s.ea a) u) ∧ u.pc = s.pc ∧ WroteNothing (mk r a) s u

/-- A well-formed, aligned load or store of which a byte it touches is not mapped raises the access violation with the
effective address, and leaves all but its temporaries as it was (R325). -/
def Violates (mk : Reg → Address → Instr) (aligned : Word → Prop) (kinds : List AccessKind)
    (touched : State → Word → List Word) : Prop :=
  ∀ (r : Reg) (a : Address) (s : State), (mk r a).WellFormed s.launch.bwx → aligned (s.ea a) →
    (∃ kind ∈ kinds, ¬ s.MapsAll kind (touched s (s.ea a))) →
    ∃ u, exec (mk r a) s = .fault (.accessViolation (s.ea a) u) ∧ u.pc = s.pc ∧ WroteNothing (mk r a) s u

/-- A statement that computes the exact integer `exact`: where it fits between `low` and `high` the statement
completes with it; where it does not, the wrapped result is written and then the overflow is raised (R322). -/
def WritesOrOverflows (i : Instr) (s : State) (d : Reg) (wrap : Int → Word) (low high exact : Int) : Prop :=
  i.WellFormed s.launch.bwx →
    (low ≤ exact → exact ≤ high → Writes i s d (wrap exact)) ∧
    (exact < low ∨ high < exact →
      ∃ u, exec i s = .fault (.integerOverflow u) ∧ u.pc = s.pc ∧ WroteReg i d (wrap exact) s u)

/-- A conditional branch goes to the address of its target where the test holds and the address is not the middle of a
placed statement (R360), and to the next statement where it does not; it writes nothing else
(spec/45_control.md R235). -/
def Branches (mk : Reg → Target → Instr) (test : Word → Prop) : Prop :=
  ∀ (r : Reg) (t : Target) (s : State) (address : Word), s.target t = some address →
    (test (s.x r) → s.launch.insideStatement address = false → ∃ u, exec (mk r t) s = .next u ∧ u.pc = address ∧ WroteNothing (mk r t) s u) ∧
    (¬ test (s.x r) → ∃ u, exec (mk r t) s = .next u ∧ u.pc = s.pc + 4#64 ∧ WroteNothing (mk r t) s u)

/-- The statement does nothing but advance the pc by one machine instruction. -/
def NoEffect (i : Instr) : Prop := ∀ s : State, exec i s = .next (s.setPc (s.pc + 4#64))

/-- Byte `k` of a quadword (spec/00_scope.md R9). -/
def nthByte (v : Word) (k : Nat) : Byte := v.extractLsb' (8 * k) 8

/-- A well-formed statement of two sources completes with the quadword whose eight bytes are these. -/
def WritesBytes (mk : Reg → RegImm → Reg → Instr) (f : Word → Word → Nat → Byte) : Prop :=
  ∀ (a : Reg) (b : RegImm) (c : Reg) (s : State), (mk a b c).WellFormed s.launch.bwx →
    ∃ v, Writes (mk a b c) s c v ∧ ∀ k, k < 8 → nthByte v k = f (s.x a) (s.rbv b) k

/-- A division and a remainder statement compute a quotient and a remainder of the same division, the remainder
smaller than the divisor and zero or of the dividend's sign (spec/41_arithmetic.md R182); outside the case of
`least` by -1, which the spec leaves open. -/
def Divides (mkDiv mkRem : Reg → RegImm → Reg → Instr) (val : Word → Int) (wrap : Int → Word) (least : Int) : Prop :=
  ∀ (a : Reg) (b : RegImm) (c : Reg) (s : State), val (s.rbv b) ≠ 0 →
    ¬ (val (s.x a) = least ∧ val (s.rbv b) = -1) →
    ∃ q r : Int, val (s.x a) = val (s.rbv b) * q + r ∧ |r| < |val (s.rbv b)| ∧ (r = 0 ∨ r.sign = (val (s.x a)).sign) ∧
      ((mkDiv a b c).WellFormed s.launch.bwx → Writes (mkDiv a b c) s c (wrap q)) ∧
      ((mkRem a b c).WellFormed s.launch.bwx → Writes (mkRem a b c) s c (wrap r))

/-- A division or remainder statement with divisor zero raises `DivideByZero`; the destination and the temporaries are
left open, everything else is as it was (R323, R324). -/
def RaisesOnZero (mk : Reg → RegImm → Reg → Instr) (val : Word → Int) : Prop :=
  ∀ (a : Reg) (b : RegImm) (c : Reg) (s : State), (mk a b c).WellFormed s.launch.bwx → val (s.rbv b) = 0 →
    ∃ u, exec (mk a b c) s = .fault (.divideByZero u) ∧ u.pc = s.pc ∧
      SameRegsExcept (c :: (mk a b c).temporaries s.launch.bwx) s u ∧ SameMemory s u ∧ SameLock s u ∧ SameCounter s u

/-- What a store-conditional that stores (`true`) or does not (`false`) leaves (spec/20_memory.md R59). -/
structure StoredConditionally (i : Instr) (stores : Bool) (r : Reg) (ea : Word) (n : Nat) (s t : State) : Prop where
  pc : t.pc = s.npc i
  bytes : stores = true → HoldsBytes t ea (s.x r) n ∧ SameMemoryOutside ea n s t
  noBytes : stores = false → SameMemory s t
  returned : RegHolds t r (if stores then 1#64 else 0#64)
  flag : t.lockFlag = false
  address : t.lockAddr = s.lockAddr
  others : SameRegsExcept (r :: i.temporaries s.launch.bwx) s t
  counter : SameCounter s t

end Sys2Proof.Machine

namespace Sys2Proof

/-! Classes of statements (spec/60_exceptions.md R320) -/

/-- The ten stores (R119). -/
def Instr.stores : Instr → Bool
  | .stb _ _ | .stw _ _ | .stl _ _ | .stlC _ _ | .stq _ _ | .stqC _ _ | .stqU _ _ | .ustw _ _ | .ustl _ _
  | .ustq _ _ => true
  | _ => false

/-- The bytes a store stores, where it stores: none for any other statement (R119 to R129). -/
def Instr.storedBytes (s : Machine.State) : Instr → List Word
  | .stb _ a => Machine.bytesFrom (s.ea a) 1
  | .stw _ a | .ustw _ a => Machine.bytesFrom (s.ea a) 2
  | .stl _ a | .stlC _ a | .ustl _ a => Machine.bytesFrom (s.ea a) 4
  | .stq _ a | .stqC _ a | .ustq _ a => Machine.bytesFrom (s.ea a) 8
  | .stqU _ a => Machine.bytesFrom (Machine.quadOf (s.ea a)) 8
  | _ => []

/-- The twenty-three statements that access memory (R40, R100, R119). -/
def Instr.accessesMemory : Instr → Bool
  | .ldb _ _ | .ldbu _ _ | .ldw _ _ | .ldwu _ _ | .ldl _ _ | .ldlL _ _ | .ldq _ _ | .ldqL _ _ | .ldqU _ _
  | .uldw _ _ | .uldwu _ _ | .uldl _ _ | .uldq _ _ => true
  | i => i.stores

/-- The eleven statements that raise `DataAlignment` (R321). -/
def Instr.checksAlignment : Instr → Bool
  | .ldw _ _ | .ldwu _ _ | .stw _ _ | .ldl _ _ | .ldlL _ _ | .stl _ _ | .stlC _ _ | .ldq _ _ | .ldqL _ _ | .stq _ _
  | .stqC _ _ => true
  | _ => false

/-- The ten statements that raise `IntegerOverflow` (R322). -/
def Instr.mayOverflow : Instr → Bool
  | .absl _ _ | .absq _ _ | .neglv _ _ | .negqv _ _ | .addlv _ _ _ | .addqv _ _ _ | .sublv _ _ _ | .subqv _ _ _
  | .mullv _ _ _ | .mulqv _ _ _ => true
  | _ => false

/-- The eight statements that raise `DivideByZero` (R323). -/
def Instr.divides : Instr → Bool
  | .divl _ _ _ | .divlu _ _ _ | .divq _ _ _ | .divqu _ _ _ | .reml _ _ _ | .remlu _ _ _ | .remq _ _ _
  | .remqu _ _ _ => true
  | _ => false

/-- The fourteen control statements (spec/45_control.md). -/
def Instr.transfersControl : Instr → Bool
  | .beq _ _ | .bne _ _ | .blt _ _ | .ble _ _ | .bgt _ _ | .bge _ _ | .blbc _ _ | .blbs _ _ | .br _ _ | .bsr _ _
  | .jmp _ _ | .jsr _ _ | .ret _ _ _ | .jsrCoroutine _ _ _ => true
  | _ => false

/-- The ten branches to a target (R235). -/
def Instr.target? : Instr → Option Target
  | .beq _ t | .bne _ t | .blt _ t | .ble _ t | .bgt _ t | .bge _ t | .blbc _ t | .blbs _ t | .br _ t | .bsr _ t => some t
  | _ => none

/-- The two load-locked statements (R57). -/
def Instr.loadsLocked : Instr → Bool
  | .ldlL _ _ | .ldqL _ _ => true
  | _ => false

end Sys2Proof

namespace Sys2Proof.Machine

/-- The state a run ends in (R324). -/
def Fault.final : Fault → State
  | .dataAlignment _ u => u
  | .integerOverflow u => u
  | .divideByZero u => u
  | .accessViolation _ u => u
  | .illegalInstruction _ u => u
  | .envCall _ u => u
  | .runEnded u => u

end Sys2Proof.Machine
end

