-- ==== Sys2Proof/Certificates/Slice0/Obligations.lean ====
section
/-! DEFINITION. The statements about the model. The shapes they are said in (`Writes`, `Loads`, `Stores`, the frames)
are in Sys2Proof/Safety.lean. -/

open Sys2Proof Sys2Proof.Machine

/-! The machine as a whole -/

/-- The values of the state after reset that the model chose (logs 2 to 5; the spec leaves them open in R35). -/
def Obligations.ResetStateIsTheLaunchState : Prop :=
  State.reset.pc = 0x1000#64 ∧ State.reset.x 26 = 0x0F00#64 ∧ State.reset.x 27 = State.reset.pc ∧
  State.reset.x 30 = 0x8000#64 ∧ State.reset.x 31 = 0#64 ∧
  (∀ r : Reg, r ∉ [26, 27, 30, 31] → State.reset.x r = 0x2000#64) ∧
  State.reset.lockFlag = false ∧ State.reset.lockAddr = 0#64 ∧ State.reset.cycleCounter = 0#64 ∧
  (∀ a, State.reset.byteAt a = 0#8) ∧
  State.reset.launch = ⟨0x0F00#64, true, 1#1, 1#64, [⟨0#64, 2 ^ 64, true, true, true⟩], [], [], []⟩

/-- The reset state has the memory's canonical form and an aligned pc. -/
def Obligations.ResetHasTheInvariant : Prop := State.reset.Inv

/-- The memory's canonical form and the alignment of the pc are kept by every step from any state that has them. -/
def Obligations.StepKeepsTheInvariant : Prop := ∀ s t : State, s.Inv → step s = .next t → t.Inv

/-- R50: no step of an aligned machine produces a misaligned pc, and a fetch from an address of which a byte is not
mapped for fetch raises `AccessViolation(pc)`. -/
def Obligations.FetchIsAlignedAndMapped : Prop :=
  (∀ s t : State, s.PcAligned → step s = .next t → t.PcAligned) ∧
  (∀ s : State, s.pc ≠ s.launch.exitPc → ¬ s.MapsAll .fetch (bytesFrom s.pc 4) →
    step s = .fault (.accessViolation s.pc s))

/-- The launch configuration (`EXIT_PC`, `BWX`, `IMPLVER`, `AMASK_PRESENT`, `Mapped`, the program text) never changes,
and a run ends normally before a fetch at `EXIT_PC`; that the end is a fault of its own is the model's (log 22). -/
def Obligations.LaunchIsConstantAndRunEndsAtExit : Prop :=
  (∀ s t : State, step s = .next t → t.launch = s.launch) ∧
  (∀ s : State, s.pc = s.launch.exitPc → step s = .fault (.runEnded s))

/-- A step at a pc that no placed statement covers runs the instruction that the four bytes there decode to, and then
the environment may clear the lock flag; a step at a pc where one is placed runs that one (placed statements and the
draw that stands for the environment are the model's, logs 1 and 20). -/
def Obligations.StepRunsTheStatementAtThePc : Prop :=
  ∀ (s : State) (i : Instr), s.pc ≠ s.launch.exitPc → s.MapsAll .fetch (bytesFrom s.pc 4) →
    ((s.launch.statementCovers s.pc = false ∧ i.isMacro s.launch.bwx = false ∧
        ∃ rest, decode (s.fetchBytes s.pc) = .ok (i, rest)) ∨
      statementAt s.launch.statements s.pc = some i) →
    step s = match exec i s with
      | .next t => .next { t with lockFlag := t.lockFlag && Config.environmentKeepsLock t.draws, draws := t.draws + 1 }
      | .fault f => .fault f
      | .refused r => .refused r

/-- A fetched word that decodes to nothing, and the word of a byte or word instruction where `BWX` does not hold,
end the run with `IllegalInstruction` of that word and leave the state as it was. That the six words are illegal
without `BWX` is the model's reading (log 14). -/
def Obligations.UndecodableWordIsIllegal : Prop :=
  ∀ s : State, s.pc ≠ s.launch.exitPc → s.MapsAll .fetch (bytesFrom s.pc 4) →
    s.launch.statementCovers s.pc = false →
    ((∀ i, decodeWord ((s.memRead s.pc 4).setWidth 32) ≠ .ok i) ∨
      (s.launch.bwx = false ∧ ∃ (r : Reg) (o : Int) (b : Reg) (v : RegImm), ∃ i ∈ ([.ldbu r (.base o b), .ldwu r (.base o b),
        .stb r (.base o b), .stw r (.base o b), .sextb v r, .sextw v r] : List Instr),
        decodeWord ((s.memRead s.pc 4).setWidth 32) = .ok i)) →
    step s = .fault (.illegalInstruction ((s.memRead s.pc 4).setWidth 32) s)

/-- Nothing but a store changes a byte of memory, leaving aside what a handler of `call_pal` does
(CallPalRunsTheHandlerOrEndsTheRun). -/
def Obligations.OnlyStoresChangeMemory : Prop :=
  ∀ (i : Instr) (s t : State), i.stores = false → (∀ n, i ≠ .callPal n) → exec i s = .next t → SameMemory s t

/-- A statement that is no control statement and no `call_pal` goes on to the statement after it: one word on, or
`MACRO_LEN` words. -/
def Obligations.OtherStatementsAdvanceThePc : Prop :=
  ∀ (i : Instr) (s t : State), i.transfersControl = false → (∀ n, i ≠ .callPal n) → exec i s = .next t →
    t.pc = s.pc + 4#64 * BitVec.ofNat 64 (if i.isMacro s.launch.bwx then Config.macroLen i else 1)

/-- A register changes only where the statement names it or destroys it as a temporary; a symbolic jump may also
change `$27`, and the handler of a `call_pal` any register. The process cycle counter as the model keeps it changes by
`rpcc` alone: that is the model's choice (log 21), for R29 leaves the contents open. -/
def Obligations.OnlyNamedRegistersChange : Prop :=
  ∀ (i : Instr) (s t : State), exec i s = .next t →
    ((∀ n, i ≠ .callPal n) → ∀ r : Reg, r ∉ i.registers → r ∉ i.temporaries s.launch.bwx →
      (r = 27 → ∀ d e, i ≠ .jmp d (.symbolic e) ∧ i ≠ .jsr d (.symbolic e)) → t.x r = s.x r) ∧
    ((∀ d, i ≠ .rpcc d) → t.cycleCounter = s.cycleCounter)

/-- The lock flag is set by a load-locked alone: neither another statement nor the environment nor the handler of a
`call_pal` sets it (R58), and the locked address changes by a load-locked alone. -/
def Obligations.OnlyLoadLockedSetsTheLock : Prop :=
  ∀ (i : Instr) (s t : State), s.fetchStatement = .ok i → step s = .next t → i.loadsLocked = false →
    (s.lockFlag = false → t.lockFlag = false) ∧ t.lockAddr = s.lockAddr

/-- R320: which statements raise which exception; no other statement raises any, and `call_pal` alone, with a code no
handler is given for, calls the environment. -/
def Obligations.OnlyListedStatementsRaise : Prop :=
  ∀ (i : Instr) (s : State) (f : Fault), exec i s = .fault f →
    match f with
    | .dataAlignment ea _ => i.checksAlignment = true ∧ ea.toNat % 8 ≠ 0
    | .integerOverflow _ => i.mayOverflow = true
    | .divideByZero _ => i.divides = true
    | .accessViolation _ _ => i.accessesMemory = true
    | .illegalInstruction _ _ => False
    | .envCall n _ => i = .callPal n ∧ n ∉ s.launch.palHandlers
    | .runEnded _ => False

/-- R324: the state a run ends in has the pc of the raising statement, its memory, lock, counter and launch are those
before the statement. -/
def Obligations.ExceptionsKeepPcAndMemory : Prop :=
  ∀ (i : Instr) (s : State) (f : Fault), exec i s = .fault f →
    f.final.pc = s.pc ∧ SameMemory s f.final ∧ SameLock s f.final ∧ SameCounter s f.final

/-- A well-formed statement that accesses no memory, cannot overflow, does not divide, and is neither `ldgp` nor
`call_pal`, completes in every state; a branch where its target has an address, which is not the middle of a placed
statement. -/
def Obligations.OrdinaryStatementsComplete : Prop :=
  ∀ (i : Instr) (s : State), i.WellFormed s.launch.bwx → i.accessesMemory = false → i.mayOverflow = false →
    i.divides = false → (∀ d o b, i ≠ .ldgp d o b) → (∀ n, i ≠ .callPal n) →
    (∀ t, i.target? = some t → ∃ address, s.target t = some address ∧ s.launch.insideStatement address = false) →
    ∃ t, exec i s = .next t

/-- The statements the spec refuses: an ill-formed one always, and otherwise only a branch to a label out of range, a
branch into the middle of a placed statement, an `ldgp` away from its own address, and a store of which one of the
bytes it stores is program text. -/
def Obligations.OnlyListedStatementsAreRefused : Prop :=
  (∀ (i : Instr) (s : State) (why : IllFormed), i.illFormed? s.launch.bwx = some why →
    exec i s = .refused (.illFormed why)) ∧
  (∀ (i : Instr) (s : State) (r : Refusal), exec i s = .refused r →
    (∃ why, i.illFormed? s.launch.bwx = some why) ∨
    (∃ l, i.target? = some (.label l) ∧ s.labelInRange l = false) ∨
    (∃ d o b, i = .ldgp d o b ∧ s.ea (.base o b) ≠ s.pc) ∨
    (∃ t address, i.target? = some t ∧ s.target t = some address ∧ s.launch.insideStatement address = true) ∨
    (i.stores = true ∧ ∃ b ∈ i.storedBytes s, s.launch.isText b = true))

/-- The middle of a placed statement is no target (R360): a step with the pc there is refused, and so is a direct
branch that would go there. How that shows, and that a branch that is not taken goes on, is the model's (log 29). -/
def Obligations.MiddleOfAStatementIsRefused : Prop :=
  ∀ s : State,
    (s.pc ≠ s.launch.exitPc → s.MapsAll .fetch (bytesFrom s.pc 4) → s.launch.insideStatement s.pc = true →
      step s = .refused .insideStatement) ∧
    ∀ (t : Target) (address : Word), s.target t = some address → s.launch.insideStatement address = true →
      (∀ d : Reg, exec (.br d t) s = .refused .insideStatement ∧ exec (.bsr d t) s = .refused .insideStatement) ∧
      ∀ p ∈ ([(.beq, fun x => x = 0#64), (.bne, fun x => x ≠ 0#64), (.blt, fun x => x.msb = true),
          (.ble, fun x => x = 0#64 ∨ x.msb = true), (.bgt, fun x => x ≠ 0#64 ∧ x.msb = false),
          (.bge, fun x => x.msb = false), (.blbc, fun x => x.toNat % 2 = 0), (.blbs, fun x => x.toNat % 2 = 1)] :
            List ((Reg → Target → Instr) × (Word → Prop))),
        ∀ r : Reg, p.2 (s.x r) → exec (p.1 r t) s = .refused .insideStatement

/-! Operands and registers -/

/-- R21: register 31 reads as zero and ignores writes; any other register holds what is written to it, and a write
leaves every other register alone. -/
def Obligations.RegisterThirtyOneIsZero : Prop :=
  ∀ (s : State) (v : Word), s.x 31 = 0#64 ∧ s.setX 31 v = s ∧
    (∀ r : Reg, r ≠ 31 → (s.setX r v).x r = v) ∧ (∀ r q : Reg, q ≠ r → (s.setX r v).x q = s.x q)

/-- The temporaries each statement destroys (R81), for both settings of `BWX`, and `AT` besides for a symbolic address
and for an immediate outside 0 to 255 (R73, R75; for `sextb` and `sextw` log 17). -/
def Obligations.TemporariesAreThoseOfTheTable : Prop :=
  ∀ (bwx : Bool) (d b : Reg) (o : Int) (e : SymExpr) (a : Address),
    (Instr.ldb d a).temporaries bwx = [28, 23] ∧ (Instr.ldw d a).temporaries bwx = [28, 23, 24] ∧
    (∀ p ∈ ([(.ldbu, [28, 23]), (.ldwu, [28, 23, 24]), (.stb, [28, 23, 24]), (.stw, [28, 23, 24, 25, 27])] :
        List ((Reg → Address → Instr) × List Reg)),
      (p.1 d (.base o b)).temporaries bwx = (if bwx then [] else p.2) ∧
      (p.1 d (.symbolic e)).temporaries bwx = (if bwx then [28] else p.2)) ∧
    (∀ mk ∈ ([.uldw, .uldwu, .uldl, .uldq] : List (Reg → Address → Instr)),
      (mk d a).temporaries bwx = [28, 23, 24]) ∧
    (∀ mk ∈ ([.ustw, .ustl, .ustq] : List (Reg → Address → Instr)),
      (mk d a).temporaries bwx = [28, 23, 24, 25, 27]) ∧
    (∀ mk ∈ ([.divl, .divlu, .divq, .divqu, .reml, .remlu, .remq, .remqu] : List (Reg → RegImm → Reg → Instr)),
      ∀ v : RegImm, (mk d v b).temporaries bwx = [28, 23, 24, 25, 27]) ∧
    (∀ mk ∈ ([.absl, .absq] : List (RegImm → Reg → Instr)), ∀ v : RegImm, (mk v d).temporaries bwx = [28]) ∧
    (∀ mk ∈ ([.lda, .ldl, .ldlL, .ldq, .ldqL, .ldqU, .stl, .stlC, .stq, .stqC, .stqU] : List (Reg → Address → Instr)),
      (mk d (.base o b)).temporaries bwx = [] ∧ (mk d (.symbolic e)).temporaries bwx = [28]) ∧
    (∀ mk ∈ ([.jmp, .jsr] : List (Reg → JumpOperand → Instr)),
      (∀ h, (mk d (.reg b h)).temporaries bwx = []) ∧ (mk d (.symbolic e)).temporaries bwx = [28]) ∧
    (∀ mk ∈ ([.addl, .addlv, .addq, .addqv, .s4addl, .s4addq, .s8addl, .s8addq, .mull, .mullv, .mulq, .mulqv,
        .subl, .sublv, .subq, .subqv, .s4subl, .s4subq, .s8subl, .s8subq, .umulh, .and, .bis, .or, .xor, .bic,
        .andnot, .ornot, .eqv, .xornot, .sll, .srl, .sra, .cmpeq, .cmplt, .cmple, .cmpult, .cmpule, .cmoveq,
        .cmovne, .cmovlt, .cmovle, .cmovgt, .cmovge, .cmovlbc, .cmovlbs, .cmpbge, .extbl, .extwl, .extll,
        .extql, .extwh, .extlh, .extqh, .insbl, .inswl, .insll, .insql, .inswh, .inslh, .insqh, .mskbl, .mskwl,
        .mskll, .mskql, .mskwh, .msklh, .mskqh, .zap, .zapnot] : List (Reg → RegImm → Reg → Instr)),
      (∀ r, (mk d (.reg r) b).temporaries bwx = []) ∧
      ∀ v : Int, (mk d (.imm v) b).temporaries bwx = if 0 ≤ v ∧ v ≤ 255 then [] else [28]) ∧
    (∀ mk ∈ ([.not, .negl, .neglv, .negq, .negqv, .sextb, .sextw, .sextl, .amask] : List (RegImm → Reg → Instr)),
      (∀ r, (mk (.reg r) d).temporaries bwx = []) ∧
      ∀ v : Int, (mk (.imm v) d).temporaries bwx = if 0 ≤ v ∧ v ≤ 255 then [] else [28]) ∧
    (∀ (v : RegImm) (n : Int) (p : Nat) (t : Target) (h : BitVec 14),
      ∀ i ∈ ([.mov v d, .ldil d n, .ldiq d n, .ldah d o b, .ldgp d o b, .clr d, .beq d t, .bne d t, .blt d t, .ble d t,
        .bgt d t, .bge d t, .blbc d t, .blbs d t, .br d t, .bsr d t, .ret d b h, .jsrCoroutine d b h, .callPal p,
        .fetch o b, .fetchM o b, .rpcc d, .implver d, .nop, .unop, .trapb, .excb, .mb, .wmb] : List Instr),
      i.temporaries bwx = [])

/-- The effective address is the exact sum of the register and the signed offset, modulo 2^64 (R41, R73), and an
immediate is its value modulo 2^64 (R75). A symbolic address is the address of its symbol plus the constant, modulo
2^64 (log 9), and a label used as an address has the address it has as a branch target (R6, R77). -/
def Obligations.OperandValues : Prop :=
  ∀ s : State,
    (∀ (o : Int) (b : Reg), -32768 ≤ o → o ≤ 32767 →
      ((s.ea (.base o b)).toNat : Int) = (((s.x b).toNat : Int) + o) % 2 ^ 64) ∧
    (∀ e, ((s.ea (.symbolic e)).toNat : Int) = (((Config.addrOf e.symbol).toNat : Int) + e.addend) % 2 ^ 64) ∧
    (∀ l, s.ea (.symbolic ⟨.label l, 0⟩) = Config.labelAddr l ∧ Config.addrOf (.label l) = Config.labelAddr l ∧
      (Config.labelAddr l).toNat % 4 = 0) ∧ (∀ r, s.rbv (.reg r) = s.x r) ∧
    (∀ v : Int, ((s.rbv (.imm v)).toNat : Int) = v % 2 ^ 64)

/-- R42: memory is little-endian; what is stored is read back, and no byte outside is touched. -/
def Obligations.MemoryIsLittleEndian : Prop :=
  ∀ (s : State) (a v : Word) (n : Nat), s.mem.wf = true → n ≤ 8 →
    (∀ k, k < n → nthByte (s.memRead a n) k = s.byteAt (a + BitVec.ofNat 64 k)) ∧
    (∀ k, n ≤ k → k < 8 → nthByte (s.memRead a n) k = 0#8) ∧
    HoldsBytes (s.memWrite a v n) a v n ∧ SameMemoryOutside a n s (s.memWrite a v n) ∧
    (s.memWrite a v n).mem.wf = true ∧
    (∀ k, k < n → nthByte ((s.memWrite a v n).memRead a n) k = nthByte v k)

/-! Encoding -/

/-- Decoding the word of any statement gives the machine instruction it stands for: every operand survives. -/
def Obligations.EncodingRoundTrip : Prop :=
  ∀ (pc : Word) (i : Instr) (w : InstrWord), encode pc i = some w → decodeWord w = .ok (i.machineForm pc)

/-- Every statement that is one machine instruction has a word, where a label it names is in reach. -/
def Obligations.MachineStatementsHaveWords : Prop :=
  ∀ (pc : Word) (i : Instr), i.WellFormed true → i.isMacro true = false →
    (∀ l, i.target? = some (.label l) → labelDisp pc l ≠ none) → ∃ w, encode pc i = some w

/-- The word of a decoded instruction is the word it was decoded from, and no other word spells it: but for `implver`,
whose second operand the decoder does not read (log 15). -/
def Obligations.DecodedWordEncodesBack : Prop :=
  ∀ (pc : Word) (w : InstrWord) (i : Instr), decodeWord w = .ok i → (∀ d, i ≠ .implver d) → encode pc i = some w

/-- A decoded instruction is well-formed and one machine instruction, for either setting of `BWX` but the six of
kind B (R79). -/
def Obligations.DecodedInstructionsAreWellFormed : Prop :=
  ∀ (w : InstrWord) (i : Instr), decodeWord w = .ok i →
    i.WellFormed true ∧ i.isMacro true = false ∧
    ((∀ o ∈ [0x0a#6, 0x0c#6, 0x0d#6, 0x0e#6, 0x1c#6], opcodeField w ≠ o) →
      i.WellFormed false ∧ i.isMacro false = false)

/-- R89: a word with an opcode outside the opcode map of R88, or with a function code outside it (opcodes 10, 11, 12,
13, 18 and 1C), spells no instruction. -/
def Obligations.ReservedWordsSpellNothing : Prop :=
  ∀ w : InstrWord,
    (opcodeField w ∈ [0x01#6, 0x02#6, 0x03#6, 0x04#6, 0x05#6, 0x06#6, 0x07#6, 0x14#6, 0x15#6, 0x16#6, 0x17#6, 0x19#6,
        0x1b#6, 0x1d#6, 0x1e#6, 0x1f#6, 0x20#6, 0x21#6, 0x22#6, 0x23#6, 0x24#6, 0x25#6, 0x26#6, 0x27#6, 0x31#6, 0x32#6,
        0x33#6, 0x35#6, 0x36#6, 0x37#6] → decodeWord w = .error .reservedOpcode) ∧
    (opcodeField w = 0x10#6 → wordField w 5 7 ∉ [0x00#7, 0x40#7, 0x20#7, 0x60#7, 0x02#7, 0x22#7, 0x12#7, 0x32#7, 0x09#7,
        0x49#7, 0x29#7, 0x69#7, 0x0b#7, 0x2b#7, 0x1b#7, 0x3b#7, 0x0f#7, 0x2d#7, 0x4d#7, 0x6d#7, 0x1d#7, 0x3d#7] →
      decodeWord w = .error .reservedFunction) ∧
    (opcodeField w = 0x11#6 → wordField w 5 7 ∉ [0x00#7, 0x08#7, 0x20#7, 0x28#7, 0x40#7, 0x48#7, 0x14#7, 0x16#7, 0x24#7,
        0x26#7, 0x44#7, 0x46#7, 0x64#7, 0x66#7, 0x61#7, 0x6c#7] → decodeWord w = .error .reservedFunction) ∧
    (opcodeField w = 0x12#6 → wordField w 5 7 ∉ [0x39#7, 0x34#7, 0x3c#7, 0x30#7, 0x31#7, 0x02#7, 0x06#7, 0x0b#7, 0x12#7,
        0x16#7, 0x1b#7, 0x22#7, 0x26#7, 0x2b#7, 0x32#7, 0x36#7, 0x3b#7, 0x52#7, 0x57#7, 0x5a#7, 0x62#7, 0x67#7, 0x6a#7,
        0x72#7, 0x77#7, 0x7a#7] → decodeWord w = .error .reservedFunction) ∧
    (opcodeField w = 0x13#6 → wordField w 5 7 ∉ [0x00#7, 0x40#7, 0x20#7, 0x60#7, 0x30#7] →
      decodeWord w = .error .reservedFunction) ∧
    (opcodeField w = 0x1c#6 → wordField w 5 7 ≠ 0#7 → wordField w 5 7 ≠ 1#7 → decodeWord w = .error .reservedFunction) ∧
    (opcodeField w = 0x18#6 → wordField w 0 16 ∉ [0x0000#16, 0x0400#16, 0x4000#16, 0x4400#16, 0x8000#16, 0xa000#16,
        0xc000#16] → decodeWord w = .error .reservedFunction)

/-- R90: a nonzero should-be-zero field of a register-form Operate word, and a register field other than 31 where the
instruction uses none, make the word spell nothing. -/
def Obligations.MalformedFieldsSpellNothing : Prop :=
  ∀ (w : InstrWord) (i : Instr), decodeWord w = .ok i →
    (opcodeField w ∈ [0x10#6, 0x11#6, 0x12#6, 0x13#6, 0x1c#6] → wordField w 12 1 = 0#1 → wordField w 13 3 = 0#3) ∧
    ((∃ b d, i = .amask b d) ∨ (∃ d, i = .implver d) ∨ (∃ b d, i = .sextb b d) ∨ (∃ b d, i = .sextw b d) ∨
      (∃ b, i = .fetch 0 b) ∨ (∃ b, i = .fetchM 0 b) ∨ i ∈ ([.trapb, .excb, .mb, .wmb] : List Instr) →
        wordField w 21 5 = 31#5) ∧
    (i ∈ ([.trapb, .excb, .mb, .wmb] : List Instr) ∨ (∃ d, i = .rpcc d) → wordField w 16 5 = 31#5)

/-- A few words of the spec's examples, one for each format, decode to their statements. -/
def Obligations.SampleWordsDecode : Prop :=
  decodeWord 0x2022FFF8#32 = .ok (.lda 1 (.base (-8) 2)) ∧ decodeWord 0xBC220000#32 = .ok (.stqC 1 (.base 0 2)) ∧
  decodeWord 0x40391003#32 = .ok (.addl 1 (.imm 200) 3) ∧ decodeWord 0x40220D23#32 = .ok (.subqv 1 (.reg 2) 3) ∧
  decodeWord 0xE420000F#32 = .ok (.beq 1 (.disp 15)) ∧ decodeWord 0x6BFA8001#32 = .ok (.ret 31 26 1) ∧
  decodeWord 0x00000083#32 = .ok (.callPal 0x83) ∧ decodeWord 0x63FF4400#32 = .ok .wmb

/-- The statement level and the word level agree: a statement that is one machine instruction does exactly what the
instruction its word stands for does (R80 for the pseudo-instructions, R86 for a label). -/
def Obligations.PseudoInstructionsAreTheirExpansions : Prop :=
  ∀ (i : Instr) (s : State), s.PcAligned → i.isMacro s.launch.bwx = false → exec i s = exec (i.machineForm s.pc) s

/-! Loads -/

/-- The naturally aligned loads `ldl` and `ldq`, and `ldq_u`, which reads the aligned quadword around any address
(except in the form that is `unop`). -/
def Obligations.MachineLoads : Prop :=
  Loads .ldl (fun s ea => ea.toNat % 4 = 0 ∧ s.MapsAll .read (bytesFrom ea 4))
    (fun s ea => ((s.memRead ea 4).setWidth 32).signExtend 64) ∧
  Loads .ldq (fun s ea => ea.toNat % 8 = 0 ∧ s.MapsAll .read (bytesFrom ea 8)) (fun s ea => s.memRead ea 8) ∧
  Loads .ldqU (fun s ea => s.MapsAll .read (bytesFrom (ea &&& ~~~7#64) 8)) (fun s ea => s.memRead (ea &&& ~~~7#64) 8)

/-- `ldl_l` and `ldq_l` load, set the lock flag and record the address (R57). -/
def Obligations.LoadLockedSetsTheLock : Prop :=
  ∀ (d : Reg) (a : Address) (s : State),
    ((Instr.ldlL d a).WellFormed s.launch.bwx → (s.ea a).toNat % 4 = 0 → s.MapsAll .read (bytesFrom (s.ea a) 4) →
      ∃ t, exec (.ldlL d a) s = .next t ∧ t.pc = s.npc (.ldlL d a) ∧
        RegHolds t d (((s.memRead (s.ea a) 4).setWidth 32).signExtend 64) ∧
        SameRegsExcept (d :: (Instr.ldlL d a).temporaries s.launch.bwx) s t ∧ SameMemory s t ∧ SameCounter s t ∧
        t.lockFlag = true ∧ t.lockAddr = s.ea a) ∧
    ((Instr.ldqL d a).WellFormed s.launch.bwx → (s.ea a).toNat % 8 = 0 → s.MapsAll .read (bytesFrom (s.ea a) 8) →
      ∃ t, exec (.ldqL d a) s = .next t ∧ t.pc = s.npc (.ldqL d a) ∧ RegHolds t d (s.memRead (s.ea a) 8) ∧
        SameRegsExcept (d :: (Instr.ldqL d a).temporaries s.launch.bwx) s t ∧ SameMemory s t ∧ SameCounter s t ∧
        t.lockFlag = true ∧ t.lockAddr = s.ea a)

/-- The byte and word loads, as machine instructions (`BWX`: the bytes of the datum must be mapped) and as macros (the
aligned quadwords around it must be, R49); the unaligned loads complete at any address whose aligned quadwords are
mapped (R48). -/
def Obligations.ByteWordAndUnalignedLoads : Prop :=
  Loads .ldb (fun s ea => s.MapsAll .read (quadBytes ea 1)) (fun s ea => ((s.memRead ea 1).setWidth 8).signExtend 64) ∧
  Loads .ldbu (fun s ea => s.MapsAll .read (if s.launch.bwx then bytesFrom ea 1 else quadBytes ea 1))
    (fun s ea => s.memRead ea 1) ∧
  Loads .ldw (fun s ea => ea.toNat % 2 = 0 ∧ s.MapsAll .read (quadBytes ea 2))
    (fun s ea => ((s.memRead ea 2).setWidth 16).signExtend 64) ∧
  Loads .ldwu (fun s ea => ea.toNat % 2 = 0 ∧
      s.MapsAll .read (if s.launch.bwx then bytesFrom ea 2 else quadBytes ea 2)) (fun s ea => s.memRead ea 2) ∧
  Loads .uldw (fun s ea => s.MapsAll .read (quadBytes ea 2)) (fun s ea => ((s.memRead ea 2).setWidth 16).signExtend 64) ∧
  Loads .uldwu (fun s ea => s.MapsAll .read (quadBytes ea 2)) (fun s ea => s.memRead ea 2) ∧
  Loads .uldl (fun s ea => s.MapsAll .read (quadBytes ea 4)) (fun s ea => ((s.memRead ea 4).setWidth 32).signExtend 64) ∧
  Loads .uldq (fun s ea => s.MapsAll .read (quadBytes ea 8)) (fun s ea => s.memRead ea 8)

/-- `lda`, `ldah`, `ldil` and `ldiq` compute their value without touching memory (R101, R115, R117, R118). -/
def Obligations.AddressAndImmediateLoads : Prop :=
  ∀ (d b : Reg) (a : Address) (o v : Int) (s : State),
    ((Instr.lda d a).WellFormed s.launch.bwx → Writes (.lda d a) s d (s.ea a)) ∧
    (-32768 ≤ o → o ≤ 32767 → Writes (.ldah d o b) s d (BitVec.ofInt 64 ((s.x b).toInt + o * 65536))) ∧
    Writes (.ldil d v) s d ((BitVec.ofInt 32 v).signExtend 64) ∧ Writes (.ldiq d v) s d (BitVec.ofInt 64 v)

/-- R116: `ldgp` loads the global pointer of its own address where base and offset give that address, and is refused
where they do not. -/
def Obligations.LoadGlobalPointer : Prop :=
  ∀ (d b : Reg) (o : Int) (s : State), -32768 ≤ o → o ≤ 32767 →
    (s.ea (.base o b) = s.pc → Writes (.ldgp d o b) s d (Config.gpOf s.pc)) ∧
    (s.ea (.base o b) ≠ s.pc → exec (.ldgp d o b) s = .refused .ldgpNotOwnAddress)

/-! Stores -/

/-- The stores. A byte, word or unaligned store that is a macro reads and writes the whole aligned quadwords around its
bytes (R49) and changes only the bytes it names. -/
def Obligations.StoreStatements : Prop :=
  Stores .stl (fun s ea => ea.toNat % 4 = 0 ∧ s.MapsAll .write (bytesFrom ea 4)) id 4 ∧
  Stores .stq (fun s ea => ea.toNat % 8 = 0 ∧ s.MapsAll .write (bytesFrom ea 8)) id 8 ∧
  Stores .stqU (fun s ea => s.MapsAll .write (bytesFrom (ea &&& ~~~7#64) 8)) (fun ea => ea &&& ~~~7#64) 8 ∧
  Stores .stb (fun s ea => if s.launch.bwx then s.MapsAll .write (bytesFrom ea 1)
    else s.MapsAll .read (quadBytes ea 1) ∧ s.MapsAll .write (quadBytes ea 1)) id 1 ∧
  Stores .stw (fun s ea => ea.toNat % 2 = 0 ∧ if s.launch.bwx then s.MapsAll .write (bytesFrom ea 2)
    else s.MapsAll .read (quadBytes ea 2) ∧ s.MapsAll .write (quadBytes ea 2)) id 2 ∧
  Stores .ustw (fun s ea => s.MapsAll .read (quadBytes ea 2) ∧ s.MapsAll .write (quadBytes ea 2)) id 2 ∧
  Stores .ustl (fun s ea => s.MapsAll .read (quadBytes ea 4) ∧ s.MapsAll .write (quadBytes ea 4)) id 4 ∧
  Stores .ustq (fun s ea => s.MapsAll .read (quadBytes ea 8) ∧ s.MapsAll .write (quadBytes ea 8)) id 8

/-- R59: a store-conditional stores where the flag is set and the address lies in the locked block, does not store
where it is clear, and by a draw where it is set and the address lies elsewhere; the outcome is returned in the source
register and the flag is cleared. -/
def Obligations.StoreConditional : Prop :=
  ∀ p ∈ ([(.stlC, 4), (.stqC, 8)] : List ((Reg → Address → Instr) × Nat)),
    ∀ (r : Reg) (a : Address) (s : State), (p.1 r a).WellFormed s.launch.bwx → s.mem.wf = true →
      (s.ea a).toNat % p.2 = 0 → s.MapsAll .write (bytesFrom (s.ea a) p.2) → s.OffText (bytesFrom (s.ea a) p.2) →
      ∃ t, exec (p.1 r a) s = .next t ∧ StoredConditionally (p.1 r a)
        (if s.lockFlag = true ∧ (s.ea a).extractLsb' 4 60 ≠ s.lockAddr.extractLsb' 4 60 then Config.freeBit s.draws
          else s.lockFlag) r (s.ea a) p.2 s t

/-- R45, R46: the aligned accesses raise `DataAlignment` of the effective address where it is no multiple of the size,
and write nothing. -/
def Obligations.MisalignedAccessRaises : Prop :=
  (∀ mk ∈ ([.ldl, .ldlL, .stl, .stlC] : List (Reg → Address → Instr)), Misaligns mk fun ea => ea.toNat % 4 ≠ 0) ∧
  (∀ mk ∈ ([.ldq, .ldqL, .stq, .stqC] : List (Reg → Address → Instr)), Misaligns mk fun ea => ea.toNat % 8 ≠ 0) ∧
  (∀ mk ∈ ([.ldw, .ldwu, .stw] : List (Reg → Address → Instr)), Misaligns mk fun ea => ea.toNat % 2 ≠ 0)

/-- An access that touches a byte that is not mapped raises `AccessViolation` of the effective address and writes
nothing (R47, R49; log 11). `ldq_u` too, also with destination `$31` (R91, R100), but for the form `$31, 0($30)`,
which is `unop` (log 13). -/
def Obligations.UnmappedAccessRaises : Prop :=
  (∀ mk ∈ ([.ldl, .ldlL] : List (Reg → Address → Instr)),
    Violates mk (fun ea => ea.toNat % 4 = 0) [.read] fun _ ea => bytesFrom ea 4) ∧
  (∀ mk ∈ ([.ldq, .ldqL] : List (Reg → Address → Instr)),
    Violates mk (fun ea => ea.toNat % 8 = 0) [.read] fun _ ea => bytesFrom ea 8) ∧
  (∀ mk ∈ ([.stl, .stlC] : List (Reg → Address → Instr)),
    Violates mk (fun ea => ea.toNat % 4 = 0) [.write] fun _ ea => bytesFrom ea 4) ∧
  (∀ mk ∈ ([.stq, .stqC] : List (Reg → Address → Instr)),
    Violates mk (fun ea => ea.toNat % 8 = 0) [.write] fun _ ea => bytesFrom ea 8) ∧
  Violates .stqU (fun _ => True) [.write] (fun _ ea => bytesFrom (ea &&& ~~~7#64) 8) ∧
  Violates .ldb (fun _ => True) [.read] (fun _ ea => quadBytes ea 1) ∧
  Violates .ldw (fun ea => ea.toNat % 2 = 0) [.read] (fun _ ea => quadBytes ea 2) ∧
  Violates .ldbu (fun _ => True) [.read] (fun s ea => if s.launch.bwx then bytesFrom ea 1 else quadBytes ea 1) ∧
  Violates .ldwu (fun ea => ea.toNat % 2 = 0) [.read]
    (fun s ea => if s.launch.bwx then bytesFrom ea 2 else quadBytes ea 2) ∧
  Violates .stb (fun _ => True) [.write] (fun s ea => if s.launch.bwx then bytesFrom ea 1 else quadBytes ea 1) ∧
  Violates .stw (fun ea => ea.toNat % 2 = 0) [.write]
    (fun s ea => if s.launch.bwx then bytesFrom ea 2 else quadBytes ea 2) ∧
  (∀ p ∈ ([(.uldw, 2), (.uldwu, 2), (.uldl, 4), (.uldq, 8)] : List ((Reg → Address → Instr) × Nat)),
    Violates p.1 (fun _ => True) [.read] fun _ ea => quadBytes ea p.2) ∧
  (∀ p ∈ ([(.ustw, 2), (.ustl, 4), (.ustq, 8)] : List ((Reg → Address → Instr) × Nat)),
    Violates p.1 (fun _ => True) [.read, .write] fun _ ea => quadBytes ea p.2) ∧
  (∀ p ∈ ([(.stb, 1), (.stw, 2)] : List ((Reg → Address → Instr) × Nat)),
    ∀ (r : Reg) (a : Address) (s : State), s.launch.bwx = false → (p.1 r a).WellFormed s.launch.bwx →
      (s.ea a).toNat % p.2 = 0 → ¬ s.MapsAll .read (quadBytes (s.ea a) p.2) →
      ∃ u, exec (p.1 r a) s = .fault (.accessViolation (s.ea a) u) ∧ u.pc = s.pc ∧ WroteNothing (p.1 r a) s u) ∧
  (∀ (d : Reg) (a : Address) (s : State), ¬ (d = 31 ∧ a = .base 0 30) → (Instr.ldqU d a).WellFormed s.launch.bwx →
    ¬ s.MapsAll .read (bytesFrom (s.ea a &&& ~~~7#64) 8) →
    ∃ u, exec (.ldqU d a) s = .fault (.accessViolation (s.ea a) u) ∧ u.pc = s.pc ∧ WroteNothing (.ldqU d a) s u)

/-- A store whose bytes overlap the program text is refused (R56), for all ten stores. A store-conditional is refused
where it would store, also where a draw decides that; that one which does not store completes is the model's reading
(log 19). -/
def Obligations.StoreIntoTextIsRefused : Prop :=
  (∀ p ∈ ([(.stl, 4), (.stq, 8)] : List ((Reg → Address → Instr) × Nat)),
    RefusesText p.1 (fun s ea => ea.toNat % p.2 = 0 ∧ s.MapsAll .write (bytesFrom ea p.2)) id p.2) ∧
  (∀ p ∈ ([(.stlC, 4), (.stqC, 8)] : List ((Reg → Address → Instr) × Nat)),
    ∀ (r : Reg) (a : Address) (s : State), (p.1 r a).WellFormed s.launch.bwx → (s.ea a).toNat % p.2 = 0 →
      s.MapsAll .write (bytesFrom (s.ea a) p.2) → ¬ s.OffText (bytesFrom (s.ea a) p.2) →
      if (if s.lockFlag = true ∧ (s.ea a).extractLsb' 4 60 ≠ s.lockAddr.extractLsb' 4 60 then Config.freeBit s.draws
          else s.lockFlag) = true
      then exec (p.1 r a) s = .refused .storeToText
      else ∃ t, exec (p.1 r a) s = .next t ∧ StoredConditionally (p.1 r a) false r (s.ea a) p.2 s t) ∧
  RefusesText .stqU (fun s ea => s.MapsAll .write (bytesFrom (ea &&& ~~~7#64) 8)) (fun ea => ea &&& ~~~7#64) 8 ∧
  RefusesText .stb (fun s ea => if s.launch.bwx then s.MapsAll .write (bytesFrom ea 1)
    else s.MapsAll .read (quadBytes ea 1) ∧ s.MapsAll .write (quadBytes ea 1)) id 1 ∧
  RefusesText .stw (fun s ea => ea.toNat % 2 = 0 ∧ if s.launch.bwx then s.MapsAll .write (bytesFrom ea 2)
    else s.MapsAll .read (quadBytes ea 2) ∧ s.MapsAll .write (quadBytes ea 2)) id 2 ∧
  (∀ p ∈ ([(.ustw, 2), (.ustl, 4), (.ustq, 8)] : List ((Reg → Address → Instr) × Nat)),
    RefusesText p.1 (fun s ea => s.MapsAll .read (quadBytes ea p.2) ∧ s.MapsAll .write (quadBytes ea p.2)) id p.2)

/-! Arithmetic -/

/-- The longword statements without overflow and the sign extensions: the low 32 bits of the exact result, sign-extended (R140). -/
def Obligations.LongwordArithmetic : Prop :=
  WritesThree .addl (fun x y => longword (s32 x + s32 y)) ∧ WritesThree .subl (fun x y => longword (s32 x - s32 y)) ∧
  WritesThree .mull (fun x y => longword (s32 x * s32 y)) ∧
  WritesThree .s4addl (fun x y => longword (4 * s32 x + s32 y)) ∧
  WritesThree .s8addl (fun x y => longword (8 * s32 x + s32 y)) ∧
  WritesThree .s4subl (fun x y => longword (4 * s32 x - s32 y)) ∧
  WritesThree .s8subl (fun x y => longword (8 * s32 x - s32 y)) ∧ WritesTwo .negl (fun y => longword (-s32 y)) ∧
  WritesTwo .sextb (fun y => BitVec.ofInt 64 (y.setWidth 8).toInt) ∧
  WritesTwo .sextw (fun y => BitVec.ofInt 64 (y.setWidth 16).toInt) ∧ WritesTwo .sextl (fun y => BitVec.ofInt 64 (s32 y))

/-- The quadword statements without overflow: the exact result modulo 2^64, and the high half of the unsigned
product; and `clr`. -/
def Obligations.QuadwordArithmetic : Prop :=
  WritesThree .addq (fun x y => quadword (x.toInt + y.toInt)) ∧
  WritesThree .subq (fun x y => quadword (x.toInt - y.toInt)) ∧
  WritesThree .mulq (fun x y => quadword (x.toInt * y.toInt)) ∧
  WritesThree .s4addq (fun x y => quadword (4 * x.toInt + y.toInt)) ∧
  WritesThree .s8addq (fun x y => quadword (8 * x.toInt + y.toInt)) ∧
  WritesThree .s4subq (fun x y => quadword (4 * x.toInt - y.toInt)) ∧
  WritesThree .s8subq (fun x y => quadword (8 * x.toInt - y.toInt)) ∧
  WritesThree .umulh (fun x y => ((x.setWidth 128 * y.setWidth 128) >>> 64).setWidth 64) ∧
  WritesTwo .negq (fun y => quadword (-y.toInt)) ∧ ∀ (d : Reg) (s : State), Writes (.clr d) s d 0#64

/-- The statements with overflow: where the exact result can be represented they complete with it, and where it cannot
the wrapped result is written and then `IntegerOverflow` is raised (R322). -/
def Obligations.OverflowStatements : Prop :=
  ∀ (a : Reg) (b : RegImm) (c : Reg) (s : State),
    (∀ p ∈ ([(.addlv, (· + ·)), (.sublv, (· - ·)), (.mullv, (· * ·))] :
        List ((Reg → RegImm → Reg → Instr) × (Int → Int → Int))),
      WritesOrOverflows (p.1 a b c) s c longword (-2147483648) 2147483647 (p.2 (s32 (s.x a)) (s32 (s.rbv b)))) ∧
    (∀ p ∈ ([(.addqv, (· + ·)), (.subqv, (· - ·)), (.mulqv, (· * ·))] :
        List ((Reg → RegImm → Reg → Instr) × (Int → Int → Int))),
      WritesOrOverflows (p.1 a b c) s c quadword (-9223372036854775808) 9223372036854775807
        (p.2 (s.x a).toInt (s.rbv b).toInt)) ∧
    WritesOrOverflows (.neglv b c) s c longword (-2147483648) 2147483647 (-s32 (s.rbv b)) ∧
    WritesOrOverflows (.negqv b c) s c quadword (-9223372036854775808) 9223372036854775807 (-(s.rbv b).toInt)

/-- `absl` and `absq` complete with the absolute value, but for the most negative value, where they raise the overflow
and leave the destination and `AT` open (R142, R143). -/
def Obligations.AbsoluteValue : Prop :=
  ∀ (b : RegImm) (d : Reg) (s : State),
    ((Instr.absl b d).WellFormed s.launch.bwx →
      (s32 (s.rbv b) ≠ -2147483648 → Writes (.absl b d) s d (BitVec.ofInt 64 |s32 (s.rbv b)|)) ∧
      (s32 (s.rbv b) = -2147483648 → ∃ u, exec (.absl b d) s = .fault (.integerOverflow u) ∧ u.pc = s.pc ∧
        SameRegsExcept [d, 28] s u ∧ SameMemory s u ∧ SameLock s u ∧ SameCounter s u)) ∧
    ((Instr.absq b d).WellFormed s.launch.bwx →
      (s.rbv b ≠ 0x8000000000000000#64 → Writes (.absq b d) s d (BitVec.ofInt 64 |(s.rbv b).toInt|)) ∧
      (s.rbv b = 0x8000000000000000#64 → ∃ u, exec (.absq b d) s = .fault (.integerOverflow u) ∧ u.pc = s.pc ∧
        SameRegsExcept [d, 28] s u ∧ SameMemory s u ∧ SameLock s u ∧ SameCounter s u))

/-- The overflow conditions in bit terms (R181): the signs of the operands and of the wrapped result decide. -/
def Obligations.OverflowInBitTerms : Prop :=
  ∀ (a : Reg) (b : RegImm) (c : Reg) (s : State),
    ((Instr.addlv a b c).WellFormed s.launch.bwx → ((∃ u, exec (.addlv a b c) s = .fault (.integerOverflow u)) ↔
      (s.x a).getLsbD 31 = (s.rbv b).getLsbD 31 ∧ (s.x a + s.rbv b).getLsbD 31 ≠ (s.x a).getLsbD 31)) ∧
    ((Instr.addqv a b c).WellFormed s.launch.bwx → ((∃ u, exec (.addqv a b c) s = .fault (.integerOverflow u)) ↔
      (s.x a).getLsbD 63 = (s.rbv b).getLsbD 63 ∧ (s.x a + s.rbv b).getLsbD 63 ≠ (s.x a).getLsbD 63)) ∧
    ((Instr.sublv a b c).WellFormed s.launch.bwx → ((∃ u, exec (.sublv a b c) s = .fault (.integerOverflow u)) ↔
      (s.x a).getLsbD 31 ≠ (s.rbv b).getLsbD 31 ∧ (s.x a - s.rbv b).getLsbD 31 ≠ (s.x a).getLsbD 31)) ∧
    ((Instr.subqv a b c).WellFormed s.launch.bwx → ((∃ u, exec (.subqv a b c) s = .fault (.integerOverflow u)) ↔
      (s.x a).getLsbD 63 ≠ (s.rbv b).getLsbD 63 ∧ (s.x a - s.rbv b).getLsbD 63 ≠ (s.x a).getLsbD 63))

/-- R182: the division and remainder statements compute a quotient and a remainder of the dividend by the divisor,
rounded toward zero. The most negative value divided by -1 completes with a free value in the destination (whatever
`Config.freeWord` is; log 6), and does all else as ever. -/
def Obligations.DivisionLaw : Prop :=
  Divides .divl .reml s32 longword (-2147483648) ∧ Divides .divq .remq BitVec.toInt quadword (-9223372036854775808) ∧
  Divides .divlu .remlu (fun v => (u32 v : Int)) longword (-2147483648) ∧
  Divides .divqu .remqu (fun v => (v.toNat : Int)) quadword (-9223372036854775808) ∧
  ∀ (a : Reg) (b : RegImm) (c : Reg) (s : State),
    (∀ mk ∈ ([.divl, .reml] : List (Reg → RegImm → Reg → Instr)), (mk a b c).WellFormed s.launch.bwx →
      s32 (s.x a) = -2147483648 → s32 (s.rbv b) = -1 → Writes (mk a b c) s c (Config.freeWord s.draws)) ∧
    (∀ mk ∈ ([.divq, .remq] : List (Reg → RegImm → Reg → Instr)), (mk a b c).WellFormed s.launch.bwx →
      s.x a = 0x8000000000000000#64 → s.rbv b = -1#64 → Writes (mk a b c) s c (Config.freeWord s.draws))

/-- R323: a zero divisor raises `DivideByZero` in all eight division and remainder statements; the longword forms look
at the low 32 bits of the divisor alone. -/
def Obligations.DivisionByZeroRaises : Prop :=
  (∀ mk ∈ ([.divl, .divlu, .reml, .remlu] : List (Reg → RegImm → Reg → Instr)), RaisesOnZero mk s32) ∧
  (∀ mk ∈ ([.divq, .divqu, .remq, .remqu] : List (Reg → RegImm → Reg → Instr)), RaisesOnZero mk BitVec.toInt)

/-! Logical, shift, relational and move -/

/-- The logical statements, bit by bit. -/
def Obligations.LogicalStatements : Prop :=
  ∀ p ∈ ([(.and, fun x y => x && y), (.bis, fun x y => x || y), (.or, fun x y => x || y), (.xor, fun x y => x != y),
      (.bic, fun x y => x && !y), (.andnot, fun x y => x && !y), (.ornot, fun x y => x || !y), (.eqv, fun x y => x == y),
      (.xornot, fun x y => x == y), ((fun _ b d => .not b d), fun _ y => !y)] :
        List ((Reg → RegImm → Reg → Instr) × (Bool → Bool → Bool))),
    ∀ (a : Reg) (b : RegImm) (c : Reg) (s : State), (p.1 a b c).WellFormed s.launch.bwx →
      ∃ v, Writes (p.1 a b c) s c v ∧
        ∀ k, k < 64 → v.getLsbD k = p.2 ((s.x a).getLsbD k) ((s.rbv b).getLsbD k)

/-- The shifts, by the low six bits of the second operand: multiplication and division by a power of two. -/
def Obligations.ShiftStatements : Prop :=
  WritesThree .sll (fun x y => BitVec.ofNat 64 (x.toNat * 2 ^ (y.toNat % 64))) ∧
  WritesThree .srl (fun x y => BitVec.ofNat 64 (x.toNat / 2 ^ (y.toNat % 64))) ∧
  WritesThree .sra (fun x y => BitVec.ofInt 64 (x.toInt / 2 ^ (y.toNat % 64)))

/-- The comparisons write 1 or 0. -/
def Obligations.RelationalStatements : Prop :=
  WritesThree .cmpeq (fun x y => if x = y then 1#64 else 0#64) ∧
  WritesThree .cmplt (fun x y => if x.slt y then 1#64 else 0#64) ∧
  WritesThree .cmple (fun x y => if x.sle y then 1#64 else 0#64) ∧
  WritesThree .cmpult (fun x y => if x < y then 1#64 else 0#64) ∧
  WritesThree .cmpule (fun x y => if x ≤ y then 1#64 else 0#64)

/-- `mov` moves, and a conditional move moves where its test holds and leaves the destination where it does not. -/
def Obligations.MoveStatements : Prop :=
  WritesTwo .mov (fun y => y) ∧
  ∀ p ∈ ([(.cmoveq, fun x => x = 0#64), (.cmovne, fun x => x ≠ 0#64), (.cmovlt, fun x => x.msb = true),
      (.cmovle, fun x => x = 0#64 ∨ x.msb = true), (.cmovgt, fun x => x ≠ 0#64 ∧ x.msb = false),
      (.cmovge, fun x => x.msb = false), (.cmovlbc, fun x => x.toNat % 2 = 0), (.cmovlbs, fun x => x.toNat % 2 = 1)] :
        List ((Reg → RegImm → Reg → Instr) × (Word → Prop))),
    ∀ (a : Reg) (b : RegImm) (c : Reg) (s : State), (p.1 a b c).WellFormed s.launch.bwx →
      (p.2 (s.x a) → Writes (p.1 a b c) s c (s.rbv b)) ∧ (¬ p.2 (s.x a) → Writes (p.1 a b c) s c (s.x c))

/-! Control -/

/-- The conditional branches; and `br` and `bsr`, which write the address of the next instruction and go to the
address of their target, where that is not the middle of a placed statement (R360). -/
def Obligations.BranchStatements : Prop :=
  Branches .beq (fun x => x = 0#64) ∧ Branches .bne (fun x => x ≠ 0#64) ∧ Branches .blt (fun x => x.msb = true) ∧
  Branches .ble (fun x => x = 0#64 ∨ x.msb = true) ∧ Branches .bgt (fun x => x ≠ 0#64 ∧ x.msb = false) ∧
  Branches .bge (fun x => x.msb = false) ∧ Branches .blbc (fun x => x.toNat % 2 = 0) ∧
  Branches .blbs (fun x => x.toNat % 2 = 1) ∧
  ∀ mk ∈ ([.br, .bsr] : List (Reg → Target → Instr)), ∀ (d : Reg) (t : Target) (s : State) (address : Word),
    s.target t = some address → s.launch.insideStatement address = false →
    ∃ u, exec (mk d t) s = .next u ∧ u.pc = address ∧ RegHolds u d (s.pc + 4#64) ∧ SameRegsExcept [d] s u ∧
      SameMemory s u ∧ SameLock s u ∧ SameCounter s u

/-- Where a branch goes: `pc + 4 + 4 * disp` for a displacement, the label itself for a label within -1048576 to
1048575 instructions of `pc + 4`; a branch to a label farther away is refused (R77, R86). -/
def Obligations.BranchTargets : Prop :=
  ∀ s : State, s.PcAligned →
    (∀ d : BitVec 21, s.target (.disp d) = some (BitVec.ofInt 64 (s.pc.toNat + 4 + 4 * d.toInt))) ∧
    (∀ l : Label, -4194304 ≤ (Config.labelAddr l - (s.pc + 4#64)).toInt →
      (Config.labelAddr l - (s.pc + 4#64)).toInt ≤ 4194300 → s.target (.label l) = some (Config.labelAddr l)) ∧
    (∀ l : Label, (Config.labelAddr l - (s.pc + 4#64)).toInt < -4194304 ∨
        4194300 < (Config.labelAddr l - (s.pc + 4#64)).toInt →
      ∀ i : Instr, i.target? = some (.label l) → exec i s = .refused .labelOutOfRange)

/-- R236: the four jumps do one thing: the target is the source register with its two low bits cleared, read before
the return address is written; the hint changes nothing, be it bits or the address of a `jhint`. -/
def Obligations.RegisterJumps : Prop :=
  ∀ (d r : Reg) (hint : Hint) (h : BitVec 14) (s : State),
    ∀ i ∈ ([.jmp d (.reg r hint), .jsr d (.reg r hint), .ret d r h, .jsrCoroutine d r h] : List Instr),
    ∃ u, exec i s = .next u ∧ u.pc = s.x r &&& ~~~3#64 ∧ RegHolds u d (s.pc + 4#64) ∧ SameRegsExcept [d] s u ∧
      SameMemory s u ∧ SameLock s u ∧ SameCounter s u

/-- `jmp` and `jsr` with a symbolic address: `$27` receives the address, `AT` is destroyed, the return address is that
of the statement after the expansion (R247, R248; the alignment of the target is the model's, log 23). -/
def Obligations.SymbolicJumps : Prop :=
  ∀ mk ∈ ([.jmp, .jsr] : List (Reg → JumpOperand → Instr)), ∀ (d : Reg) (e : SymExpr) (s : State), d ≠ 28 →
    ∃ u, exec (mk d (.symbolic e)) s = .next u ∧ u.pc = Config.symbolAddr e &&& ~~~3#64 ∧
      RegHolds u d (s.pc + 4#64 * BitVec.ofNat 64 (Config.macroLen (mk d (.symbolic e)))) ∧
      (d ≠ 27 → u.x 27 = Config.symbolAddr e) ∧ SameRegsExcept [d, 27, 28] s u ∧ SameMemory s u ∧ SameLock s u ∧
      SameCounter s u

/-! Byte manipulation -/

/-- The extract statements, byte by byte: the low form delivers the bytes from byte `n` on, the high form those that
the quadword after it contributes (R262 to R268). -/
def Obligations.ExtractStatements : Prop :=
  (∀ p ∈ ([(.extbl, 1), (.extwl, 2), (.extll, 4), (.extql, 8)] : List ((Reg → RegImm → Reg → Instr) × Nat)),
    WritesBytes p.1 fun x y k =>
      if k < p.2 ∧ k + y.toNat % 8 < 8 then nthByte x (k + y.toNat % 8) else 0#8) ∧
  (∀ p ∈ ([(.extwh, 2), (.extlh, 4), (.extqh, 8)] : List ((Reg → RegImm → Reg → Instr) × Nat)),
    WritesBytes p.1 fun x y k =>
      if k < p.2 ∧ (8 - y.toNat % 8) % 8 ≤ k then nthByte x (k - (8 - y.toNat % 8) % 8) else 0#8)

/-- The insert and mask statements, byte by byte (R269 to R282): the low form places or clears the bytes of the field
that fall into this quadword, the high form those that fall into the next. -/
def Obligations.InsertAndMaskStatements : Prop :=
  (∀ p ∈ ([(.insbl, 1), (.inswl, 2), (.insll, 4), (.insql, 8)] : List ((Reg → RegImm → Reg → Instr) × Nat)),
    WritesBytes p.1 fun x y k =>
      if y.toNat % 8 ≤ k ∧ k < y.toNat % 8 + p.2 then nthByte x (k - y.toNat % 8) else 0#8) ∧
  (∀ p ∈ ([(.inswh, 2), (.inslh, 4), (.insqh, 8)] : List ((Reg → RegImm → Reg → Instr) × Nat)),
    WritesBytes p.1 fun x y k =>
      if k + 8 < y.toNat % 8 + p.2 then nthByte x (k + 8 - y.toNat % 8) else 0#8) ∧
  (∀ p ∈ ([(.mskbl, 1), (.mskwl, 2), (.mskll, 4), (.mskql, 8)] : List ((Reg → RegImm → Reg → Instr) × Nat)),
    WritesBytes p.1 fun x y k =>
      if y.toNat % 8 ≤ k ∧ k < y.toNat % 8 + p.2 then 0#8 else nthByte x k) ∧
  (∀ p ∈ ([(.mskwh, 2), (.msklh, 4), (.mskqh, 8)] : List ((Reg → RegImm → Reg → Instr) × Nat)),
    WritesBytes p.1 fun x y k => if k + 8 < y.toNat % 8 + p.2 then 0#8 else nthByte x k)

/-- `cmpbge` compares the bytes unsigned, `zap` and `zapnot` clear the bytes the mask selects (R261, R283, R284). -/
def Obligations.ByteCompareAndZap : Prop :=
  (∀ (a : Reg) (b : RegImm) (c : Reg) (s : State), (Instr.cmpbge a b c).WellFormed s.launch.bwx →
    ∃ v, Writes (.cmpbge a b c) s c v ∧ ∀ k, k < 64 →
      v.getLsbD k = decide (k < 8 ∧ nthByte (s.rbv b) k ≤ nthByte (s.x a) k)) ∧
  WritesBytes .zap (fun x y k => if y.getLsbD k = true then 0#8 else nthByte x k) ∧
  WritesBytes .zapnot (fun x y k => if y.getLsbD k = true then nthByte x k else 0#8)

/-- R285 (a): the unaligned datum is the low extract of the quadword that holds its first byte, or-ed with the high
extract of the quadword that holds its last byte. -/
def Obligations.UnalignedLoadComposition : Prop :=
  ∀ (s : State) (a : Word),
    extractLow 2 (s.memRead (quadOf a) 8) a ||| extractHigh 2 (s.memRead (quadOf (a + 1#64)) 8) a = s.memRead a 2 ∧
    extractLow 4 (s.memRead (quadOf a) 8) a ||| extractHigh 4 (s.memRead (quadOf (a + 3#64)) 8) a = s.memRead a 4 ∧
    extractLow 8 (s.memRead (quadOf a) 8) a ||| extractHigh 8 (s.memRead (quadOf (a + 7#64)) 8) a = s.memRead a 8

/-! Special purpose -/

/-- The no-ops (R301, R302), the barriers (R303 to R306; log 28) and the prefetch hints (R297, R298) change nothing but
the pc, and have the words of their rules; `ldq_u $31, 0($30)` does what `unop` does, by the model's reading (log 13). -/
def Obligations.StatementsWithoutEffect : Prop :=
  NoEffect .nop ∧ NoEffect .unop ∧ NoEffect .trapb ∧ NoEffect .excb ∧ NoEffect .mb ∧ NoEffect .wmb ∧
  (∀ b : Reg, NoEffect (.fetch 0 b) ∧ NoEffect (.fetchM 0 b) ∧ NoEffect (.ldqU 31 (.base 0 30))) ∧
  (∀ pc : Word, encode pc .nop = some 0x47FF041F#32 ∧ encode pc .unop = some 0x2FFE0000#32 ∧
    encode pc .trapb = some 0x63FF0000#32 ∧ encode pc .excb = some 0x63FF0400#32 ∧
    encode pc .mb = some 0x63FF4000#32 ∧ encode pc .wmb = some 0x63FF4400#32)

/-- `amask` clears the bits of the extensions that are present, `implver` gives the implementation version, and `rpcc`
the cycle counter, of whose value nothing is known (a free value, log 6; the field that holds it is the model's, log 21). -/
def Obligations.ImplementationReads : Prop :=
  (∀ (b : RegImm) (d : Reg) (s : State), (Instr.amask b d).WellFormed s.launch.bwx →
    ∃ v, Writes (.amask b d) s d v ∧
      ∀ k, k < 64 → v.getLsbD k = ((s.rbv b).getLsbD k && !s.launch.amaskPresent.getLsbD k)) ∧
  (∀ (d : Reg) (s : State), Writes (.implver d) s d (if s.launch.implver = 1#1 then 1#64 else 0#64)) ∧
  (∀ (d : Reg) (s : State), ∃ t, exec (.rpcc d) s = .next t ∧ t.pc = s.pc + 4#64 ∧ RegHolds t d t.cycleCounter ∧
    t.cycleCounter = Config.freeWord s.draws ∧ SameRegsExcept [d] s t ∧ SameMemory s t ∧ SameLock s t ∧
    t.launch = s.launch)

/-- R295, R327: `call_pal` with a 26-bit code no handler is given for ends the run with the environment call, the state
unchanged and the pc at the `call_pal`. Where `PAL` (R6) gives a handler, whatever it is, control goes to it and comes
back with the registers, the pc and the bytes it leaves; that it cannot touch the program text (R56), set the lock flag
(R58) or change the launch configuration, and how its effect is written down, is the model's (log 8). -/
def Obligations.CallPalRunsTheHandlerOrEndsTheRun : Prop :=
  ∀ (n : Nat) (s : State),
    (n < 2 ^ 26 → n ∉ s.launch.palHandlers → exec (.callPal n) s = .fault (.envCall n s)) ∧
    (n < 2 ^ 26 → n ∈ s.launch.palHandlers → ∃ t, exec (.callPal n) s = .next t ∧
      t.regs = (Config.pal n s).regs ∧ t.pc = (Config.pal n s).resume ++ 0#2 ∧
      t.lockFlag = (s.lockFlag && (Config.pal n s).keepsLock) ∧ t.lockAddr = s.lockAddr ∧ SameCounter s t ∧
      (∀ a, s.launch.isText a = true → s.mem.wf = true → t.byteAt a = s.byteAt a) ∧
      (∀ a, s.launch.isText a = false → s.mem.wf = true →
        t.byteAt a = ((Config.pal n s).stores.reverse.lookup a).getD (s.byteAt a))) ∧
    (2 ^ 26 ≤ n → exec (.callPal n) s = .refused (.illFormed .palcodeOutOfRange))
end

