-- ==== Sys2Proof/Laws/Encoding.lean ====
section
/-! SUPPORT. The fields of a word and the word of the fields: taking a word apart gives back the fields it was put
together from, and putting the fields of a word together gives the word. -/

namespace Sys2Proof

/-- A field that lies in the low part of an append. -/
theorem extract_append_low {n m : Nat} (a : BitVec n) (b : BitVec m) (lo k : Nat) (h : lo + k ≤ m) :
    (a ++ b).extractLsb' lo k = b.extractLsb' lo k := by
  ext j hj
  simp only [BitVec.getElem_extractLsb', BitVec.getLsbD_append]
  rw [if_pos (by omega)]

/-- A field that lies in the high part of an append. -/
theorem extract_append_high {n m : Nat} (a : BitVec n) (b : BitVec m) (lo k : Nat) (h : m ≤ lo) :
    (a ++ b).extractLsb' lo k = a.extractLsb' (lo - m) k := by
  ext j hj
  simp only [BitVec.getElem_extractLsb', BitVec.getLsbD_append]
  rw [if_neg (by omega)]
  congr 1
  omega

/-- The field of all bits. -/
theorem extract_all {n : Nat} (a : BitVec n) : a.extractLsb' 0 n = a := by
  ext j hj
  simp

/-- Two neighbouring fields of a word are one field. -/
theorem extract_append_extract {n : Nat} (w : BitVec n) (lo k j : Nat) :
    w.extractLsb' (lo + k) j ++ w.extractLsb' lo k = w.extractLsb' lo (j + k) := by
  ext i hi
  simp only [BitVec.getElem_append, BitVec.getElem_extractLsb']
  split
  · rfl
  · congr 1
    omega

/-- The format of the fields. -/
def Fields.format : Fields → Format
  | .pcd _ => .pcd
  | .mem _ _ _ _ => .mem
  | .mfc _ _ _ => .mfc
  | .mbr _ _ _ _ => .mbr
  | .bra _ _ _ => .bra
  | .opr _ _ _ _ _ => .opr

/-- The opcode of the fields. -/
def Fields.opcode : Fields → BitVec 6
  | .pcd _ => 0x00#6
  | .mem opcode _ _ _ => opcode
  | .mfc _ _ _ => 0x18#6
  | .mbr _ _ _ _ => 0x1a#6
  | .bra opcode _ _ => opcode
  | .opr opcode _ _ _ _ => opcode

/-- The opcode field of the word of the fields. -/
theorem opcodeField_word (f : Fields) : opcodeField f.word = f.opcode := by
  cases f with
  | opr opcode ra b func rc =>
    cases b <;>
    · simp only [opcodeField, wordField, Fields.word, Fields.opcode]
      repeat first
        | exact extract_all _
        | refine (extract_append_high _ _ _ _ (by omega)).trans ?_
  | _ =>
    simp only [opcodeField, wordField, Fields.word, Fields.opcode]
    repeat first
      | exact extract_all _
      | refine (extract_append_high _ _ _ _ (by omega)).trans ?_

/-- The operand field of the word of the fields. -/
theorem operandField_word (opcode : BitVec 6) (ra rc : Reg) (b : OperandField) (func : BitVec 7) :
    operandField (Fields.opr opcode ra b func rc).word = b := by
  cases b with
  | reg rb sbz =>
    have h : wordField (Fields.opr opcode ra (.reg rb sbz) func rc).word 12 1 = 0#1 := by
      simp only [wordField, Fields.word]
      repeat first
        | exact extract_all _
        | refine (extract_append_high _ _ _ _ (by omega)).trans ?_
        | refine (extract_append_low _ _ _ _ (by omega)).trans ?_
    rw [operandField, h, if_neg (by decide), OperandField.reg.injEq]
    simp only [wordField, Fields.word]
    constructor <;>
    · repeat first
        | exact extract_all _
        | refine (extract_append_high _ _ _ _ (by omega)).trans ?_
        | refine (extract_append_low _ _ _ _ (by omega)).trans ?_
  | literal value =>
    have h : wordField (Fields.opr opcode ra (.literal value) func rc).word 12 1 = 1#1 := by
      simp only [wordField, Fields.word]
      repeat first
        | exact extract_all _
        | refine (extract_append_high _ _ _ _ (by omega)).trans ?_
        | refine (extract_append_low _ _ _ _ (by omega)).trans ?_
    rw [operandField, h, if_pos rfl, OperandField.literal.injEq]
    simp only [wordField, Fields.word]
    repeat first
      | exact extract_all _
      | refine (extract_append_high _ _ _ _ (by omega)).trans ?_
      | refine (extract_append_low _ _ _ _ (by omega)).trans ?_

/-- Taking the word of the fields apart gives the fields. -/
theorem splitAs_word (f : Fields) : splitAs f.word f.format = f := by
  have ho := opcodeField_word f
  cases f with
  | opr opcode ra b func rc =>
    simp only [Fields.format, splitAs, operandField_word, ho, Fields.opcode, Fields.opr.injEq]
    cases b <;>
    · refine ⟨trivial, ?_, trivial, ?_, ?_⟩ <;>
      · simp only [wordField, Fields.word]
        repeat first
          | exact extract_all _
          | refine (extract_append_high _ _ _ _ (by omega)).trans ?_
          | refine (extract_append_low _ _ _ _ (by omega)).trans ?_
  | pcd palcode =>
    simp only [Fields.format, splitAs, Fields.pcd.injEq, wordField, Fields.word]
    exact (extract_append_low _ _ _ _ (by omega)).trans (extract_all _)
  | mem opcode ra rb disp =>
    simp only [Fields.format, splitAs, ho, Fields.opcode, Fields.mem.injEq]
    refine ⟨trivial, ?_, ?_, ?_⟩ <;>
    · simp only [wordField, Fields.word]
      repeat first
        | exact extract_all _
        | refine (extract_append_high _ _ _ _ (by omega)).trans ?_
        | refine (extract_append_low _ _ _ _ (by omega)).trans ?_
  | mfc ra rb func =>
    simp only [Fields.format, splitAs, Fields.mfc.injEq]
    refine ⟨?_, ?_, ?_⟩ <;>
    · simp only [wordField, Fields.word]
      repeat first
        | exact extract_all _
        | refine (extract_append_high _ _ _ _ (by omega)).trans ?_
        | refine (extract_append_low _ _ _ _ (by omega)).trans ?_
  | mbr ra rb jtype hint =>
    simp only [Fields.format, splitAs, Fields.mbr.injEq]
    refine ⟨?_, ?_, ?_, ?_⟩ <;>
    · simp only [wordField, Fields.word]
      repeat first
        | exact extract_all _
        | refine (extract_append_high _ _ _ _ (by omega)).trans ?_
        | refine (extract_append_low _ _ _ _ (by omega)).trans ?_
  | bra opcode ra disp =>
    simp only [Fields.format, splitAs, ho, Fields.opcode, Fields.bra.injEq]
    refine ⟨trivial, ?_, ?_⟩ <;>
    · simp only [wordField, Fields.word]
      repeat first
        | exact extract_all _
        | refine (extract_append_high _ _ _ _ (by omega)).trans ?_
        | refine (extract_append_low _ _ _ _ (by omega)).trans ?_

/-- The word of fields whose opcode has their format decodes to what the fields spell. -/
theorem decodeWord_word (f : Fields) (h : formatOf f.opcode = some f.format) : decodeWord f.word = f.instr := by
  rw [decodeWord, opcodeField_word, h]
  exact congrArg Fields.instr (splitAs_word f)

/-- Putting the fields of a word together gives the word, in the format its opcode has. -/
theorem word_splitAs (w : InstrWord) (format : Format) (h : formatOf (opcodeField w) = some format) :
    (splitAs w format).word = w := by
  have hbits : ∀ k : BitVec 1, k ≠ 1#1 → k = 0#1 := by decide
  cases format with
  | pcd =>
    have ho : opcodeField w = 0x00#6 := by
      revert h; generalize opcodeField w = o; revert o; decide
    simp only [splitAs, Fields.word]
    rw [← ho]
    exact (extract_append_extract w 0 26 6).trans (extract_all w)
  | mfc =>
    have ho : opcodeField w = 0x18#6 := by
      revert h; generalize opcodeField w = o; revert o; decide
    simp only [splitAs, Fields.word]
    rw [← ho]
    simp only [opcodeField, wordField]
    rw [extract_append_extract w 21 5 6, extract_append_extract w 16 5 11]
    exact (extract_append_extract w 0 16 16).trans (extract_all w)
  | mbr =>
    have ho : opcodeField w = 0x1a#6 := by
      revert h; generalize opcodeField w = o; revert o; decide
    simp only [splitAs, Fields.word]
    rw [← ho]
    simp only [opcodeField, wordField]
    rw [extract_append_extract w 21 5 6, extract_append_extract w 16 5 11, extract_append_extract w 14 2 16]
    exact (extract_append_extract w 0 14 18).trans (extract_all w)
  | mem =>
    simp only [splitAs, Fields.word, opcodeField, wordField]
    rw [extract_append_extract w 21 5 6, extract_append_extract w 16 5 11]
    exact (extract_append_extract w 0 16 16).trans (extract_all w)
  | bra =>
    simp only [splitAs, Fields.word, opcodeField, wordField]
    rw [extract_append_extract w 21 5 6]
    exact (extract_append_extract w 0 21 11).trans (extract_all w)
  | opr =>
    simp only [splitAs, operandField]
    split
    · rename_i hb
      simp only [Fields.word, opcodeField]
      rw [← hb]
      simp only [wordField]
      rw [extract_append_extract w 21 5 6, extract_append_extract w 13 8 11, extract_append_extract w 12 1 19,
        extract_append_extract w 5 7 20]
      exact (extract_append_extract w 0 5 27).trans (extract_all w)
    · rename_i hb
      simp only [Fields.word, opcodeField]
      rw [← hbits _ hb]
      simp only [wordField]
      rw [extract_append_extract w 21 5 6, extract_append_extract w 16 5 11, extract_append_extract w 13 3 16,
        extract_append_extract w 12 1 19, extract_append_extract w 5 7 20]
      exact (extract_append_extract w 0 5 27).trans (extract_all w)

end Sys2Proof
end

