-- ==== Sys2Proof/Laws/State.lean ====
section
/-! SUPPORT. The fields of every named update of the state, so that no proof unfolds a record update. -/

namespace Sys2Proof.Machine

@[simp] theorem State.setPc_regs (s : State) (a : Word) : (s.setPc a).regs = s.regs := rfl
@[simp] theorem State.setPc_pc (s : State) (a : Word) : (s.setPc a).pc = a := rfl
@[simp] theorem State.setPc_lockFlag (s : State) (a : Word) : (s.setPc a).lockFlag = s.lockFlag := rfl
@[simp] theorem State.setPc_lockAddr (s : State) (a : Word) : (s.setPc a).lockAddr = s.lockAddr := rfl
@[simp] theorem State.setPc_cycleCounter (s : State) (a : Word) : (s.setPc a).cycleCounter = s.cycleCounter := rfl
@[simp] theorem State.setPc_mem (s : State) (a : Word) : (s.setPc a).mem = s.mem := rfl
@[simp] theorem State.setPc_launch (s : State) (a : Word) : (s.setPc a).launch = s.launch := rfl
@[simp] theorem State.setPc_draws (s : State) (a : Word) : (s.setPc a).draws = s.draws := rfl

@[simp] theorem State.drew_regs (s : State) : (s.drew).regs = s.regs := rfl
@[simp] theorem State.drew_pc (s : State) : (s.drew).pc = s.pc := rfl
@[simp] theorem State.drew_lockFlag (s : State) : (s.drew).lockFlag = s.lockFlag := rfl
@[simp] theorem State.drew_lockAddr (s : State) : (s.drew).lockAddr = s.lockAddr := rfl
@[simp] theorem State.drew_cycleCounter (s : State) : (s.drew).cycleCounter = s.cycleCounter := rfl
@[simp] theorem State.drew_mem (s : State) : (s.drew).mem = s.mem := rfl
@[simp] theorem State.drew_launch (s : State) : (s.drew).launch = s.launch := rfl
@[simp] theorem State.drew_draws (s : State) : (s.drew).draws = s.draws + 1 := rfl

@[simp] theorem State.setByte_regs (s : State) (a : Word) (v : Byte) : (s.setByte a v).regs = s.regs := rfl
@[simp] theorem State.setByte_pc (s : State) (a : Word) (v : Byte) : (s.setByte a v).pc = s.pc := rfl
@[simp] theorem State.setByte_lockFlag (s : State) (a : Word) (v : Byte) : (s.setByte a v).lockFlag = s.lockFlag := rfl
@[simp] theorem State.setByte_lockAddr (s : State) (a : Word) (v : Byte) : (s.setByte a v).lockAddr = s.lockAddr := rfl
@[simp] theorem State.setByte_cycleCounter (s : State) (a : Word) (v : Byte) : (s.setByte a v).cycleCounter = s.cycleCounter := rfl
@[simp] theorem State.setByte_mem (s : State) (a : Word) (v : Byte) : (s.setByte a v).mem = s.mem.setByte a.toNat v := rfl
@[simp] theorem State.setByte_launch (s : State) (a : Word) (v : Byte) : (s.setByte a v).launch = s.launch := rfl
@[simp] theorem State.setByte_draws (s : State) (a : Word) (v : Byte) : (s.setByte a v).draws = s.draws := rfl

@[simp] theorem State.setLock_regs (s : State) (a : Word) : (s.setLock a).regs = s.regs := rfl
@[simp] theorem State.setLock_pc (s : State) (a : Word) : (s.setLock a).pc = s.pc := rfl
@[simp] theorem State.setLock_lockFlag (s : State) (a : Word) : (s.setLock a).lockFlag = true := rfl
@[simp] theorem State.setLock_lockAddr (s : State) (a : Word) : (s.setLock a).lockAddr = a := rfl
@[simp] theorem State.setLock_cycleCounter (s : State) (a : Word) : (s.setLock a).cycleCounter = s.cycleCounter := rfl
@[simp] theorem State.setLock_mem (s : State) (a : Word) : (s.setLock a).mem = s.mem := rfl
@[simp] theorem State.setLock_launch (s : State) (a : Word) : (s.setLock a).launch = s.launch := rfl
@[simp] theorem State.setLock_draws (s : State) (a : Word) : (s.setLock a).draws = s.draws := rfl

@[simp] theorem State.clearLock_regs (s : State) : (s.clearLock).regs = s.regs := rfl
@[simp] theorem State.clearLock_pc (s : State) : (s.clearLock).pc = s.pc := rfl
@[simp] theorem State.clearLock_lockFlag (s : State) : (s.clearLock).lockFlag = false := rfl
@[simp] theorem State.clearLock_lockAddr (s : State) : (s.clearLock).lockAddr = s.lockAddr := rfl
@[simp] theorem State.clearLock_cycleCounter (s : State) : (s.clearLock).cycleCounter = s.cycleCounter := rfl
@[simp] theorem State.clearLock_mem (s : State) : (s.clearLock).mem = s.mem := rfl
@[simp] theorem State.clearLock_launch (s : State) : (s.clearLock).launch = s.launch := rfl
@[simp] theorem State.clearLock_draws (s : State) : (s.clearLock).draws = s.draws := rfl

@[simp] theorem State.environment_regs (s : State) : (s.environment).regs = s.regs := rfl
@[simp] theorem State.environment_pc (s : State) : (s.environment).pc = s.pc := rfl
@[simp] theorem State.environment_lockFlag (s : State) : (s.environment).lockFlag = (s.lockFlag && Config.environmentKeepsLock s.draws) := rfl
@[simp] theorem State.environment_lockAddr (s : State) : (s.environment).lockAddr = s.lockAddr := rfl
@[simp] theorem State.environment_cycleCounter (s : State) : (s.environment).cycleCounter = s.cycleCounter := rfl
@[simp] theorem State.environment_mem (s : State) : (s.environment).mem = s.mem := rfl
@[simp] theorem State.environment_launch (s : State) : (s.environment).launch = s.launch := rfl
@[simp] theorem State.environment_draws (s : State) : (s.environment).draws = s.draws + 1 := rfl

@[simp] theorem State.readCounter_regs (s : State) : (s.readCounter).regs = s.regs := rfl
@[simp] theorem State.readCounter_pc (s : State) : (s.readCounter).pc = s.pc := rfl
@[simp] theorem State.readCounter_lockFlag (s : State) : (s.readCounter).lockFlag = s.lockFlag := rfl
@[simp] theorem State.readCounter_lockAddr (s : State) : (s.readCounter).lockAddr = s.lockAddr := rfl
@[simp] theorem State.readCounter_cycleCounter (s : State) : (s.readCounter).cycleCounter = s.drawn := rfl
@[simp] theorem State.readCounter_mem (s : State) : (s.readCounter).mem = s.mem := rfl
@[simp] theorem State.readCounter_launch (s : State) : (s.readCounter).launch = s.launch := rfl
@[simp] theorem State.readCounter_draws (s : State) : (s.readCounter).draws = s.draws + 1 := rfl

@[simp] theorem State.setX_pc (s : State) (r : Reg) (v : Word) : (s.setX r v).pc = s.pc := by
  unfold State.setX; split <;> rfl
@[simp] theorem State.setX_lockFlag (s : State) (r : Reg) (v : Word) : (s.setX r v).lockFlag = s.lockFlag := by
  unfold State.setX; split <;> rfl
@[simp] theorem State.setX_lockAddr (s : State) (r : Reg) (v : Word) : (s.setX r v).lockAddr = s.lockAddr := by
  unfold State.setX; split <;> rfl
@[simp] theorem State.setX_cycleCounter (s : State) (r : Reg) (v : Word) : (s.setX r v).cycleCounter = s.cycleCounter := by
  unfold State.setX; split <;> rfl
@[simp] theorem State.setX_mem (s : State) (r : Reg) (v : Word) : (s.setX r v).mem = s.mem := by
  unfold State.setX; split <;> rfl
@[simp] theorem State.setX_launch (s : State) (r : Reg) (v : Word) : (s.setX r v).launch = s.launch := by
  unfold State.setX; split <;> rfl
@[simp] theorem State.setX_draws (s : State) (r : Reg) (v : Word) : (s.setX r v).draws = s.draws := by
  unfold State.setX; split <;> rfl

@[simp] theorem State.clobber_pc (s : State) (l : List Reg) : (s.clobber l).pc = s.pc := by
  induction l generalizing s with
  | nil => rfl
  | cons r rest ih => simp [State.clobber, ih]
@[simp] theorem State.clobber_lockFlag (s : State) (l : List Reg) : (s.clobber l).lockFlag = s.lockFlag := by
  induction l generalizing s with
  | nil => rfl
  | cons r rest ih => simp [State.clobber, ih]
@[simp] theorem State.clobber_lockAddr (s : State) (l : List Reg) : (s.clobber l).lockAddr = s.lockAddr := by
  induction l generalizing s with
  | nil => rfl
  | cons r rest ih => simp [State.clobber, ih]
@[simp] theorem State.clobber_cycleCounter (s : State) (l : List Reg) : (s.clobber l).cycleCounter = s.cycleCounter := by
  induction l generalizing s with
  | nil => rfl
  | cons r rest ih => simp [State.clobber, ih]
@[simp] theorem State.clobber_mem (s : State) (l : List Reg) : (s.clobber l).mem = s.mem := by
  induction l generalizing s with
  | nil => rfl
  | cons r rest ih => simp [State.clobber, ih]
@[simp] theorem State.clobber_launch (s : State) (l : List Reg) : (s.clobber l).launch = s.launch := by
  induction l generalizing s with
  | nil => rfl
  | cons r rest ih => simp [State.clobber, ih]

@[simp] theorem State.memWrite_regs (s : State) (a v : Word) (n : Nat) : (s.memWrite a v n).regs = s.regs := by
  induction n generalizing s a v with
  | zero => rfl
  | succ n ih => simp [State.memWrite, ih]
@[simp] theorem State.memWrite_pc (s : State) (a v : Word) (n : Nat) : (s.memWrite a v n).pc = s.pc := by
  induction n generalizing s a v with
  | zero => rfl
  | succ n ih => simp [State.memWrite, ih]
@[simp] theorem State.memWrite_lockFlag (s : State) (a v : Word) (n : Nat) : (s.memWrite a v n).lockFlag = s.lockFlag := by
  induction n generalizing s a v with
  | zero => rfl
  | succ n ih => simp [State.memWrite, ih]
@[simp] theorem State.memWrite_lockAddr (s : State) (a v : Word) (n : Nat) : (s.memWrite a v n).lockAddr = s.lockAddr := by
  induction n generalizing s a v with
  | zero => rfl
  | succ n ih => simp [State.memWrite, ih]
@[simp] theorem State.memWrite_cycleCounter (s : State) (a v : Word) (n : Nat) : (s.memWrite a v n).cycleCounter = s.cycleCounter := by
  induction n generalizing s a v with
  | zero => rfl
  | succ n ih => simp [State.memWrite, ih]
@[simp] theorem State.memWrite_launch (s : State) (a v : Word) (n : Nat) : (s.memWrite a v n).launch = s.launch := by
  induction n generalizing s a v with
  | zero => rfl
  | succ n ih => simp [State.memWrite, ih]
@[simp] theorem State.memWrite_draws (s : State) (a v : Word) (n : Nat) : (s.memWrite a v n).draws = s.draws := by
  induction n generalizing s a v with
  | zero => rfl
  | succ n ih => simp [State.memWrite, ih]

@[simp] theorem State.clobberTemps_pc (s : State) (i : Instr) : (s.clobberTemps i).pc = s.pc := by
  simp [State.clobberTemps]
@[simp] theorem State.clobberTemps_lockFlag (s : State) (i : Instr) : (s.clobberTemps i).lockFlag = s.lockFlag := by
  simp [State.clobberTemps]
@[simp] theorem State.clobberTemps_lockAddr (s : State) (i : Instr) : (s.clobberTemps i).lockAddr = s.lockAddr := by
  simp [State.clobberTemps]
@[simp] theorem State.clobberTemps_cycleCounter (s : State) (i : Instr) : (s.clobberTemps i).cycleCounter = s.cycleCounter := by
  simp [State.clobberTemps]
@[simp] theorem State.clobberTemps_mem (s : State) (i : Instr) : (s.clobberTemps i).mem = s.mem := by
  simp [State.clobberTemps]
@[simp] theorem State.clobberTemps_launch (s : State) (i : Instr) : (s.clobberTemps i).launch = s.launch := by
  simp [State.clobberTemps]

@[simp] theorem State.storeBytes_regs (s : State) (a : Word) (l : List Byte) : (s.storeBytes a l).regs = s.regs := by
  induction l generalizing s a with
  | nil => rfl
  | cons v rest ih => simp [State.storeBytes, ih]
@[simp] theorem State.storeBytes_pc (s : State) (a : Word) (l : List Byte) : (s.storeBytes a l).pc = s.pc := by
  induction l generalizing s a with
  | nil => rfl
  | cons v rest ih => simp [State.storeBytes, ih]
@[simp] theorem State.storeBytes_lockFlag (s : State) (a : Word) (l : List Byte) : (s.storeBytes a l).lockFlag = s.lockFlag := by
  induction l generalizing s a with
  | nil => rfl
  | cons v rest ih => simp [State.storeBytes, ih]
@[simp] theorem State.storeBytes_lockAddr (s : State) (a : Word) (l : List Byte) : (s.storeBytes a l).lockAddr = s.lockAddr := by
  induction l generalizing s a with
  | nil => rfl
  | cons v rest ih => simp [State.storeBytes, ih]
@[simp] theorem State.storeBytes_cycleCounter (s : State) (a : Word) (l : List Byte) : (s.storeBytes a l).cycleCounter = s.cycleCounter := by
  induction l generalizing s a with
  | nil => rfl
  | cons v rest ih => simp [State.storeBytes, ih]
@[simp] theorem State.storeBytes_launch (s : State) (a : Word) (l : List Byte) : (s.storeBytes a l).launch = s.launch := by
  induction l generalizing s a with
  | nil => rfl
  | cons v rest ih => simp [State.storeBytes, ih]
@[simp] theorem State.storeBytes_draws (s : State) (a : Word) (l : List Byte) : (s.storeBytes a l).draws = s.draws := by
  induction l generalizing s a with
  | nil => rfl
  | cons v rest ih => simp [State.storeBytes, ih]

@[simp] theorem State.palStores_regs (s : State) (l : List (Word × Byte)) : (s.palStores l).regs = s.regs := by
  induction l generalizing s with
  | nil => rfl
  | cons p rest ih => obtain ⟨a, v⟩ := p; simp only [State.palStores, ih]; split <;> rfl
@[simp] theorem State.palStores_pc (s : State) (l : List (Word × Byte)) : (s.palStores l).pc = s.pc := by
  induction l generalizing s with
  | nil => rfl
  | cons p rest ih => obtain ⟨a, v⟩ := p; simp only [State.palStores, ih]; split <;> rfl
@[simp] theorem State.palStores_lockFlag (s : State) (l : List (Word × Byte)) : (s.palStores l).lockFlag = s.lockFlag := by
  induction l generalizing s with
  | nil => rfl
  | cons p rest ih => obtain ⟨a, v⟩ := p; simp only [State.palStores, ih]; split <;> rfl
@[simp] theorem State.palStores_lockAddr (s : State) (l : List (Word × Byte)) : (s.palStores l).lockAddr = s.lockAddr := by
  induction l generalizing s with
  | nil => rfl
  | cons p rest ih => obtain ⟨a, v⟩ := p; simp only [State.palStores, ih]; split <;> rfl
@[simp] theorem State.palStores_cycleCounter (s : State) (l : List (Word × Byte)) : (s.palStores l).cycleCounter = s.cycleCounter := by
  induction l generalizing s with
  | nil => rfl
  | cons p rest ih => obtain ⟨a, v⟩ := p; simp only [State.palStores, ih]; split <;> rfl
@[simp] theorem State.palStores_launch (s : State) (l : List (Word × Byte)) : (s.palStores l).launch = s.launch := by
  induction l generalizing s with
  | nil => rfl
  | cons p rest ih => obtain ⟨a, v⟩ := p; simp only [State.palStores, ih]; split <;> rfl
@[simp] theorem State.palStores_draws (s : State) (l : List (Word × Byte)) : (s.palStores l).draws = s.draws := by
  induction l generalizing s with
  | nil => rfl
  | cons p rest ih => obtain ⟨a, v⟩ := p; simp only [State.palStores, ih]; split <;> rfl

@[simp] theorem State.palReturn_regs (s : State) (p : Config.PalResult) : (s.palReturn p).regs = p.regs := rfl
@[simp] theorem State.palReturn_pc (s : State) (p : Config.PalResult) : (s.palReturn p).pc = p.resume ++ 0#2 := rfl
@[simp] theorem State.palReturn_lockFlag (s : State) (p : Config.PalResult) : (s.palReturn p).lockFlag = (s.lockFlag && p.keepsLock) := rfl
@[simp] theorem State.palReturn_mem (s : State) (p : Config.PalResult) : (s.palReturn p).mem = (s.palStores p.stores).mem := rfl
@[simp] theorem State.palReturn_lockAddr (s : State) (p : Config.PalResult) : (s.palReturn p).lockAddr = s.lockAddr := by
  simp [State.palReturn]
@[simp] theorem State.palReturn_cycleCounter (s : State) (p : Config.PalResult) : (s.palReturn p).cycleCounter = s.cycleCounter := by
  simp [State.palReturn]
@[simp] theorem State.palReturn_launch (s : State) (p : Config.PalResult) : (s.palReturn p).launch = s.launch := by
  simp [State.palReturn]
@[simp] theorem State.palReturn_draws (s : State) (p : Config.PalResult) : (s.palReturn p).draws = s.draws := by
  simp [State.palReturn]

@[simp] theorem State.advance_regs (s : State) (i : Instr) : (s.advance i).regs = s.regs := rfl
@[simp] theorem State.advance_pc (s : State) (i : Instr) : (s.advance i).pc = s.npc i := rfl
@[simp] theorem State.advance_lockFlag (s : State) (i : Instr) : (s.advance i).lockFlag = s.lockFlag := rfl
@[simp] theorem State.advance_lockAddr (s : State) (i : Instr) : (s.advance i).lockAddr = s.lockAddr := rfl
@[simp] theorem State.advance_cycleCounter (s : State) (i : Instr) : (s.advance i).cycleCounter = s.cycleCounter := rfl
@[simp] theorem State.advance_mem (s : State) (i : Instr) : (s.advance i).mem = s.mem := rfl
@[simp] theorem State.advance_launch (s : State) (i : Instr) : (s.advance i).launch = s.launch := rfl
@[simp] theorem State.advance_draws (s : State) (i : Instr) : (s.advance i).draws = s.draws := rfl

/-! Reading a register after an update -/

/-- Register 31 reads as zero (spec/10_state.md R21). -/
@[simp] theorem State.x_31 (s : State) : s.x 31#5 = 0#64 := rfl

/-- A register is read from `regs` alone. -/
theorem State.x_congr {s t : State} (h : t.regs = s.regs) (r : Reg) : t.x r = s.x r := by
  simp [State.x, h]

@[simp] theorem State.x_setPc (s : State) (a : Word) (r : Reg) : (s.setPc a).x r = s.x r := rfl
@[simp] theorem State.x_advance (s : State) (i : Instr) (r : Reg) : (s.advance i).x r = s.x r := rfl
@[simp] theorem State.x_drew (s : State) (r : Reg) : s.drew.x r = s.x r := rfl
@[simp] theorem State.x_setByte (s : State) (a : Word) (v : Byte) (r : Reg) : (s.setByte a v).x r = s.x r := rfl
@[simp] theorem State.x_setLock (s : State) (a : Word) (r : Reg) : (s.setLock a).x r = s.x r := rfl
@[simp] theorem State.x_clearLock (s : State) (r : Reg) : s.clearLock.x r = s.x r := rfl
@[simp] theorem State.x_environment (s : State) (r : Reg) : s.environment.x r = s.x r := rfl
@[simp] theorem State.x_readCounter (s : State) (r : Reg) : s.readCounter.x r = s.x r := rfl
@[simp] theorem State.x_memWrite (s : State) (a v : Word) (n : Nat) (r : Reg) : (s.memWrite a v n).x r = s.x r :=
  State.x_congr (by simp) r

/-- Reading any register after a write: `$31` discards it (R21). -/
theorem State.x_setX (s : State) (d r : Reg) (v : Word) :
    (s.setX d v).x r = if r = d ∧ d ≠ 31#5 then v else s.x r := by
  have h31 : d = 31#5 ↔ ¬ d.toNat < 31 := by
    constructor <;> intro h
    · subst h; decide
    · exact BitVec.eq_of_toNat_eq (by have := d.isLt; simp; omega)
  unfold State.setX State.x
  by_cases hd : d.toNat < 31
  · by_cases hr : r.toNat < 31
    · simp only [hd, hr, dite_true, Vector.getElem_set, ne_eq, h31, not_true_eq_false, not_false_eq_true, and_true]
      by_cases e : d = r
      · subst e; simp
      · have : d.toNat ≠ r.toNat := fun h => e (BitVec.eq_of_toNat_eq h)
        simp [this, Ne.symm e]
    · have : r ≠ d := by rintro rfl; exact hr hd
      simp [hr, this]
  · simp [h31, hd]

/-- The register just written. -/
theorem State.x_setX_self (s : State) (d : Reg) (v : Word) : (s.setX d v).x d = if d = 31#5 then 0#64 else v := by
  rw [State.x_setX]
  by_cases h : d = 31#5
  · subst h; simp
  · simp [h]

/-- Another register. -/
theorem State.x_setX_of_ne (s : State) {d r : Reg} (v : Word) (h : r ≠ d) : (s.setX d v).x r = s.x r := by
  simp [State.x_setX, h]

/-- A register that is not destroyed keeps its value (spec/00_scope.md R12). -/
theorem State.x_clobber_of_notMem (s : State) (l : List Reg) (r : Reg) (h : r ∉ l) : (s.clobber l).x r = s.x r := by
  induction l generalizing s with
  | nil => rfl
  | cons q rest ih =>
    simp only [List.mem_cons, not_or] at h
    rw [State.clobber, ih _ h.2, State.x_drew, State.x_setX_of_ne _ _ h.1]

/-- A register that is no temporary of the statement keeps its value (R81). -/
theorem State.x_clobberTemps_of_notMem (s : State) (i : Instr) (r : Reg) (h : r ∉ i.temporaries s.launch.bwx) :
    (s.clobberTemps i).x r = s.x r := State.x_clobber_of_notMem s _ r h

end Sys2Proof.Machine
end

