-- ==== Sys2Proof/Laws/Memory.lean ====
section
/-! SUPPORT. The laws of memory: the canonical form is kept by every operation, a read after a write to the same place
gives the value written, and a write leaves every other place alone. -/

namespace Sys2Proof.Machine

theorem Memory.wfFrom_cons (low key : Nat) (v : Byte) (rest : Memory) :
    Memory.wfFrom low ((key, v) :: rest) = true ↔
      low ≤ key ∧ key < 2 ^ 64 ∧ v ≠ 0#8 ∧ Memory.wfFrom (key + 1) rest = true := by
  simp [Memory.wfFrom, and_assoc]

/-- A memory of higher addresses is one of lower ones. -/
theorem Memory.wfFrom_mono {low low' : Nat} (h : low' ≤ low) (m : Memory) (w : Memory.wfFrom low m = true) :
    Memory.wfFrom low' m = true := by
  cases m with
  | nil => rfl
  | cons c rest =>
    obtain ⟨key, v⟩ := c
    rw [Memory.wfFrom_cons] at *
    exact ⟨by omega, w.2⟩

/-- Below its first address a memory reads as zero. -/
theorem Memory.byte_of_lt {low : Nat} (m : Memory) (w : Memory.wfFrom low m = true) {a : Nat} (h : a < low) :
    m.byte a = 0#8 := by
  induction m generalizing low with
  | nil => rfl
  | cons c rest ih =>
    obtain ⟨key, v⟩ := c
    rw [Memory.wfFrom_cons] at w
    have hk : key ≠ a := by omega
    simp only [Memory.byte, hk, if_false]
    exact ih w.2.2.2 (by omega)

/-- One byte in front of a memory keeps the form. -/
theorem Memory.wfFrom_cons' {low a : Nat} (h : low ≤ a) (ha : a < 2 ^ 64) (v : Byte) (m : Memory)
    (w : Memory.wfFrom (a + 1) m = true) : Memory.wfFrom low (Memory.cons a v m) = true := by
  unfold Memory.cons
  split
  · exact Memory.wfFrom_mono (by omega) m w
  · rename_i hv
    rw [Memory.wfFrom_cons]
    exact ⟨h, ha, hv, w⟩

/-- What one byte in front of a memory reads as. -/
theorem Memory.byte_cons {a : Nat} (v : Byte) (m : Memory) (w : Memory.wfFrom (a + 1) m = true) (b : Nat) :
    (Memory.cons a v m).byte b = if b = a then v else m.byte b := by
  unfold Memory.cons
  split
  · rename_i hv
    by_cases hb : b = a
    · subst hb; simp [hv, Memory.byte_of_lt m w (by omega : b < b + 1)]
    · simp [hb]
  · simp [Memory.byte, eq_comm]

/-- Storing a byte keeps the canonical form. -/
theorem Memory.wfFrom_setByte {low a : Nat} (h : low ≤ a) (ha : a < 2 ^ 64) (v : Byte) (m : Memory)
    (w : Memory.wfFrom low m = true) : Memory.wfFrom low (m.setByte a v) = true := by
  induction m generalizing low with
  | nil => exact Memory.wfFrom_cons' h ha v [] rfl
  | cons c rest ih =>
    obtain ⟨key, old⟩ := c
    rw [Memory.wfFrom_cons] at w
    simp only [Memory.setByte]
    split
    · exact Memory.wfFrom_cons' h ha v _ (by rw [Memory.wfFrom_cons]; exact ⟨by omega, w.2⟩)
    · split
      · rename_i _ e; subst e; exact Memory.wfFrom_cons' h ha v rest w.2.2.2
      · rw [Memory.wfFrom_cons]; exact ⟨w.1, w.2.1, w.2.2.1, ih (by omega) w.2.2.2⟩

/-- Reading after storing a byte. -/
theorem Memory.byte_setByte_from {low a : Nat} (v : Byte) (m : Memory) (w : Memory.wfFrom low m = true) (b : Nat) :
    (m.setByte a v).byte b = if b = a then v else m.byte b := by
  induction m generalizing low with
  | nil => exact Memory.byte_cons v [] rfl b
  | cons c rest ih =>
    obtain ⟨key, old⟩ := c
    rw [Memory.wfFrom_cons] at w
    simp only [Memory.setByte]
    split
    · exact Memory.byte_cons v _ (by rw [Memory.wfFrom_cons]; exact ⟨by omega, w.2⟩) b
    · split
      · rename_i _ e
        subst e
        rw [Memory.byte_cons v rest w.2.2.2]
        by_cases hb : b = a
        · simp [hb]
        · simp [Memory.byte, hb, Ne.symm hb]
      · rename_i h1 h2
        simp only [Memory.byte]
        rw [ih w.2.2.2]
        by_cases hk : key = b
        · have : b ≠ a := by omega
          simp [hk, this]
        · simp [hk]

/-- Storing a byte keeps the canonical form. -/
theorem Memory.wf_setByte {a : Nat} (ha : a < 2 ^ 64) (v : Byte) (m : Memory) (w : m.wf = true) :
    (m.setByte a v).wf = true := Memory.wfFrom_setByte (Nat.zero_le a) ha v m w

/-- Reading after storing a byte, in a memory of canonical form. -/
theorem Memory.byte_setByte (a : Nat) (v : Byte) (m : Memory) (w : m.wf = true) (b : Nat) :
    (m.setByte a v).byte b = if b = a then v else m.byte b := Memory.byte_setByte_from v m w b

/-! The state's memory -/

/-- A byte is read from `mem` alone. -/
theorem State.byteAt_congr {s t : State} (h : t.mem = s.mem) (a : Word) : t.byteAt a = s.byteAt a := by
  simp [State.byteAt, h]

@[simp] theorem State.byteAt_setX (s : State) (r : Reg) (v a : Word) : (s.setX r v).byteAt a = s.byteAt a :=
  State.byteAt_congr (by simp) a
@[simp] theorem State.byteAt_setPc (s : State) (p a : Word) : (s.setPc p).byteAt a = s.byteAt a := rfl
@[simp] theorem State.byteAt_advance (s : State) (i : Instr) (a : Word) : (s.advance i).byteAt a = s.byteAt a := rfl
@[simp] theorem State.byteAt_drew (s : State) (a : Word) : s.drew.byteAt a = s.byteAt a := rfl
@[simp] theorem State.byteAt_setLock (s : State) (p a : Word) : (s.setLock p).byteAt a = s.byteAt a := rfl
@[simp] theorem State.byteAt_clearLock (s : State) (a : Word) : s.clearLock.byteAt a = s.byteAt a := rfl
@[simp] theorem State.byteAt_environment (s : State) (a : Word) : s.environment.byteAt a = s.byteAt a := rfl
@[simp] theorem State.byteAt_readCounter (s : State) (a : Word) : s.readCounter.byteAt a = s.byteAt a := rfl
@[simp] theorem State.byteAt_clobber (s : State) (l : List Reg) (a : Word) : (s.clobber l).byteAt a = s.byteAt a :=
  State.byteAt_congr (by simp) a
@[simp] theorem State.byteAt_clobberTemps (s : State) (i : Instr) (a : Word) :
    (s.clobberTemps i).byteAt a = s.byteAt a := State.byteAt_congr (by simp) a

/-- One byte stored: the form is kept. -/
theorem State.wf_setByte (s : State) (a : Word) (v : Byte) (w : s.mem.wf = true) : (s.setByte a v).mem.wf = true :=
  Memory.wf_setByte a.isLt v s.mem w

/-- One byte stored: what any address reads as. -/
theorem State.byteAt_setByte (s : State) (a b : Word) (v : Byte) (w : s.mem.wf = true) :
    (s.setByte a v).byteAt b = if b = a then v else s.byteAt b := by
  simp only [State.byteAt, State.setByte, Memory.byte_setByte _ _ _ w, BitVec.toNat_inj]

/-- `MemWrite` keeps the form. -/
theorem State.wf_memWrite (s : State) (a v : Word) (n : Nat) (w : s.mem.wf = true) :
    (s.memWrite a v n).mem.wf = true := by
  induction n generalizing s a v with
  | zero => exact w
  | succ n ih => exact ih _ _ _ (s.wf_setByte a _ w)

/-- Bytes stored one after the other keep the form. -/
theorem State.wf_storeBytes (s : State) (a : Word) (l : List Byte) (w : s.mem.wf = true) :
    (s.storeBytes a l).mem.wf = true := by
  induction l generalizing s a with
  | nil => exact w
  | cons v rest ih => exact ih _ _ (s.wf_setByte a v w)

/-- What a handler of `call_pal` stores keeps the form. -/
theorem State.wf_palStores (s : State) (l : List (Word × Byte)) (w : s.mem.wf = true) :
    (s.palStores l).mem.wf = true := by
  induction l generalizing s with
  | nil => exact w
  | cons p rest ih =>
    obtain ⟨a, v⟩ := p
    refine ih _ ?_
    split
    · exact w
    · exact s.wf_setByte a v w

/-- What a handler of `call_pal` leaves in a byte: the last value it stored there, and nothing in the program text
(spec/20_memory.md R56). -/
theorem State.byteAt_palStores (s : State) (l : List (Word × Byte)) (w : s.mem.wf = true) (a : Word) :
    (s.palStores l).byteAt a = if s.launch.isText a then s.byteAt a else (l.reverse.lookup a).getD (s.byteAt a) := by
  induction l generalizing s with
  | nil => simp [State.palStores]
  | cons p rest ih =>
    obtain ⟨b, v⟩ := p
    rw [State.palStores, List.reverse_cons, List.lookup_append]
    by_cases hb : s.launch.isText b = true
    · rw [if_pos hb, ih s w]
      by_cases ha : s.launch.isText a = true
      · simp [ha]
      · have hne : (a == b) = false := by simpa using fun e : a = b => ha (e ▸ hb)
        simp [ha, List.lookup, hne]
    · rw [if_neg hb, ih _ (s.wf_setByte b v w), State.byteAt_setByte s b a v w, State.setByte_launch]
      by_cases ha : s.launch.isText a = true
      · have hne : a ≠ b := fun e => hb (e ▸ ha)
        simp [ha, hne]
      · by_cases e : a = b
        · subst e; cases h : rest.reverse.lookup a <;> simp [ha, List.lookup]
        · have hne : (a == b) = false := by simpa using e
          cases h : rest.reverse.lookup a <;> simp [ha, e, List.lookup, hne]

/-- `MemWrite` leaves every address outside its bytes alone (spec/20_memory.md R44). -/
theorem State.byteAt_memWrite_outside (s : State) (a v : Word) (n : Nat) (w : s.mem.wf = true) (b : Word)
    (hb : n ≤ (b - a).toNat) : (s.memWrite a v n).byteAt b = s.byteAt b := by
  induction n generalizing s a v with
  | zero => rfl
  | succ n ih =>
    have hne : b ≠ a := by rintro rfl; simp at hb
    have hstep : n ≤ (b - (a + 1)).toNat := by bv_omega
    rw [State.memWrite, ih _ _ _ (s.wf_setByte a _ w) hstep, State.byteAt_setByte _ _ _ _ w, if_neg hne]

/-- `MemWrite` stores byte `k` of the value at the address plus `k` (R42). -/
theorem State.byteAt_memWrite (s : State) (a v : Word) (n : Nat) (w : s.mem.wf = true) (hn : n ≤ 8) (k : Nat)
    (hk : k < n) : (s.memWrite a v n).byteAt (a + BitVec.ofNat 64 k) = v.extractLsb' (8 * k) 8 := by
  induction n generalizing s a v k with
  | zero => omega
  | succ n ih =>
    rw [State.memWrite]
    cases k with
    | zero =>
      rw [show a + BitVec.ofNat 64 0 = a by simp, State.byteAt_memWrite_outside _ _ _ _ (s.wf_setByte a _ w) _ (by bv_omega),
        State.byteAt_setByte _ _ _ _ w, if_pos rfl]
      ext j hj
      simp
    | succ k =>
      have e : a + BitVec.ofNat 64 (k + 1) = a + 1 + BitVec.ofNat 64 k := by
        rw [BitVec.add_assoc]; congr 1; bv_omega
      rw [e, ih _ _ _ (s.wf_setByte a _ w) (by omega) k (by omega)]
      ext j hj
      simp only [BitVec.getElem_extractLsb', BitVec.getLsbD_ushiftRight]
      congr 1; omega

/-- Byte `k` of `MemRead` is the byte at the address plus `k` (R42). -/
theorem State.memRead_byte (s : State) (a : Word) (n k : Nat) (hn : n ≤ 8) (hk : k < n) :
    (s.memRead a n).extractLsb' (8 * k) 8 = s.byteAt (a + BitVec.ofNat 64 k) := by
  induction n generalizing a k with
  | zero => omega
  | succ n ih =>
    rw [State.memRead]
    cases k with
    | zero =>
      rw [show a + BitVec.ofNat 64 0 = a by simp]
      ext j hj
      have h8 : j < 8 := hj
      have h64 : j < 64 := by omega
      simp [h8, h64]
    | succ k =>
      have e : a + BitVec.ofNat 64 (k + 1) = a + 1 + BitVec.ofNat 64 k := by
        rw [BitVec.add_assoc]; congr 1; bv_omega
      rw [e, ← ih (a + 1) k (by omega) (by omega)]
      ext j hj
      simp only [BitVec.getElem_extractLsb', BitVec.getLsbD_or, BitVec.getLsbD_shiftLeft, BitVec.getLsbD_setWidth]
      have h1 : ¬ (8 * (k + 1) + j < 8) := by omega
      have h2 : (8 * (k + 1) + j) < 64 := by omega
      have h3 : 8 * (k + 1) + j - 8 = 8 * k + j := by omega
      have h4 : (s.byteAt a).getLsbD (8 * (k + 1) + j) = false := BitVec.getLsbD_of_ge _ _ (by omega)
      simp [h1, h2, h3, h4]

/-- `MemRead` of `n` bytes is below `2 ^ (8 n)`: it is the zero extension of the bytes read. -/
theorem State.memRead_high (s : State) (a : Word) (n j : Nat) (hj : 8 * n ≤ j) :
    (s.memRead a n).getLsbD j = false := by
  induction n generalizing a j with
  | zero => simp [State.memRead]
  | succ n ih =>
    rw [State.memRead]
    simp only [BitVec.getLsbD_or, BitVec.getLsbD_shiftLeft, BitVec.getLsbD_setWidth]
    rw [ih (a + 1) (j - 8) (by omega), BitVec.getLsbD_of_ge _ _ (by omega : 8 ≤ j)]
    simp

/-- `MemRead` depends on the bytes it reads alone. -/
theorem State.memRead_congr {s t : State} (n : Nat) (a : Word)
    (h : ∀ k, k < n → t.byteAt (a + BitVec.ofNat 64 k) = s.byteAt (a + BitVec.ofNat 64 k)) :
    t.memRead a n = s.memRead a n := by
  induction n generalizing a with
  | zero => rfl
  | succ n ih =>
    rw [State.memRead, State.memRead, ih (a + 1), show t.byteAt a = s.byteAt a by simpa using h 0 (by omega)]
    intro k hk
    have e : a + 1 + BitVec.ofNat 64 k = a + BitVec.ofNat 64 (k + 1) := by
      rw [BitVec.add_assoc]; congr 1; bv_omega
    rw [e]; exact h (k + 1) (by omega)

end Sys2Proof.Machine
end

