-- ==== Sys2Proof/Laws/Ops.lean ====
section
/-! SUPPORT. What each shared form of Machine/Forms.lean can do, said once: `…_next` inverts an answer `next t`,
`…_fault` and `…_refused` say which stops a form has, and `…_spec` says when a form completes and what it leaves. -/

namespace Sys2Proof.Machine

/-! Well-formedness and the guard -/

/-- A well-formed statement names none of its temporaries (spec/30_encoding.md R81). -/
theorem Instr.notMem_temporaries {bwx : Bool} {i : Instr} (h : i.WellFormed bwx) {r : Reg}
    (hr : r ∈ i.registers) : r ∉ i.temporaries bwx := by
  unfold Instr.WellFormed Instr.illFormed? at h
  split at h; · simp at h
  split at h; · simp at h
  split at h; · simp at h
  split at h
  · simp at h
  · rename_i _ _ _ hn
    simp only [Instr.avoidsTemporaries, Bool.not_eq_true', Bool.not_eq_false, List.all_eq_true] at hn
    simpa using hn r hr

theorem State.guarded_of_wf {s : State} {i : Instr} (h : i.WellFormed s.launch.bwx) (run : Outcome) :
    s.guarded i run = run := by simp [State.guarded, h]

theorem State.guarded_next {s : State} {i : Instr} {run : Outcome} {t : State} (h : s.guarded i run = .next t) :
    i.WellFormed s.launch.bwx ∧ run = .next t := by
  unfold State.guarded at h
  split at h
  · simp at h
  · exact ⟨‹_›, h⟩

theorem State.guarded_fault {s : State} {i : Instr} {run : Outcome} {f : Fault} (h : s.guarded i run = .fault f) :
    i.WellFormed s.launch.bwx ∧ run = .fault f := by
  unfold State.guarded at h
  split at h
  · simp at h
  · exact ⟨‹_›, h⟩

theorem State.guarded_refused {s : State} {i : Instr} {run : Outcome} {r : Refusal} (h : s.guarded i run = .refused r) :
    (∃ why, i.illFormed? s.launch.bwx = some why ∧ r = .illFormed why) ∨
      (i.WellFormed s.launch.bwx ∧ run = .refused r) := by
  unfold State.guarded at h
  split at h
  · rename_i why hw; simp only [Host.Outcome.refused.injEq] at h; exact .inl ⟨why, hw, h.symm⟩
  · exact .inr ⟨‹_›, h⟩

/-- An ill-formed statement is refused by every form. -/
theorem State.guarded_of_illFormed {s : State} {i : Instr} {why : IllFormed} (h : i.illFormed? s.launch.bwx = some why)
    (run : Outcome) : s.guarded i run = .refused (.illFormed why) := by simp [State.guarded, h]

/-! The program counter -/

/-- `npc` depends on the pc and on `BWX` alone. -/
theorem State.npc_congr {s t : State} (i : Instr) (hp : t.pc = s.pc) (hl : t.launch = s.launch) :
    t.npc i = s.npc i := by simp [State.npc, hp, hl]

@[simp] theorem State.npc_setX (s : State) (r : Reg) (v : Word) (i : Instr) : (s.setX r v).npc i = s.npc i :=
  State.npc_congr i (by simp) (by simp)
@[simp] theorem State.npc_drew (s : State) (i : Instr) : s.drew.npc i = s.npc i := rfl
@[simp] theorem State.npc_setLock (s : State) (a : Word) (i : Instr) : (s.setLock a).npc i = s.npc i := rfl
@[simp] theorem State.npc_clearLock (s : State) (i : Instr) : s.clearLock.npc i = s.npc i := rfl
@[simp] theorem State.npc_readCounter (s : State) (i : Instr) : s.readCounter.npc i = s.npc i := rfl
@[simp] theorem State.npc_clobberTemps (s : State) (i j : Instr) : (s.clobberTemps j).npc i = s.npc i :=
  State.npc_congr i (by simp) (by simp)
@[simp] theorem State.npc_memWrite (s : State) (a v : Word) (n : Nat) (i : Instr) :
    (s.memWrite a v n).npc i = s.npc i := State.npc_congr i (by simp) (by simp)

/-- A statement of one machine instruction is followed by the one at `pc + 4` (spec/10_state.md R25). -/
theorem State.npc_of_one (s : State) (i : Instr) (h : i.isMacro s.launch.bwx = false) : s.npc i = s.pc + 4#64 := by
  simp [State.npc, Instr.length, h]

/-- The next statement of an aligned one is aligned (R24). -/
theorem State.npc_aligned (s : State) (i : Instr) (h : s.PcAligned) : s.npc i &&& 3#64 = 0#64 := by
  unfold State.PcAligned at h
  unfold State.npc
  generalize BitVec.ofNat 64 (i.length s.launch.bwx) = k
  have h4 : ∀ x y : Word, x &&& 3#64 = 0#64 → (x + 4#64 * y) &&& 3#64 = 0#64 := by
    intro x y hx
    have e : ∀ z : Word, (z &&& 3#64).toNat = z.toNat % 4 := by
      intro z; rw [BitVec.toNat_and]; exact Nat.and_two_pow_sub_one_eq_mod _ 2
    apply BitVec.eq_of_toNat_eq
    have hx' := congrArg BitVec.toNat hx
    rw [e] at hx' ⊢
    rw [BitVec.toNat_add, BitVec.toNat_mul]
    simp only [BitVec.toNat_ofNat] at hx' ⊢
    omega
  exact h4 _ _ h

/-! The end of a statement -/

/-- What `finish` leaves: everything but the temporaries and the pc. -/
theorem State.finish_spec (s : State) (i : Instr) :
    ∃ t, s.finish i = .next t ∧ t.pc = s.npc i ∧ WroteNothing i s t ∧ t = (s.clobberTemps i).advance i := by
  refine ⟨_, rfl, by simp, ⟨?_, ?_, ?_, ?_⟩, rfl⟩
  · intro r hr; simpa using State.x_clobberTemps_of_notMem s i r hr
  · intro a; simp
  · simp [SameLock]
  · simp [SameCounter]

theorem State.finish_next {s t : State} {i : Instr} (h : s.finish i = .next t) : t = (s.clobberTemps i).advance i := by
  simpa [State.finish, eq_comm] using h

theorem State.finish_ne_fault (s : State) (i : Instr) (f : Fault) : s.finish i ≠ .fault f := by simp [State.finish]
theorem State.finish_ne_refused (s : State) (i : Instr) (r : Refusal) : s.finish i ≠ .refused r := by
  simp [State.finish]

/-- A destination that is no temporary holds what was written, whatever is destroyed after. -/
theorem State.finish_setX_spec (s : State) (i : Instr) (d : Reg) (v : Word)
    (hd : d ∉ i.temporaries s.launch.bwx) :
    ∃ t, (s.setX d v).finish i = .next t ∧ t.pc = s.npc i ∧ WroteReg i d v s t := by
  refine ⟨_, rfl, by simp, ⟨?_, ?_, ?_, ?_, ?_⟩⟩
  · rw [RegHolds, State.x_advance, State.x_clobberTemps_of_notMem _ _ _ (by simpa using hd), State.x_setX_self]
  · intro r hr
    simp only [List.mem_cons, not_or] at hr
    rw [State.x_advance, State.x_clobberTemps_of_notMem _ _ _ (by simpa using hr.2), State.x_setX_of_ne _ _ hr.1]
  · intro a; simp
  · simp [SameLock]
  · simp [SameCounter]

/-! Operate forms -/

theorem State.put_spec {s : State} {i : Instr} (d : Reg) (v : Word) (h : i.WellFormed s.launch.bwx)
    (hd : d ∈ i.registers) : ∃ t, s.put i d v = .next t ∧ t.pc = s.npc i ∧ WroteReg i d v s t := by
  rw [State.put, State.guarded_of_wf h]
  exact s.finish_setX_spec i d v (Instr.notMem_temporaries h hd)

theorem State.put_next {s t : State} {i : Instr} {d : Reg} {v : Word} (h : s.put i d v = .next t) :
    i.WellFormed s.launch.bwx ∧ t = ((s.setX d v).clobberTemps i).advance i :=
  ⟨(State.guarded_next h).1, State.finish_next (State.guarded_next h).2⟩

theorem State.put_ne_fault (s : State) (i : Instr) (d : Reg) (v : Word) (f : Fault) : s.put i d v ≠ .fault f :=
  fun h => State.finish_ne_fault _ _ _ (State.guarded_fault h).2

theorem State.put_refused {s : State} {i : Instr} {d : Reg} {v : Word} {r : Refusal} (h : s.put i d v = .refused r) :
    ∃ why, i.illFormed? s.launch.bwx = some why ∧ r = .illFormed why :=
  (State.guarded_refused h).resolve_right fun h => State.finish_ne_refused _ _ _ h.2

theorem State.putTrap_spec {s : State} {i : Instr} (d : Reg) (wrap : Int → Word) (overflows : Int → Bool) (t : Int)
    (h : i.WellFormed s.launch.bwx) (hd : d ∈ i.registers) (ho : overflows t = false) :
    ∃ u, s.putTrap i d wrap overflows t = .next u ∧ u.pc = s.npc i ∧ WroteReg i d (wrap t) s u := by
  rw [State.putTrap, State.guarded_of_wf h, ho]
  exact s.finish_setX_spec i d _ (Instr.notMem_temporaries h hd)

theorem State.putTrap_next {s t : State} {i : Instr} {d : Reg} {wrap : Int → Word} {overflows : Int → Bool} {v : Int}
    (h : s.putTrap i d wrap overflows v = .next t) :
    i.WellFormed s.launch.bwx ∧ overflows v = false ∧ t = ((s.setX d (wrap v)).clobberTemps i).advance i := by
  obtain ⟨hw, h⟩ := State.guarded_next h
  split at h
  · simp [State.raise] at h
  · exact ⟨hw, eq_false_of_ne_true ‹_›, State.finish_next h⟩

theorem State.putTrap_fault {s : State} {i : Instr} {d : Reg} {wrap : Int → Word} {overflows : Int → Bool} {v : Int}
    {f : Fault} (h : s.putTrap i d wrap overflows v = .fault f) :
    overflows v = true ∧ f = .integerOverflow ((s.setX d (wrap v)).clobberTemps i) := by
  obtain ⟨hw, h⟩ := State.guarded_fault h
  split at h
  · exact ⟨‹_›, by simpa [State.raise, eq_comm] using h⟩
  · exact absurd h (State.finish_ne_fault _ _ _)

theorem State.putTrap_refused {s : State} {i : Instr} {d : Reg} {wrap : Int → Word} {overflows : Int → Bool} {v : Int}
    {r : Refusal} (h : s.putTrap i d wrap overflows v = .refused r) :
    ∃ why, i.illFormed? s.launch.bwx = some why ∧ r = .illFormed why := by
  rcases State.guarded_refused h with h | ⟨_, h⟩
  · exact h
  · split at h
    · simp [State.raise] at h
    · exact absurd h (State.finish_ne_refused _ _ _)

theorem State.absolute_next {s t : State} {i : Instr} {d : Reg} {wrap : Int → Word} {m v : Int}
    (h : s.absolute i d wrap m v = .next t) :
    i.WellFormed s.launch.bwx ∧ v ≠ m ∧ t = ((s.setX d (wrap |v|)).clobberTemps i).advance i := by
  obtain ⟨hw, h⟩ := State.guarded_next h
  split at h
  · simp [State.raise] at h
  · exact ⟨hw, ‹_›, State.finish_next h⟩

theorem State.absolute_fault {s : State} {i : Instr} {d : Reg} {wrap : Int → Word} {m v : Int} {f : Fault}
    (h : s.absolute i d wrap m v = .fault f) :
    v = m ∧ f = .integerOverflow (s.clobber (d :: i.temporaries s.launch.bwx)) := by
  obtain ⟨hw, h⟩ := State.guarded_fault h
  split at h
  · exact ⟨‹_›, by simpa [State.raise, eq_comm] using h⟩
  · exact absurd h (State.finish_ne_fault _ _ _)

theorem State.absolute_refused {s : State} {i : Instr} {d : Reg} {wrap : Int → Word} {m v : Int} {r : Refusal}
    (h : s.absolute i d wrap m v = .refused r) : ∃ why, i.illFormed? s.launch.bwx = some why ∧ r = .illFormed why := by
  rcases State.guarded_refused h with h | ⟨_, h⟩
  · exact h
  · split at h
    · simp [State.raise] at h
    · exact absurd h (State.finish_ne_refused _ _ _)

theorem State.absolute_spec {s : State} {i : Instr} (d : Reg) (wrap : Int → Word) {m v : Int}
    (h : i.WellFormed s.launch.bwx) (hd : d ∈ i.registers) (hv : v ≠ m) :
    ∃ u, s.absolute i d wrap m v = .next u ∧ u.pc = s.npc i ∧ WroteReg i d (wrap |v|) s u := by
  rw [State.absolute, State.guarded_of_wf h, if_neg hv]
  exact s.finish_setX_spec i d _ (Instr.notMem_temporaries h hd)

theorem State.divide_next {s t : State} {i : Instr} {d : Reg} {z : Bool} {res : Option Word}
    (h : s.divide i d z res = .next t) : i.WellFormed s.launch.bwx ∧ z = false ∧
      ((∃ v, res = some v ∧ t = ((s.setX d v).clobberTemps i).advance i) ∨
       (res = none ∧ t = ((((s.setX d s.drawn).drew).clobberTemps i).advance i))) := by
  obtain ⟨hw, h⟩ := State.guarded_next h
  split at h
  · simp [State.raise] at h
  · split at h
    · exact ⟨hw, eq_false_of_ne_true ‹_›, .inl ⟨_, rfl, State.finish_next h⟩⟩
    · exact ⟨hw, eq_false_of_ne_true ‹_›, .inr ⟨rfl, State.finish_next h⟩⟩

theorem State.divide_fault {s : State} {i : Instr} {d : Reg} {z : Bool} {res : Option Word} {f : Fault}
    (h : s.divide i d z res = .fault f) :
    z = true ∧ f = .divideByZero (s.clobber (d :: i.temporaries s.launch.bwx)) := by
  obtain ⟨hw, h⟩ := State.guarded_fault h
  split at h
  · exact ⟨‹_›, by simpa [State.raise, eq_comm] using h⟩
  · split at h <;> exact absurd h (State.finish_ne_fault _ _ _)

theorem State.divide_refused {s : State} {i : Instr} {d : Reg} {z : Bool} {res : Option Word} {r : Refusal}
    (h : s.divide i d z res = .refused r) : ∃ why, i.illFormed? s.launch.bwx = some why ∧ r = .illFormed why := by
  rcases State.guarded_refused h with h | ⟨_, h⟩
  · exact h
  · split at h
    · simp [State.raise] at h
    · split at h <;> exact absurd h (State.finish_ne_refused _ _ _)

theorem State.divide_spec {s : State} {i : Instr} (d : Reg) (v : Word) (h : i.WellFormed s.launch.bwx)
    (hd : d ∈ i.registers) :
    ∃ u, s.divide i d false (some v) = .next u ∧ u.pc = s.npc i ∧ WroteReg i d v s u := by
  rw [State.divide, State.guarded_of_wf h]
  exact s.finish_setX_spec i d v (Instr.notMem_temporaries h hd)

/-- The quotient or remainder that cannot be represented: the destination holds a free value, all else is as ever. -/
theorem State.divide_none_spec {s : State} {i : Instr} (d : Reg) (h : i.WellFormed s.launch.bwx)
    (hd : d ∈ i.registers) :
    ∃ u, s.divide i d false none = .next u ∧ u.pc = s.npc i ∧ WroteReg i d s.drawn s u := by
  rw [State.divide, State.guarded_of_wf h]
  obtain hn := Instr.notMem_temporaries h hd
  refine ⟨_, rfl, by simp, ⟨?_, ?_, ?_, ?_, ?_⟩⟩
  · rw [RegHolds, State.x_advance, State.x_clobberTemps_of_notMem _ _ _ (by simpa using hn), State.x_drew,
      State.x_setX_self]
  · intro r hr
    simp only [List.mem_cons, not_or] at hr
    rw [State.x_advance, State.x_clobberTemps_of_notMem _ _ _ (by simpa using hr.2), State.x_drew,
      State.x_setX_of_ne _ _ hr.1]
  · intro a; simp
  · simp [SameLock]
  · simp [SameCounter]

theorem State.condMove_next {s t : State} {i : Instr} {test : Word → Bool} {a c : Reg} {b : RegImm}
    (h : s.condMove i test a b c = .next t) : i.WellFormed s.launch.bwx ∧
      ((test (s.x a) = true ∧ t = ((s.setX c (s.rbv b)).clobberTemps i).advance i) ∨
       (test (s.x a) = false ∧ t = (s.clobberTemps i).advance i)) := by
  obtain ⟨hw, h⟩ := State.guarded_next h
  split at h
  · exact ⟨hw, .inl ⟨‹_›, State.finish_next h⟩⟩
  · exact ⟨hw, .inr ⟨eq_false_of_ne_true ‹_›, State.finish_next h⟩⟩

theorem State.condMove_ne_fault (s : State) (i : Instr) (test : Word → Bool) (a : Reg) (b : RegImm) (c : Reg)
    (f : Fault) : s.condMove i test a b c ≠ .fault f := by
  intro h
  obtain ⟨_, h⟩ := State.guarded_fault h
  split at h <;> exact State.finish_ne_fault _ _ _ h

theorem State.condMove_refused {s : State} {i : Instr} {test : Word → Bool} {a c : Reg} {b : RegImm} {r : Refusal}
    (h : s.condMove i test a b c = .refused r) : ∃ why, i.illFormed? s.launch.bwx = some why ∧ r = .illFormed why := by
  rcases State.guarded_refused h with h | ⟨_, h⟩
  · exact h
  · split at h <;> exact absurd h (State.finish_ne_refused _ _ _)

/-! Memory forms -/

theorem State.access_next {s : State} {i : Instr} {f : AccessForm} {kinds : List AccessKind} {ea : Word}
    {run : Outcome} {t : State} (h : s.access i f kinds ea run = .next t) :
    f.misaligned ea = false ∧ (kinds.all fun kind => s.admits kind f ea) = true ∧ run = .next t := by
  unfold State.access at h
  split at h
  · simp [State.raise] at h
  · split at h
    · exact ⟨eq_false_of_ne_true ‹_›, ‹_›, h⟩
    · simp [State.raise] at h

theorem State.access_fault {s : State} {i : Instr} {f : AccessForm} {kinds : List AccessKind} {ea : Word}
    {run : Outcome} {e : Fault} (h : s.access i f kinds ea run = .fault e) :
    (f.misaligned ea = true ∧ e = .dataAlignment ea (s.clobberTemps i)) ∨
    (f.misaligned ea = false ∧ (kinds.all fun kind => s.admits kind f ea) = false ∧
      e = .accessViolation ea (s.clobberTemps i)) ∨ run = .fault e := by
  unfold State.access at h
  split at h
  · exact .inl ⟨‹_›, by simpa [State.raise, eq_comm] using h⟩
  · split at h
    · exact .inr (.inr h)
    · exact .inr (.inl ⟨eq_false_of_ne_true ‹_›, eq_false_of_ne_true ‹_›,
        by simpa [State.raise, eq_comm] using h⟩)

theorem State.access_refused {s : State} {i : Instr} {f : AccessForm} {kinds : List AccessKind} {ea : Word}
    {run : Outcome} {r : Refusal} (h : s.access i f kinds ea run = .refused r) : run = .refused r := by
  unfold State.access at h
  split at h
  · simp [State.raise] at h
  · split at h
    · exact h
    · simp [State.raise] at h

theorem State.access_of_ok {s : State} (i : Instr) {f : AccessForm} {kinds : List AccessKind} {ea : Word}
    (ha : f.misaligned ea = false) (hm : (kinds.all fun kind => s.admits kind f ea) = true) (run : Outcome) :
    s.access i f kinds ea run = run := by simp [State.access, ha, hm]

theorem State.load_next {s t : State} {i : Instr} {f : AccessForm} {ext : Extension} {d : Reg} {a : Address}
    (h : s.load i f ext d a = .next t) : i.WellFormed s.launch.bwx ∧ f.misaligned (s.ea a) = false ∧
      s.admits .read f (s.ea a) = true ∧ t = ((s.setX d (s.loaded f ext (s.ea a))).clobberTemps i).advance i := by
  obtain ⟨hw, h⟩ := State.guarded_next h
  obtain ⟨ha, hm, h⟩ := State.access_next h
  exact ⟨hw, ha, by simpa using hm, State.finish_next h⟩

theorem State.load_fault {s : State} {i : Instr} {f : AccessForm} {ext : Extension} {d : Reg} {a : Address} {e : Fault}
    (h : s.load i f ext d a = .fault e) :
    (f.misaligned (s.ea a) = true ∧ e = .dataAlignment (s.ea a) (s.clobberTemps i)) ∨
    (f.misaligned (s.ea a) = false ∧ e = .accessViolation (s.ea a) (s.clobberTemps i)) := by
  obtain ⟨_, h⟩ := State.guarded_fault h
  rcases State.access_fault h with h | h | h
  · exact .inl h
  · exact .inr ⟨h.1, h.2.2⟩
  · exact absurd h (State.finish_ne_fault _ _ _)

theorem State.load_refused {s : State} {i : Instr} {f : AccessForm} {ext : Extension} {d : Reg} {a : Address}
    {r : Refusal} (h : s.load i f ext d a = .refused r) :
    ∃ why, i.illFormed? s.launch.bwx = some why ∧ r = .illFormed why := by
  rcases State.guarded_refused h with h | ⟨_, h⟩
  · exact h
  · exact absurd (State.access_refused h) (State.finish_ne_refused _ _ _)

theorem State.load_spec {s : State} {i : Instr} (f : AccessForm) (ext : Extension) (d : Reg) (a : Address)
    (h : i.WellFormed s.launch.bwx) (hd : d ∈ i.registers) (ha : f.misaligned (s.ea a) = false)
    (hm : s.admits .read f (s.ea a) = true) :
    ∃ t, s.load i f ext d a = .next t ∧ t.pc = s.npc i ∧ WroteReg i d (s.loaded f ext (s.ea a)) s t := by
  rw [State.load, State.guarded_of_wf h, State.access_of_ok i ha (by simpa using hm)]
  exact s.finish_setX_spec i d _ (Instr.notMem_temporaries h hd)

theorem State.loadLocked_next {s t : State} {i : Instr} {f : AccessForm} {ext : Extension} {d : Reg} {a : Address}
    (h : s.loadLocked i f ext d a = .next t) : i.WellFormed s.launch.bwx ∧ f.misaligned (s.ea a) = false ∧
      s.admits .read f (s.ea a) = true ∧
      t = (((s.setX d (s.loaded f ext (s.ea a))).setLock (s.ea a)).clobberTemps i).advance i := by
  obtain ⟨hw, h⟩ := State.guarded_next h
  obtain ⟨ha, hm, h⟩ := State.access_next h
  exact ⟨hw, ha, by simpa using hm, State.finish_next h⟩

theorem State.loadLocked_fault {s : State} {i : Instr} {f : AccessForm} {ext : Extension} {d : Reg} {a : Address}
    {e : Fault} (h : s.loadLocked i f ext d a = .fault e) :
    (f.misaligned (s.ea a) = true ∧ e = .dataAlignment (s.ea a) (s.clobberTemps i)) ∨
    (f.misaligned (s.ea a) = false ∧ e = .accessViolation (s.ea a) (s.clobberTemps i)) := by
  obtain ⟨_, h⟩ := State.guarded_fault h
  rcases State.access_fault h with h | h | h
  · exact .inl h
  · exact .inr ⟨h.1, h.2.2⟩
  · exact absurd h (State.finish_ne_fault _ _ _)

theorem State.loadLocked_refused {s : State} {i : Instr} {f : AccessForm} {ext : Extension} {d : Reg} {a : Address}
    {r : Refusal} (h : s.loadLocked i f ext d a = .refused r) :
    ∃ why, i.illFormed? s.launch.bwx = some why ∧ r = .illFormed why := by
  rcases State.guarded_refused h with h | ⟨_, h⟩
  · exact h
  · exact absurd (State.access_refused h) (State.finish_ne_refused _ _ _)

theorem State.store_next {s t : State} {i : Instr} {f : AccessForm} {r : Reg} {a : Address}
    (h : s.store i f r a = .next t) : i.WellFormed s.launch.bwx ∧ f.misaligned (s.ea a) = false ∧
      (f.storeKinds.all fun kind => s.admits kind f (s.ea a)) = true ∧
      s.overlapsText (f.start (s.ea a)) f.size = false ∧
      t = ((s.memWrite (f.start (s.ea a)) (s.x r) f.size).clobberTemps i).advance i := by
  obtain ⟨hw, h⟩ := State.guarded_next h
  obtain ⟨ha, hm, h⟩ := State.access_next h
  split at h
  · simp at h
  · exact ⟨hw, ha, hm, eq_false_of_ne_true ‹_›, State.finish_next h⟩

theorem State.store_fault {s : State} {i : Instr} {f : AccessForm} {r : Reg} {a : Address} {e : Fault}
    (h : s.store i f r a = .fault e) :
    (f.misaligned (s.ea a) = true ∧ e = .dataAlignment (s.ea a) (s.clobberTemps i)) ∨
    (f.misaligned (s.ea a) = false ∧ e = .accessViolation (s.ea a) (s.clobberTemps i)) := by
  obtain ⟨_, h⟩ := State.guarded_fault h
  rcases State.access_fault h with h | h | h
  · exact .inl h
  · exact .inr ⟨h.1, h.2.2⟩
  · split at h
    · simp at h
    · exact absurd h (State.finish_ne_fault _ _ _)

theorem State.store_refused {s : State} {i : Instr} {f : AccessForm} {r : Reg} {a : Address} {e : Refusal}
    (h : s.store i f r a = .refused e) :
    (∃ why, i.illFormed? s.launch.bwx = some why ∧ e = .illFormed why) ∨
      (s.overlapsText (f.start (s.ea a)) f.size = true ∧ e = .storeToText) := by
  rcases State.guarded_refused h with h | ⟨_, h⟩
  · exact .inl h
  · have h := State.access_refused h
    split at h
    · exact .inr ⟨‹_›, by simpa [eq_comm] using h⟩
    · exact absurd h (State.finish_ne_refused _ _ _)

theorem State.store_spec {s : State} {i : Instr} (f : AccessForm) (r : Reg) (a : Address)
    (h : i.WellFormed s.launch.bwx) (hmem : s.mem.wf = true) (hn : f.size ≤ 8)
    (ha : f.misaligned (s.ea a) = false) (hm : (f.storeKinds.all fun kind => s.admits kind f (s.ea a)) = true)
    (ht : s.overlapsText (f.start (s.ea a)) f.size = false) :
    ∃ t, s.store i f r a = .next t ∧ t.pc = s.npc i ∧ Stored i (f.start (s.ea a)) (s.x r) f.size s t := by
  rw [State.store, State.guarded_of_wf h, State.access_of_ok i ha hm, ht]
  refine ⟨_, rfl, by simp, ⟨?_, ?_, ?_, ?_, ?_⟩⟩
  · intro k hk; simpa using State.byteAt_memWrite s _ _ _ hmem hn k hk
  · intro b hb; simpa using State.byteAt_memWrite_outside s _ _ _ hmem b hb
  · intro q hq
    rw [State.x_advance, State.x_clobberTemps_of_notMem _ _ _ (by simpa using hq), State.x_memWrite]
  · simp [SameLock]
  · simp [SameCounter]

theorem State.storeConditional_next {s t : State} {i : Instr} {f : AccessForm} {r : Reg} {a : Address}
    (h : s.storeConditional i f r a = .next t) : i.WellFormed s.launch.bwx ∧ f.misaligned (s.ea a) = false ∧
      (f.storeKinds.all fun kind => s.admits kind f (s.ea a)) = true ∧
      ((s.storesConditionally (s.ea a) = true ∧ s.overlapsText (s.ea a) f.size = false ∧
        t = (((((if s.outsideLock (s.ea a) then s.drew else s).memWrite (s.ea a) (s.x r) f.size).setX r 1#64).clearLock
          ).clobberTemps i).advance i) ∨
       (s.storesConditionally (s.ea a) = false ∧
        t = ((((if s.outsideLock (s.ea a) then s.drew else s).setX r 0#64).clearLock).clobberTemps i).advance i)) := by
  obtain ⟨hw, h⟩ := State.guarded_next h
  obtain ⟨ha, hm, h⟩ := State.access_next h
  refine ⟨hw, ha, hm, ?_⟩
  dsimp only at h
  split at h
  · split at h
    · simp at h
    · exact .inl ⟨‹_›, eq_false_of_ne_true ‹_›, State.finish_next h⟩
  · exact .inr ⟨eq_false_of_ne_true ‹_›, State.finish_next h⟩

theorem State.storeConditional_fault {s : State} {i : Instr} {f : AccessForm} {r : Reg} {a : Address} {e : Fault}
    (h : s.storeConditional i f r a = .fault e) :
    (f.misaligned (s.ea a) = true ∧ e = .dataAlignment (s.ea a) (s.clobberTemps i)) ∨
    (f.misaligned (s.ea a) = false ∧ e = .accessViolation (s.ea a) (s.clobberTemps i)) := by
  obtain ⟨_, h⟩ := State.guarded_fault h
  rcases State.access_fault h with h | h | h
  · exact .inl h
  · exact .inr ⟨h.1, h.2.2⟩
  · dsimp only at h
    split at h
    · split at h
      · simp at h
      · exact absurd h (State.finish_ne_fault _ _ _)
    · exact absurd h (State.finish_ne_fault _ _ _)

theorem State.storeConditional_refused {s : State} {i : Instr} {f : AccessForm} {r : Reg} {a : Address} {e : Refusal}
    (h : s.storeConditional i f r a = .refused e) :
    (∃ why, i.illFormed? s.launch.bwx = some why ∧ e = .illFormed why) ∨
      (s.overlapsText (s.ea a) f.size = true ∧ e = .storeToText) := by
  rcases State.guarded_refused h with h | ⟨_, h⟩
  · exact .inl h
  · have h := State.access_refused h
    dsimp only at h
    split at h
    · split at h
      · exact .inr ⟨‹_›, by simpa [eq_comm] using h⟩
      · exact absurd h (State.finish_ne_refused _ _ _)
    · exact absurd h (State.finish_ne_refused _ _ _)

/-! Control forms -/

theorem State.toTarget_next {s t : State} {tg : Target} {go : Word → Outcome} (h : s.toTarget tg go = .next t) :
    ∃ address, s.target tg = some address ∧ go address = .next t := by
  unfold State.toTarget at h
  split at h
  · exact ⟨_, ‹_›, h⟩
  · simp at h

theorem State.toTarget_of {s : State} {tg : Target} {address : Word} (h : s.target tg = some address)
    (go : Word → Outcome) : s.toTarget tg go = go address := by simp [State.toTarget, h]

theorem State.branchTo_next {s t : State} {address : Word} (h : s.branchTo address = .next t) :
    s.launch.insideStatement address = false ∧ t = s.setPc address := by
  unfold State.branchTo at h
  split at h
  · simp at h
  · exact ⟨eq_false_of_ne_true ‹_›, by simpa [eq_comm] using h⟩

theorem State.branchTo_ne_fault (s : State) (address : Word) (f : Fault) : s.branchTo address ≠ .fault f := by
  unfold State.branchTo
  split <;> simp

theorem State.branchTo_refused {s : State} {address : Word} {e : Refusal} (h : s.branchTo address = .refused e) :
    s.launch.insideStatement address = true ∧ e = .insideStatement := by
  unfold State.branchTo at h
  split at h
  · exact ⟨‹_›, by simpa [eq_comm] using h⟩
  · simp at h

theorem State.branchTo_of {s : State} {address : Word} (h : s.launch.insideStatement address = false) :
    s.branchTo address = .next (s.setPc address) := by simp [State.branchTo, h]

theorem State.branchTo_of_inside {s : State} {address : Word} (h : s.launch.insideStatement address = true) :
    s.branchTo address = .refused .insideStatement := by simp [State.branchTo, h]

theorem State.condBranch_next {s t : State} {i : Instr} {test : Word → Bool} {r : Reg} {tg : Target}
    (h : s.condBranch i test r tg = .next t) : i.WellFormed s.launch.bwx ∧ ∃ address, s.target tg = some address ∧
      ((test (s.x r) = true ∧ s.launch.insideStatement address = false ∧ t = s.setPc address) ∨
       (test (s.x r) = false ∧ t = (s.clobberTemps i).advance i)) := by
  obtain ⟨hw, h⟩ := State.guarded_next h
  obtain ⟨address, ha, h⟩ := State.toTarget_next h
  refine ⟨hw, address, ha, ?_⟩
  split at h
  · exact .inl ⟨‹_›, State.branchTo_next h⟩
  · exact .inr ⟨eq_false_of_ne_true ‹_›, State.finish_next h⟩

theorem State.condBranch_ne_fault (s : State) (i : Instr) (test : Word → Bool) (r : Reg) (tg : Target) (f : Fault) :
    s.condBranch i test r tg ≠ .fault f := by
  intro h
  obtain ⟨_, h⟩ := State.guarded_fault h
  unfold State.toTarget at h
  split at h
  · split at h
    · exact State.branchTo_ne_fault _ _ _ h
    · exact State.finish_ne_fault _ _ _ h
  · simp at h

theorem State.condBranch_refused {s : State} {i : Instr} {test : Word → Bool} {r : Reg} {tg : Target} {e : Refusal}
    (h : s.condBranch i test r tg = .refused e) :
    (∃ why, i.illFormed? s.launch.bwx = some why ∧ e = .illFormed why) ∨
      (s.target tg = none ∧ e = .labelOutOfRange) ∨
      ∃ address, s.target tg = some address ∧ s.launch.insideStatement address = true ∧ e = .insideStatement := by
  rcases State.guarded_refused h with h | ⟨_, h⟩
  · exact .inl h
  · unfold State.toTarget at h
    split at h
    · split at h
      · exact .inr (.inr ⟨_, ‹_›, State.branchTo_refused h⟩)
      · exact absurd h (State.finish_ne_refused _ _ _)
    · exact .inr (.inl ⟨‹_›, by simpa [eq_comm] using h⟩)

theorem State.branch_next {s t : State} {i : Instr} {d : Reg} {tg : Target} (h : s.branch i d tg = .next t) :
    i.WellFormed s.launch.bwx ∧ ∃ address, s.target tg = some address ∧
      s.launch.insideStatement address = false ∧ t = (s.setX d (s.npc i)).setPc address := by
  obtain ⟨hw, h⟩ := State.guarded_next h
  obtain ⟨address, ha, h⟩ := State.toTarget_next h
  exact ⟨hw, address, ha, by simpa using State.branchTo_next h⟩

theorem State.branch_ne_fault (s : State) (i : Instr) (d : Reg) (tg : Target) (f : Fault) :
    s.branch i d tg ≠ .fault f := by
  intro h
  obtain ⟨_, h⟩ := State.guarded_fault h
  unfold State.toTarget at h
  split at h
  · exact State.branchTo_ne_fault _ _ _ h
  · simp at h

theorem State.branch_refused {s : State} {i : Instr} {d : Reg} {tg : Target} {e : Refusal}
    (h : s.branch i d tg = .refused e) :
    (∃ why, i.illFormed? s.launch.bwx = some why ∧ e = .illFormed why) ∨
      (s.target tg = none ∧ e = .labelOutOfRange) ∨
      ∃ address, s.target tg = some address ∧ s.launch.insideStatement address = true ∧ e = .insideStatement := by
  rcases State.guarded_refused h with h | ⟨_, h⟩
  · exact .inl h
  · unfold State.toTarget at h
    split at h
    · exact .inr (.inr ⟨_, ‹_›, by simpa using State.branchTo_refused h⟩)
    · exact .inr (.inl ⟨‹_›, by simpa [eq_comm] using h⟩)

theorem State.jump_next {s t : State} {i : Instr} {d r : Reg} (h : s.jump i d r = .next t) :
    i.WellFormed s.launch.bwx ∧ t = (s.setX d (s.npc i)).setPc (jumpTarget (s.x r)) := by
  obtain ⟨hw, h⟩ := State.guarded_next h
  exact ⟨hw, by simpa [eq_comm] using h⟩

theorem State.jump_ne_fault (s : State) (i : Instr) (d r : Reg) (f : Fault) : s.jump i d r ≠ .fault f := by
  intro h; simpa using (State.guarded_fault h).2

theorem State.jump_refused {s : State} {i : Instr} {d r : Reg} {e : Refusal} (h : s.jump i d r = .refused e) :
    ∃ why, i.illFormed? s.launch.bwx = some why ∧ e = .illFormed why :=
  (State.guarded_refused h).resolve_right fun h => by simpa using h.2

theorem State.jumpSymbolic_next {s t : State} {i : Instr} {d : Reg} {e : SymExpr}
    (h : s.jumpSymbolic i d e = .next t) : i.WellFormed s.launch.bwx ∧
      t = (((s.setX regT12 (Config.symbolAddr e)).clobberTemps i).setX d (s.npc i)).setPc
        (jumpTarget (Config.symbolAddr e)) := by
  obtain ⟨hw, h⟩ := State.guarded_next h
  exact ⟨hw, by simpa [eq_comm] using h⟩

theorem State.jumpSymbolic_ne_fault (s : State) (i : Instr) (d : Reg) (e : SymExpr) (f : Fault) :
    s.jumpSymbolic i d e ≠ .fault f := by
  intro h; simpa using (State.guarded_fault h).2

theorem State.jumpSymbolic_refused {s : State} {i : Instr} {d : Reg} {e : SymExpr} {r : Refusal}
    (h : s.jumpSymbolic i d e = .refused r) : ∃ why, i.illFormed? s.launch.bwx = some why ∧ r = .illFormed why :=
  (State.guarded_refused h).resolve_right fun h => by simpa using h.2

/-! `call_pal` -/

theorem execCallPal_next {palcode : Nat} {s t : State} (h : execCallPal palcode s = .next t) :
    palcode ∈ s.launch.palHandlers ∧ t = s.palReturn (Config.pal palcode s) := by
  obtain ⟨_, h⟩ := State.guarded_next h
  split at h
  · rename_i hm
    exact ⟨by simpa using hm, by simpa [eq_comm] using h⟩
  · simp [State.raise] at h

theorem execCallPal_fault {palcode : Nat} {s : State} {f : Fault} (h : execCallPal palcode s = .fault f) :
    palcode ∉ s.launch.palHandlers ∧ f = .envCall palcode s := by
  obtain ⟨_, h⟩ := State.guarded_fault h
  split at h
  · simp at h
  · rename_i hm
    exact ⟨by simpa using hm, by simpa [State.raise, eq_comm] using h⟩

theorem execCallPal_refused {palcode : Nat} {s : State} {r : Refusal} (h : execCallPal palcode s = .refused r) :
    ∃ why, (Instr.callPal palcode).illFormed? s.launch.bwx = some why ∧ r = .illFormed why := by
  rcases State.guarded_refused h with h | ⟨_, h⟩
  · exact h
  · split at h <;> simp [State.raise] at h

/-! Placed statements -/

/-- A statement has at least one word (spec/00_scope.md R6). -/
theorem Instr.length_pos (bwx : Bool) (i : Instr) : 0 < i.length bwx := by
  unfold Instr.length Config.macroLen
  split <;> omega

/-- A placed statement covers its own address. -/
theorem Launch.statementCovers_of_statementAt {l : Launch} {a : Word} {i : Instr}
    (h : statementAt l.statements a = some i) : l.statementCovers a = true := by
  unfold Launch.statementCovers
  generalize l.statements = placed at h
  induction placed with
  | nil => simp [statementAt] at h
  | cons p rest ih =>
    simp only [statementAt] at h
    rw [List.any_cons, Bool.or_eq_true]
    split at h
    · rename_i e
      subst e
      exact .inl (by simpa [Launch.wordsOf, Range.contains] using Instr.length_pos l.bwx p.2)
    · exact .inr (ih h)

/-- Where no placed statement covers the pc, none begins there and it is inside none. -/
theorem Launch.of_not_statementCovers {l : Launch} {a : Word} (h : l.statementCovers a = false) :
    statementAt l.statements a = none ∧ l.insideStatement a = false := by
  refine ⟨?_, by simp [Launch.insideStatement, h]⟩
  cases e : statementAt l.statements a with
  | none => rfl
  | some i => simp [Launch.statementCovers_of_statementAt e] at h

/-- Inside a placed statement none begins. -/
theorem Launch.statementAt_of_insideStatement {l : Launch} {a : Word} (h : l.insideStatement a = true) :
    statementAt l.statements a = none := by
  simpa [Launch.insideStatement] using (Bool.and_eq_true_iff.mp h).2

/-- A jump target is aligned (spec/45_control.md R236). -/
theorem jumpTarget_aligned (v : Word) : jumpTarget v &&& 3#64 = 0#64 := by
  unfold jumpTarget
  rw [BitVec.and_assoc]
  simp

/-- A word index is a word-aligned address. -/
theorem append_zero_aligned (v : BitVec 62) : (v ++ 0#2) &&& 3#64 = 0#64 := by
  apply BitVec.eq_of_toNat_eq
  rw [BitVec.toNat_and, show (3#64).toNat = 2 ^ 2 - 1 from rfl, Nat.and_two_pow_sub_one_eq_mod, BitVec.toNat_append]
  simp [Nat.shiftLeft_eq]

/-- A label is aligned (spec/30_encoding.md R77). -/
theorem labelAddr_aligned (l : Label) : Config.labelAddr l &&& 3#64 = 0#64 :=
  append_zero_aligned _

end Sys2Proof.Machine
end

