-- ==== Sys2Proof/Laws/Exec.lean ====
section
/-! SUPPORT. What `exec` can do, said once for all statements: every meaning is one of the shared forms, with what the
form needs to know of the statement. A claim about all statements is one case per form, by `exec_shape`. -/

namespace Sys2Proof.Machine

/-- The forms the meanings are made of. -/
inductive Shape (i : Instr) (s : State) : Outcome → Prop where
  | put (d : Reg) (v : Word) (hd : d ∈ i.registers) : Shape i s (s.put i d v)
  | putTrap (d : Reg) (wrap : Int → Word) (overflows : Int → Bool) (t : Int) (hd : d ∈ i.registers)
      (hi : i.mayOverflow = true) : Shape i s (s.putTrap i d wrap overflows t)
  | absolute (d : Reg) (wrap : Int → Word) (m v : Int) (hd : d ∈ i.registers) (hi : i.mayOverflow = true) :
      Shape i s (s.absolute i d wrap m v)
  | divide (d : Reg) (zero : Bool) (result : Option Word) (hd : d ∈ i.registers) (hi : i.divides = true) :
      Shape i s (s.divide i d zero result)
  | condMove (test : Word → Bool) (a : Reg) (b : RegImm) (c : Reg) (hc : c ∈ i.registers) :
      Shape i s (s.condMove i test a b c)
  | load (f : AccessForm) (ext : Extension) (d : Reg) (a : Address) (hd : d ∈ i.registers)
      (hi : i.accessesMemory = true) (hf : f.aligned = true → i.checksAlignment = true ∧ f.size ∣ 8) :
      Shape i s (s.load i f ext d a)
  | loadLocked (f : AccessForm) (ext : Extension) (d : Reg) (a : Address) (hd : d ∈ i.registers)
      (hi : i.accessesMemory = true) (hl : i.loadsLocked = true)
      (hf : f.aligned = true → i.checksAlignment = true ∧ f.size ∣ 8) : Shape i s (s.loadLocked i f ext d a)
  | store (f : AccessForm) (r : Reg) (a : Address) (hi : i.stores = true)
      (hb : i.storedBytes s = bytesFrom (f.start (s.ea a)) f.size)
      (hf : f.aligned = true → i.checksAlignment = true ∧ f.size ∣ 8) : Shape i s (s.store i f r a)
  | storeConditional (f : AccessForm) (r : Reg) (a : Address) (hr : r ∈ i.registers) (hi : i.stores = true)
      (hb : i.storedBytes s = bytesFrom (s.ea a) f.size)
      (hf : f.aligned = true → i.checksAlignment = true ∧ f.size ∣ 8) : Shape i s (s.storeConditional i f r a)
  | condBranch (test : Word → Bool) (r : Reg) (t : Target) (hi : i.target? = some t)
      (hc : i.transfersControl = true) : Shape i s (s.condBranch i test r t)
  | branch (d : Reg) (t : Target) (hd : d ∈ i.registers) (hi : i.target? = some t)
      (hc : i.transfersControl = true) : Shape i s (s.branch i d t)
  | jump (d r : Reg) (hd : d ∈ i.registers) (hc : i.transfersControl = true) : Shape i s (s.jump i d r)
  | jumpSymbolic (d : Reg) (e : SymExpr) (hd : d ∈ i.registers) (hc : i.transfersControl = true)
      (hi : i = .jmp d (.symbolic e) ∨ i = .jsr d (.symbolic e)) : Shape i s (s.jumpSymbolic i d e)
  | ldgp (d : Reg) (offset : Int) (b : Reg) (hi : i = .ldgp d offset b) : Shape i s (execLdgp d offset b s)
  | callPal (palcode : Nat) (hi : i = .callPal palcode) : Shape i s (execCallPal palcode s)
  | rpcc (d : Reg) (hi : i = .rpcc d) : Shape i s (execRpcc d s)
  | finish (hi : i.WellFormed s.launch.bwx) : Shape i s (s.finish i)
  | idle : Shape i s (s.guarded i (s.finish i))

/-- `ldq_u`: a load, but for the form that is `unop`. -/
theorem ldqU_shape (d : Reg) (a : Address) (s : State) : Shape (.ldqU d a) s (execLdqU d a s) := by
  unfold execLdqU
  split
  · rename_i h
    simp only [isUnop, decide_eq_true_eq] at h
    obtain ⟨rfl, rfl⟩ := h
    refine .finish ?_
    cases s.launch.bwx <;> decide
  · exact .load _ _ _ _ (by simp [Instr.registers]) rfl (by simp [AccessForm.quadAround])

/-- Every statement has a shape. -/
theorem exec_shape (i : Instr) (s : State) : Shape i s (exec i s) := by
  cases i with
  | lda d a => exact .put _ _ (by simp [Instr.registers])
  | ldb d a => exact .load _ _ d a (by simp [Instr.registers]) rfl (hf := by simp [AccessForm.byteAccess])
  | ldbu d a => exact .load _ _ d a (by simp [Instr.registers]) rfl (hf := by simp [AccessForm.byteAccess])
  | ldw d a => exact .load _ _ d a (by simp [Instr.registers]) rfl (hf := by simp [AccessForm.wordAccess, Instr.checksAlignment])
  | ldwu d a => exact .load _ _ d a (by simp [Instr.registers]) rfl (hf := by simp [AccessForm.wordAccess, Instr.checksAlignment])
  | ldl d a => exact .load _ _ d a (by simp [Instr.registers]) rfl (hf := fun _ => ⟨rfl, (by decide : (4 : Nat) ∣ 8)⟩)
  | ldlL d a => exact .loadLocked _ _ d a (by simp [Instr.registers]) rfl rfl (hf := fun _ => ⟨rfl, (by decide : (4 : Nat) ∣ 8)⟩)
  | ldq d a => exact .load _ _ d a (by simp [Instr.registers]) rfl (hf := fun _ => ⟨rfl, (by decide : (8 : Nat) ∣ 8)⟩)
  | ldqL d a => exact .loadLocked _ _ d a (by simp [Instr.registers]) rfl rfl (hf := fun _ => ⟨rfl, (by decide : (8 : Nat) ∣ 8)⟩)
  | ldqU d a => exact ldqU_shape d a s
  | uldw d a => exact .load _ _ d a (by simp [Instr.registers]) rfl (hf := by simp [AccessForm.unaligned])
  | uldwu d a => exact .load _ _ d a (by simp [Instr.registers]) rfl (hf := by simp [AccessForm.unaligned])
  | uldl d a => exact .load _ _ d a (by simp [Instr.registers]) rfl (hf := by simp [AccessForm.unaligned])
  | uldq d a => exact .load _ _ d a (by simp [Instr.registers]) rfl (hf := by simp [AccessForm.unaligned])
  | ldah d offset b => exact .put _ _ (by simp [Instr.registers])
  | ldgp d offset b => exact .ldgp d offset b rfl
  | ldil d v => exact .put _ _ (by simp [Instr.registers])
  | ldiq d v => exact .put _ _ (by simp [Instr.registers])
  | stb r a => exact .store _ r a rfl rfl (hf := by simp [AccessForm.byteAccess])
  | stw r a => exact .store _ r a rfl rfl (hf := by simp [AccessForm.wordAccess, Instr.checksAlignment])
  | stl r a => exact .store _ r a rfl rfl (hf := fun _ => ⟨rfl, (by decide : (4 : Nat) ∣ 8)⟩)
  | stlC r a => exact .storeConditional _ r a (by simp [Instr.registers]) rfl rfl (hf := fun _ => ⟨rfl, (by decide : (4 : Nat) ∣ 8)⟩)
  | stq r a => exact .store _ r a rfl rfl (hf := fun _ => ⟨rfl, (by decide : (8 : Nat) ∣ 8)⟩)
  | stqC r a => exact .storeConditional _ r a (by simp [Instr.registers]) rfl rfl (hf := fun _ => ⟨rfl, (by decide : (8 : Nat) ∣ 8)⟩)
  | stqU r a => exact .store _ r a rfl rfl (hf := by simp [AccessForm.quadAround])
  | ustw r a => exact .store _ r a rfl rfl (hf := by simp [AccessForm.unaligned])
  | ustl r a => exact .store _ r a rfl rfl (hf := by simp [AccessForm.unaligned])
  | ustq r a => exact .store _ r a rfl rfl (hf := by simp [AccessForm.unaligned])
  | clr d => exact .put _ _ (by simp [Instr.registers])
  | absl b d => exact .absolute _ _ _ _ (by simp [Instr.registers]) rfl
  | absq b d => exact .absolute _ _ _ _ (by simp [Instr.registers]) rfl
  | negl b d => show Shape _ s (s.put _ _ _); exact .put _ _ (by simp [Instr.registers])
  | neglv b d => exact .putTrap _ _ _ _ (by simp [Instr.registers]) rfl
  | negq b d => show Shape _ s (s.put _ _ _); exact .put _ _ (by simp [Instr.registers])
  | negqv b d => exact .putTrap _ _ _ _ (by simp [Instr.registers]) rfl
  | sextb b d => show Shape _ s (s.put _ _ _); exact .put _ _ (by simp [Instr.registers])
  | sextl b d => show Shape _ s (s.put _ _ _); exact .put _ _ (by simp [Instr.registers])
  | sextw b d => show Shape _ s (s.put _ _ _); exact .put _ _ (by simp [Instr.registers])
  | addl a b c => show Shape _ s (s.put _ _ _); exact .put _ _ (by simp [Instr.registers])
  | addlv a b c => exact .putTrap _ _ _ _ (by simp [Instr.registers]) rfl
  | addq a b c => show Shape _ s (s.put _ _ _); exact .put _ _ (by simp [Instr.registers])
  | addqv a b c => exact .putTrap _ _ _ _ (by simp [Instr.registers]) rfl
  | s4addl a b c => show Shape _ s (s.put _ _ _); exact .put _ _ (by simp [Instr.registers])
  | s4addq a b c => show Shape _ s (s.put _ _ _); exact .put _ _ (by simp [Instr.registers])
  | s8addl a b c => show Shape _ s (s.put _ _ _); exact .put _ _ (by simp [Instr.registers])
  | s8addq a b c => show Shape _ s (s.put _ _ _); exact .put _ _ (by simp [Instr.registers])
  | mull a b c => show Shape _ s (s.put _ _ _); exact .put _ _ (by simp [Instr.registers])
  | mullv a b c => exact .putTrap _ _ _ _ (by simp [Instr.registers]) rfl
  | mulq a b c => show Shape _ s (s.put _ _ _); exact .put _ _ (by simp [Instr.registers])
  | mulqv a b c => exact .putTrap _ _ _ _ (by simp [Instr.registers]) rfl
  | subl a b c => show Shape _ s (s.put _ _ _); exact .put _ _ (by simp [Instr.registers])
  | sublv a b c => exact .putTrap _ _ _ _ (by simp [Instr.registers]) rfl
  | subq a b c => show Shape _ s (s.put _ _ _); exact .put _ _ (by simp [Instr.registers])
  | subqv a b c => exact .putTrap _ _ _ _ (by simp [Instr.registers]) rfl
  | s4subl a b c => show Shape _ s (s.put _ _ _); exact .put _ _ (by simp [Instr.registers])
  | s4subq a b c => show Shape _ s (s.put _ _ _); exact .put _ _ (by simp [Instr.registers])
  | s8subl a b c => show Shape _ s (s.put _ _ _); exact .put _ _ (by simp [Instr.registers])
  | s8subq a b c => show Shape _ s (s.put _ _ _); exact .put _ _ (by simp [Instr.registers])
  | umulh a b c => show Shape _ s (s.put _ _ _); exact .put _ _ (by simp [Instr.registers])
  | divl a b c => unfold exec execDivl; exact .divide _ _ _ (by simp [Instr.registers]) rfl
  | divlu a b c => unfold exec execDivlu; exact .divide _ _ _ (by simp [Instr.registers]) rfl
  | divq a b c => unfold exec execDivq; exact .divide _ _ _ (by simp [Instr.registers]) rfl
  | divqu a b c => unfold exec execDivqu; exact .divide _ _ _ (by simp [Instr.registers]) rfl
  | reml a b c => unfold exec execReml; exact .divide _ _ _ (by simp [Instr.registers]) rfl
  | remlu a b c => unfold exec execRemlu; exact .divide _ _ _ (by simp [Instr.registers]) rfl
  | remq a b c => unfold exec execRemq; exact .divide _ _ _ (by simp [Instr.registers]) rfl
  | remqu a b c => unfold exec execRemqu; exact .divide _ _ _ (by simp [Instr.registers]) rfl
  | not b d => show Shape _ s (s.put _ _ _); exact .put _ _ (by simp [Instr.registers])
  | and a b c => show Shape _ s (s.put _ _ _); exact .put _ _ (by simp [Instr.registers])
  | bis a b c => show Shape _ s (s.put _ _ _); exact .put _ _ (by simp [Instr.registers])
  | or a b c => show Shape _ s (s.put _ _ _); exact .put _ _ (by simp [Instr.registers])
  | xor a b c => show Shape _ s (s.put _ _ _); exact .put _ _ (by simp [Instr.registers])
  | bic a b c => show Shape _ s (s.put _ _ _); exact .put _ _ (by simp [Instr.registers])
  | andnot a b c => show Shape _ s (s.put _ _ _); exact .put _ _ (by simp [Instr.registers])
  | ornot a b c => show Shape _ s (s.put _ _ _); exact .put _ _ (by simp [Instr.registers])
  | eqv a b c => show Shape _ s (s.put _ _ _); exact .put _ _ (by simp [Instr.registers])
  | xornot a b c => show Shape _ s (s.put _ _ _); exact .put _ _ (by simp [Instr.registers])
  | sll a b c => show Shape _ s (s.put _ _ _); exact .put _ _ (by simp [Instr.registers])
  | srl a b c => show Shape _ s (s.put _ _ _); exact .put _ _ (by simp [Instr.registers])
  | sra a b c => show Shape _ s (s.put _ _ _); exact .put _ _ (by simp [Instr.registers])
  | cmpeq a b c => show Shape _ s (s.put _ _ _); exact .put _ _ (by simp [Instr.registers])
  | cmplt a b c => show Shape _ s (s.put _ _ _); exact .put _ _ (by simp [Instr.registers])
  | cmple a b c => show Shape _ s (s.put _ _ _); exact .put _ _ (by simp [Instr.registers])
  | cmpult a b c => show Shape _ s (s.put _ _ _); exact .put _ _ (by simp [Instr.registers])
  | cmpule a b c => show Shape _ s (s.put _ _ _); exact .put _ _ (by simp [Instr.registers])
  | mov b d => show Shape _ s (s.put _ _ _); exact .put _ _ (by simp [Instr.registers])
  | cmoveq a b c => exact .condMove _ _ _ _ (by simp [Instr.registers])
  | cmovne a b c => exact .condMove _ _ _ _ (by simp [Instr.registers])
  | cmovlt a b c => exact .condMove _ _ _ _ (by simp [Instr.registers])
  | cmovle a b c => exact .condMove _ _ _ _ (by simp [Instr.registers])
  | cmovgt a b c => exact .condMove _ _ _ _ (by simp [Instr.registers])
  | cmovge a b c => exact .condMove _ _ _ _ (by simp [Instr.registers])
  | cmovlbc a b c => exact .condMove _ _ _ _ (by simp [Instr.registers])
  | cmovlbs a b c => exact .condMove _ _ _ _ (by simp [Instr.registers])
  | beq r t => exact .condBranch _ _ _ rfl rfl
  | bne r t => exact .condBranch _ _ _ rfl rfl
  | blt r t => exact .condBranch _ _ _ rfl rfl
  | ble r t => exact .condBranch _ _ _ rfl rfl
  | bgt r t => exact .condBranch _ _ _ rfl rfl
  | bge r t => exact .condBranch _ _ _ rfl rfl
  | blbc r t => exact .condBranch _ _ _ rfl rfl
  | blbs r t => exact .condBranch _ _ _ rfl rfl
  | br d t => exact .branch _ _ (by simp [Instr.registers]) rfl rfl
  | bsr d t => exact .branch _ _ (by simp [Instr.registers]) rfl rfl
  | jmp d j => 
    cases j with
    | reg r hint => exact .jump d r (by simp [Instr.registers]) rfl
    | symbolic e => exact .jumpSymbolic d e (by simp [Instr.registers]) rfl (by simp)
  | jsr d j => 
    cases j with
    | reg r hint => exact .jump d r (by simp [Instr.registers]) rfl
    | symbolic e => exact .jumpSymbolic d e (by simp [Instr.registers]) rfl (by simp)
  | ret d r hint => exact .jump _ _ (by simp [Instr.registers]) rfl
  | jsrCoroutine d r hint => exact .jump _ _ (by simp [Instr.registers]) rfl
  | cmpbge a b c => show Shape _ s (s.put _ _ _); exact .put _ _ (by simp [Instr.registers])
  | extbl a b c => show Shape _ s (s.put _ _ _); exact .put _ _ (by simp [Instr.registers])
  | extwl a b c => show Shape _ s (s.put _ _ _); exact .put _ _ (by simp [Instr.registers])
  | extll a b c => show Shape _ s (s.put _ _ _); exact .put _ _ (by simp [Instr.registers])
  | extql a b c => show Shape _ s (s.put _ _ _); exact .put _ _ (by simp [Instr.registers])
  | extwh a b c => show Shape _ s (s.put _ _ _); exact .put _ _ (by simp [Instr.registers])
  | extlh a b c => show Shape _ s (s.put _ _ _); exact .put _ _ (by simp [Instr.registers])
  | extqh a b c => show Shape _ s (s.put _ _ _); exact .put _ _ (by simp [Instr.registers])
  | insbl a b c => show Shape _ s (s.put _ _ _); exact .put _ _ (by simp [Instr.registers])
  | inswl a b c => show Shape _ s (s.put _ _ _); exact .put _ _ (by simp [Instr.registers])
  | insll a b c => show Shape _ s (s.put _ _ _); exact .put _ _ (by simp [Instr.registers])
  | insql a b c => show Shape _ s (s.put _ _ _); exact .put _ _ (by simp [Instr.registers])
  | inswh a b c => show Shape _ s (s.put _ _ _); exact .put _ _ (by simp [Instr.registers])
  | inslh a b c => show Shape _ s (s.put _ _ _); exact .put _ _ (by simp [Instr.registers])
  | insqh a b c => show Shape _ s (s.put _ _ _); exact .put _ _ (by simp [Instr.registers])
  | mskbl a b c => show Shape _ s (s.put _ _ _); exact .put _ _ (by simp [Instr.registers])
  | mskwl a b c => show Shape _ s (s.put _ _ _); exact .put _ _ (by simp [Instr.registers])
  | mskll a b c => show Shape _ s (s.put _ _ _); exact .put _ _ (by simp [Instr.registers])
  | mskql a b c => show Shape _ s (s.put _ _ _); exact .put _ _ (by simp [Instr.registers])
  | mskwh a b c => show Shape _ s (s.put _ _ _); exact .put _ _ (by simp [Instr.registers])
  | msklh a b c => show Shape _ s (s.put _ _ _); exact .put _ _ (by simp [Instr.registers])
  | mskqh a b c => show Shape _ s (s.put _ _ _); exact .put _ _ (by simp [Instr.registers])
  | zap a b c => show Shape _ s (s.put _ _ _); exact .put _ _ (by simp [Instr.registers])
  | zapnot a b c => show Shape _ s (s.put _ _ _); exact .put _ _ (by simp [Instr.registers])
  | callPal palcode => exact .callPal palcode rfl
  | amask b d => show Shape _ s (s.put _ _ _); exact .put _ _ (by simp [Instr.registers])
  | fetch offset b => exact .idle
  | fetchM offset b => exact .idle
  | rpcc d => exact .rpcc d rfl
  | implver d => exact .put _ _ (by simp [Instr.registers])
  | nop => exact .finish rfl
  | unop => exact .finish rfl
  | trapb => exact .finish rfl
  | excb => exact .finish rfl
  | mb => exact .finish rfl
  | wmb => exact .finish rfl

end Sys2Proof.Machine
end

