-- ==== Sys2Proof/Laws/Step.lean ====
section
/-! SUPPORT. What a step can do, said once: how the fetch ends, and what a step that goes on has run. -/

namespace Sys2Proof.Machine

/-- A step that goes on has run the fetched statement, and then the environment (spec/20_memory.md R58). -/
theorem step_next {s t : State} (h : step s = .next t) :
    ∃ i u, s.fetchStatement = .ok i ∧ exec i s = .next u ∧ t = u.environment := by
  unfold step at h
  split at h
  · simp at h
  · simp at h
  · split at h
    · simp only [Host.Outcome.next.injEq] at h
      exact ⟨_, _, ‹_›, ‹_›, h.symm⟩
    · simp at h
    · simp at h

/-- A step is the fetched statement, and then the environment. -/
theorem step_of_fetch {s : State} {i : Instr} (h : s.fetchStatement = .ok i) :
    step s = match exec i s with
      | .next t => .next t.environment
      | .fault f => .fault f
      | .refused r => .refused r := by
  cases he : exec i s <;> simp [step, h, he]

/-- At `EXIT_PC` the run ends before the fetch (spec/70_reset_and_hazards.md R352). -/
theorem State.fetchStatement_of_exit {s : State} (h : s.pc = s.launch.exitPc) :
    s.fetchStatement = .error (.fault (.runEnded s)) := by simp [State.fetchStatement, h]

/-- A fetch from an address that is not mapped (spec/20_memory.md R50). -/
theorem State.fetchStatement_of_unmapped {s : State} (h : s.pc ≠ s.launch.exitPc)
    (hm : (bytesFrom s.pc 4).all (s.launch.mapped .fetch) = false) :
    s.fetchStatement = .error (.fault (.accessViolation s.pc s)) := by simp [State.fetchStatement, h, hm]

/-- A placed statement at the pc is the statement to run (log 1). -/
theorem State.fetchStatement_of_placed {s : State} {i : Instr} (h : s.pc ≠ s.launch.exitPc)
    (hm : (bytesFrom s.pc 4).all (s.launch.mapped .fetch) = true)
    (hp : statementAt s.launch.statements s.pc = some i) : s.fetchStatement = .ok i := by
  simp [State.fetchStatement, h, hm, hp]

/-- The middle of a placed statement is refused (R360). -/
theorem State.fetchStatement_of_inside {s : State} (h : s.pc ≠ s.launch.exitPc)
    (hm : (bytesFrom s.pc 4).all (s.launch.mapped .fetch) = true)
    (hi : s.launch.insideStatement s.pc = true) : s.fetchStatement = .error (.refused .insideStatement) := by
  simp [State.fetchStatement, h, hm, Launch.statementAt_of_insideStatement hi, hi]

/-- Where no placed statement covers the pc, the word there is decoded. -/
theorem State.fetchStatement_of_word {s : State} (h : s.pc ≠ s.launch.exitPc)
    (hm : (bytesFrom s.pc 4).all (s.launch.mapped .fetch) = true)
    (hc : s.launch.statementCovers s.pc = false) : s.fetchStatement = s.decodeAtPc := by
  obtain ⟨hn, hi⟩ := Launch.of_not_statementCovers hc
  simp [State.fetchStatement, h, hm, hn, hi]

end Sys2Proof.Machine
end

