-- ==== Sys2Proof/Tests/Slice0.lean ====
section
/-! SUPPORT. Tests. Every expected value is copied from the examples the rules of spec/40 to spec/47 carry (or worked by
hand from the rule named), never from the model. A row is one statement, the state before it, and what the rule's
example says of the state after it. -/

namespace Sys2Proof.Tests

open Sys2Proof.Machine

/-! Helpers -/

/-- The reset state with an address range of bytes, some registers, and `BWX` as given. -/
def start (bwx : Bool) (regs : List (Reg × Word)) (a : Word) (bytes : List Byte) : State :=
  let s := State.reset.storeBytes a bytes
  let s := { s with launch := { s.launch with bwx := bwx } }
  regs.foldl (fun t p => t.setX p.1 p.2) s

/-- One row: the statement, `BWX`, registers before, bytes before, registers after, bytes after. -/
structure Row where
  i : Instr
  bwx : Bool
  regs : List (Reg × Word)
  mem : Word × List Byte
  after : List (Reg × Word)
  memAfter : Word × List Byte

/-- The registers and bytes of a state are those listed. -/
def holds (t : State) (regs : List (Reg × Word)) (mem : Word × List Byte) : Bool :=
  regs.all (fun p => t.x p.1 == p.2) && (bytesFrom mem.1 mem.2.length).map t.byteAt == mem.2

/-- The statement answers a next state as the row says. -/
def Row.completes (r : Row) : Bool :=
  match exec r.i (start r.bwx r.regs r.mem.1 r.mem.2) with
  | .next t => holds t r.after r.memAfter
  | _ => false

/-- The statement raises the overflow with the registers as the row says. -/
def Row.overflows (r : Row) : Bool :=
  match exec r.i (start r.bwx r.regs r.mem.1 r.mem.2) with
  | .fault (.integerOverflow t) => holds t r.after r.memAfter
  | _ => false

/-- The address of the alignment exception a statement raises. -/
def misalignedAt (i : Instr) (s : State) : Option Word :=
  match exec i s with
  | .fault (.dataAlignment ea _) => some ea
  | _ => none

/-- The statement raises the division exception. -/
def dividesByZero (i : Instr) (s : State) : Bool :=
  match exec i s with
  | .fault (.divideByZero _) => true
  | _ => false

/-- The pc after a statement that stands at 0x1000. -/
def pcAfter (i : Instr) (regs : List (Reg × Word)) (pc : Word) : Option Word :=
  match exec i ((start true regs 0 []).setPc pc) with
  | .next t => some t.pc
  | _ => none

/-- The word decodes to the instruction. -/
def decodes (p : InstrWord × Instr) : Bool :=
  match decodeWord p.1 with
  | .ok i => i == p.2
  | .error _ => false

/-! Decoding: every machine instruction's word, as its rule writes it -/

/-- Words of the load store rules. -/
def words_load_store : List (InstrWord × Instr) := [
  (0x2022FFF8#32, .lda 1 (.base (-8) 2)),
  (0x28220003#32, .ldbu 1 (.base 3 2)),
  (0xA0220004#32, .ldl 1 (.base 4 2)),
  (0xA8220000#32, .ldlL 1 (.base 0 2)),
  (0xA4220008#32, .ldq 1 (.base 8 2)),
  (0xAC220000#32, .ldqL 1 (.base 0 2)),
  (0x2C220005#32, .ldqU 1 (.base 5 2)),
  (0x24220001#32, .ldah 1 1 2),
  (0xB0220004#32, .stl 1 (.base 4 2)),
  (0xB8220000#32, .stlC 1 (.base 0 2)),
  (0xB4220008#32, .stq 1 (.base 8 2)),
  (0xBC220000#32, .stqC 1 (.base 0 2)),
  (0x3C220005#32, .stqU 1 (.base 5 2)),
  (0x30220002#32, .ldwu 1 (.base 2 2)),
  (0x38220002#32, .stb 1 (.base 2 2)),
  (0x34220002#32, .stw 1 (.base 2 2))]

theorem test_decode_load_store : words_load_store.all decodes = true := by decide

/-- Words of the arithmetic rules. -/
def words_arithmetic : List (InstrWord × Instr) := [
  (0x47FF0405#32, .bis 31 (.reg 31) 5),
  (0x43E10122#32, .subl 31 (.reg 1) 2),
  (0x43E10922#32, .sublv 31 (.reg 1) 2),
  (0x43E10522#32, .subq 31 (.reg 1) 2),
  (0x43E10D22#32, .subqv 31 (.reg 1) 2),
  (0x73E10002#32, .sextb (.reg 1) 2),
  (0x43E10002#32, .addl 31 (.reg 1) 2),
  (0x73E10021#32, .sextw (.reg 1) 1),
  (0x40220003#32, .addl 1 (.reg 2) 3),
  (0x40220803#32, .addlv 1 (.reg 2) 3),
  (0x40220403#32, .addq 1 (.reg 2) 3),
  (0x40220C03#32, .addqv 1 (.reg 2) 3),
  (0x40220043#32, .s4addl 1 (.reg 2) 3),
  (0x40220443#32, .s4addq 1 (.reg 2) 3),
  (0x40220243#32, .s8addl 1 (.reg 2) 3),
  (0x40220643#32, .s8addq 1 (.reg 2) 3),
  (0x4C220003#32, .mull 1 (.reg 2) 3),
  (0x4C220803#32, .mullv 1 (.reg 2) 3),
  (0x4C220403#32, .mulq 1 (.reg 2) 3),
  (0x4C220C03#32, .mulqv 1 (.reg 2) 3),
  (0x40220123#32, .subl 1 (.reg 2) 3),
  (0x40220923#32, .sublv 1 (.reg 2) 3),
  (0x40220523#32, .subq 1 (.reg 2) 3),
  (0x40220D23#32, .subqv 1 (.reg 2) 3),
  (0x40220163#32, .s4subl 1 (.reg 2) 3),
  (0x40220563#32, .s4subq 1 (.reg 2) 3),
  (0x40220363#32, .s8subl 1 (.reg 2) 3),
  (0x40220763#32, .s8subq 1 (.reg 2) 3),
  (0x4C220603#32, .umulh 1 (.reg 2) 3)]

theorem test_decode_arithmetic : words_arithmetic.all decodes = true := by decide

/-- Words of the logical shift rules. -/
def words_logical_shift : List (InstrWord × Instr) := [
  (0x47E10502#32, .ornot 31 (.reg 1) 2),
  (0x44220003#32, .and 1 (.reg 2) 3),
  (0x44220403#32, .bis 1 (.reg 2) 3),
  (0x44220403#32, .bis 1 (.reg 2) 3),
  (0x44220803#32, .xor 1 (.reg 2) 3),
  (0x44220103#32, .bic 1 (.reg 2) 3),
  (0x44220103#32, .bic 1 (.reg 2) 3),
  (0x44220503#32, .ornot 1 (.reg 2) 3),
  (0x44220903#32, .eqv 1 (.reg 2) 3),
  (0x44220903#32, .eqv 1 (.reg 2) 3),
  (0x48209723#32, .sll 1 (.imm 4) 3),
  (0x48209683#32, .srl 1 (.imm 4) 3),
  (0x48209783#32, .sra 1 (.imm 4) 3)]

theorem test_decode_logical_shift : words_logical_shift.all decodes = true := by decide

/-- Words of the relational rules. -/
def words_relational : List (InstrWord × Instr) := [
  (0x402205A3#32, .cmpeq 1 (.reg 2) 3),
  (0x402209A3#32, .cmplt 1 (.reg 2) 3),
  (0x40220DA3#32, .cmple 1 (.reg 2) 3),
  (0x402203A3#32, .cmpult 1 (.reg 2) 3),
  (0x402207A3#32, .cmpule 1 (.reg 2) 3)]

theorem test_decode_relational : words_relational.all decodes = true := by decide

/-- Words of the move rules. -/
def words_move : List (InstrWord × Instr) := [
  (0x47E10402#32, .bis 31 (.reg 1) 2),
  (0x44220483#32, .cmoveq 1 (.reg 2) 3),
  (0x442204C3#32, .cmovne 1 (.reg 2) 3),
  (0x44220883#32, .cmovlt 1 (.reg 2) 3),
  (0x44220C83#32, .cmovle 1 (.reg 2) 3),
  (0x44220CC3#32, .cmovgt 1 (.reg 2) 3),
  (0x442208C3#32, .cmovge 1 (.reg 2) 3),
  (0x442202C3#32, .cmovlbc 1 (.reg 2) 3),
  (0x44220283#32, .cmovlbs 1 (.reg 2) 3)]

theorem test_decode_move : words_move.all decodes = true := by decide

/-- Words of the control rules. -/
def words_control : List (InstrWord × Instr) := [
  (0xE420000F#32, .beq 1 (.disp 15)),
  (0xE420000F#32, .beq 1 (.disp 15)),
  (0xF420000F#32, .bne 1 (.disp 15)),
  (0xF420000F#32, .bne 1 (.disp 15)),
  (0xE820000F#32, .blt 1 (.disp 15)),
  (0xE820000F#32, .blt 1 (.disp 15)),
  (0xEC20000F#32, .ble 1 (.disp 15)),
  (0xEC20000F#32, .ble 1 (.disp 15)),
  (0xFC20000F#32, .bgt 1 (.disp 15)),
  (0xFC20000F#32, .bgt 1 (.disp 15)),
  (0xF820000F#32, .bge 1 (.disp 15)),
  (0xF820000F#32, .bge 1 (.disp 15)),
  (0xE020000F#32, .blbc 1 (.disp 15)),
  (0xE020000F#32, .blbc 1 (.disp 15)),
  (0xF020000F#32, .blbs 1 (.disp 15)),
  (0xF020000F#32, .blbs 1 (.disp 15)),
  (0xC3FFFFFB#32, .br 31 (.disp 2097147)),
  (0xC0A00000#32, .br 5 (.disp 0)),
  (0xD34003FF#32, .bsr 26 (.disp 1023)),
  (0xD0A003FF#32, .bsr 5 (.disp 1023)),
  (0x6BE40000#32, .jmp 31 (.reg 4 (.bits 0))),
  (0x68A50000#32, .jmp 5 (.reg 5 (.bits 0))),
  (0x6B5B4000#32, .jsr 26 (.reg 27 (.bits 0))),
  (0x6B5B4000#32, .jsr 26 (.reg 27 (.bits 0))),
  (0x6BFA8001#32, .ret 31 26 1),
  (0x6BE78001#32, .ret 31 7 1),
  (0x6B5AC000#32, .jsrCoroutine 26 26 0),
  (0x68A6C000#32, .jsrCoroutine 5 6 0)]

theorem test_decode_control : words_control.all decodes = true := by decide

/-- Words of the byte manipulation rules. -/
def words_byte_manipulation : List (InstrWord × Instr) := [
  (0x402201E3#32, .cmpbge 1 (.reg 2) 3),
  (0x482050C3#32, .extbl 1 (.imm 2) 3),
  (0x482052C3#32, .extwl 1 (.imm 2) 3),
  (0x482054C3#32, .extll 1 (.imm 2) 3),
  (0x482056C3#32, .extql 1 (.imm 2) 3),
  (0x4820DB43#32, .extwh 1 (.imm 6) 3),
  (0x4820DD43#32, .extlh 1 (.imm 6) 3),
  (0x4820DF43#32, .extqh 1 (.imm 6) 3),
  (0x48205163#32, .insbl 1 (.imm 2) 3),
  (0x48205363#32, .inswl 1 (.imm 2) 3),
  (0x48205563#32, .insll 1 (.imm 2) 3),
  (0x48205763#32, .insql 1 (.imm 2) 3),
  (0x4820FAE3#32, .inswh 1 (.imm 7) 3),
  (0x4820FCE3#32, .inslh 1 (.imm 7) 3),
  (0x4820FEE3#32, .insqh 1 (.imm 7) 3),
  (0x48205043#32, .mskbl 1 (.imm 2) 3),
  (0x48205243#32, .mskwl 1 (.imm 2) 3),
  (0x48205443#32, .mskll 1 (.imm 2) 3),
  (0x48205643#32, .mskql 1 (.imm 2) 3),
  (0x4820FA43#32, .mskwh 1 (.imm 7) 3),
  (0x4820FC43#32, .msklh 1 (.imm 7) 3),
  (0x4820FE43#32, .mskqh 1 (.imm 7) 3),
  (0x4821F603#32, .zap 1 (.imm 15) 3),
  (0x4821F623#32, .zapnot 1 (.imm 15) 3)]

theorem test_decode_byte_manipulation : words_byte_manipulation.all decodes = true := by decide

/-- Words of the special purpose rules. -/
def words_special_purpose : List (InstrWord × Instr) := [
  (0x00000083#32, .callPal 131),
  (0x47E10C22#32, .amask (.reg 1) 2),
  (0x63E48000#32, .fetch 0 4),
  (0x63E4A000#32, .fetchM 0 4),
  (0x603FC000#32, .rpcc 1),
  (0x47E03D81#32, .implver 1),
  (0x47FF041F#32, .bis 31 (.reg 31) 31),
  (0x2FFE0000#32, .ldqU 31 (.base 0 30)),
  (0x63FF0000#32, .trapb),
  (0x63FF0400#32, .excb),
  (0x63FF4000#32, .mb),
  (0x63FF4400#32, .wmb)]

theorem test_decode_special_purpose : words_special_purpose.all decodes = true := by decide

/-! Effects -/

/-- Examples of the load store rules. -/
def rows_load_store_1 : List Row := [
  ⟨.lda 1 (.base (-8) 2), false, [(2, 0x1000#64)], (0#64, []),
    [(1, 0xff8#64)], (0#64, [])⟩,
  ⟨.lda 3 (.base (-1) 31), false, [], (0#64, []),
    [(3, 0xffffffffffffffff#64)], (0#64, [])⟩,
  ⟨.ldb 1 (.base 3 2), false, [(2, 0x2000#64), (28, 0x0#64), (23, 0x0#64)], (0x2000#64, [0x10#8, 0x20#8, 0x30#8, 0x80#8, 0x50#8, 0x60#8, 0x70#8, 0x81#8]),
    [(1, 0xffffffffffffff80#64)], (0#64, [])⟩,
  ⟨.ldbu 1 (.base 3 2), false, [(2, 0x2000#64), (28, 0x0#64), (23, 0x0#64)], (0x2000#64, [0x10#8, 0x20#8, 0x30#8, 0x80#8, 0x50#8, 0x60#8, 0x70#8, 0x81#8]),
    [(1, 0x80#64)], (0#64, [])⟩,
  ⟨.ldbu 1 (.base 3 2), true, [(2, 0x2000#64), (28, 0x0#64), (23, 0x0#64)], (0x2000#64, [0x10#8, 0x20#8, 0x30#8, 0x80#8, 0x50#8, 0x60#8, 0x70#8, 0x81#8]),
    [(1, 0x80#64)], (0#64, [])⟩,
  ⟨.ldw 1 (.base 2 2), false, [(2, 0x2000#64), (28, 0x0#64), (23, 0x0#64), (24, 0x0#64)], (0x2000#64, [0x10#8, 0x20#8, 0x34#8, 0x92#8, 0x50#8, 0x60#8, 0x70#8, 0x81#8]),
    [(1, 0xffffffffffff9234#64)], (0#64, [])⟩,
  ⟨.ldwu 1 (.base 2 2), false, [(2, 0x2000#64), (28, 0x0#64), (23, 0x0#64), (24, 0x0#64)], (0x2000#64, [0x10#8, 0x20#8, 0x34#8, 0x92#8, 0x50#8, 0x60#8, 0x70#8, 0x81#8]),
    [(1, 0x9234#64)], (0#64, [])⟩,
  ⟨.ldl 1 (.base 4 2), false, [(2, 0x2000#64)], (0x2000#64, [0x10#8, 0x20#8, 0x34#8, 0x92#8, 0x50#8, 0x60#8, 0x70#8, 0x81#8]),
    [(1, 0xffffffff81706050#64)], (0#64, [])⟩,
  ⟨.ldq 1 (.base 8 2), false, [(2, 0x2000#64)], (0x2008#64, [0x88#8, 0x77#8, 0x66#8, 0x55#8, 0x44#8, 0x33#8, 0x22#8, 0x11#8]),
    [(1, 0x1122334455667788#64)], (0#64, [])⟩,
  ⟨.ldqU 1 (.base 5 2), false, [(2, 0x2000#64)], (0x2000#64, [0x88#8, 0x77#8, 0x66#8, 0x55#8, 0x44#8, 0x33#8, 0x22#8, 0x11#8]),
    [(1, 0x1122334455667788#64)], (0#64, [])⟩,
  ⟨.uldw 1 (.base 7 2), false, [(2, 0x2000#64), (28, 0x0#64), (23, 0x0#64), (24, 0x0#64)], (0x2000#64, [0x00#8, 0x00#8, 0x00#8, 0x00#8, 0x00#8, 0x00#8, 0x00#8, 0xcd#8, 0xab#8, 0x00#8, 0x00#8, 0x00#8, 0x00#8, 0x00#8, 0x00#8, 0x00#8]),
    [(1, 0xffffffffffffabcd#64)], (0#64, [])⟩,
  ⟨.uldwu 1 (.base 7 2), false, [(2, 0x2000#64), (28, 0x0#64), (23, 0x0#64), (24, 0x0#64)], (0x2000#64, [0x00#8, 0x00#8, 0x00#8, 0x00#8, 0x00#8, 0x00#8, 0x00#8, 0xcd#8, 0xab#8, 0x00#8, 0x00#8, 0x00#8, 0x00#8, 0x00#8, 0x00#8, 0x00#8]),
    [(1, 0xabcd#64)], (0#64, [])⟩,
  ⟨.uldl 1 (.base 6 2), false, [(2, 0x2000#64), (28, 0x0#64), (23, 0x0#64), (24, 0x0#64)], (0x2000#64, [0x00#8, 0x00#8, 0x00#8, 0x00#8, 0x00#8, 0x00#8, 0x78#8, 0x56#8, 0x34#8, 0x92#8, 0x00#8, 0x00#8, 0x00#8, 0x00#8, 0x00#8, 0x00#8]),
    [(1, 0xffffffff92345678#64)], (0#64, [])⟩,
  ⟨.uldq 1 (.base 3 2), false, [(2, 0x2000#64), (28, 0x0#64), (23, 0x0#64), (24, 0x0#64)], (0x2000#64, [0x00#8, 0x01#8, 0x02#8, 0x03#8, 0x04#8, 0x05#8, 0x06#8, 0x07#8, 0x08#8, 0x09#8, 0x0a#8, 0x0b#8, 0x0c#8, 0x0d#8, 0x0e#8, 0x0f#8]),
    [(1, 0xa09080706050403#64)], (0#64, [])⟩,
  ⟨.ldah 1 1 2, false, [(2, 0x1234#64)], (0#64, []),
    [(1, 0x11234#64)], (0#64, [])⟩,
  ⟨.ldah 1 (-32768) 31, false, [], (0#64, []),
    [(1, 0xffffffff80000000#64)], (0#64, [])⟩]

theorem test_effect_load_store_1 : rows_load_store_1.all Row.completes = true := by decide

/-- Examples of the load store rules. -/
def rows_load_store_2 : List Row := [
  ⟨.ldil 1 2147483648, false, [], (0#64, []),
    [(1, 0xffffffff80000000#64)], (0#64, [])⟩,
  ⟨.ldil 1 4886718345, false, [], (0#64, []),
    [(1, 0x23456789#64)], (0#64, [])⟩,
  ⟨.ldiq 1 1311768467463790320, false, [], (0#64, []),
    [(1, 0x123456789abcdef0#64)], (0#64, [])⟩,
  ⟨.ldiq 1 (-2), false, [], (0#64, []),
    [(1, 0xfffffffffffffffe#64)], (0#64, [])⟩,
  ⟨.stb 1 (.base 2 2), false, [(1, 0x1234#64), (2, 0x2000#64), (28, 0x0#64), (23, 0x0#64), (24, 0x0#64)], (0x2000#64, [0xaa#8, 0xaa#8, 0xaa#8, 0xaa#8, 0xaa#8, 0xaa#8, 0xaa#8, 0xaa#8]),
    [], (0x2002#64, [0x34#8])⟩,
  ⟨.stw 1 (.base 2 2), false, [(1, 0xabcd1234#64), (2, 0x2000#64), (28, 0x0#64), (23, 0x0#64), (24, 0x0#64), (25, 0x0#64), (27, 0x0#64)], (0x2000#64, [0xaa#8, 0xaa#8, 0xaa#8, 0xaa#8, 0xaa#8, 0xaa#8, 0xaa#8, 0xaa#8]),
    [], (0x2002#64, [0x34#8, 0x12#8])⟩,
  ⟨.stl 1 (.base 4 2), false, [(1, 0xffffffff89abcdef#64), (2, 0x2000#64)], (0x2000#64, [0x00#8, 0x00#8, 0x00#8, 0x00#8, 0x00#8, 0x00#8, 0x00#8, 0x00#8]),
    [], (0x2004#64, [0xef#8, 0xcd#8, 0xab#8, 0x89#8])⟩,
  ⟨.stq 1 (.base 8 2), false, [(1, 0x1122334455667788#64), (2, 0x2000#64)], (0x2008#64, [0x00#8, 0x00#8, 0x00#8, 0x00#8, 0x00#8, 0x00#8, 0x00#8, 0x00#8]),
    [], (0x2008#64, [0x88#8, 0x77#8, 0x66#8, 0x55#8, 0x44#8, 0x33#8, 0x22#8, 0x11#8])⟩,
  ⟨.stqU 1 (.base 5 2), false, [(1, 0x1122334455667788#64), (2, 0x2000#64)], (0x2000#64, [0x00#8, 0x00#8, 0x00#8, 0x00#8, 0x00#8, 0x00#8, 0x00#8, 0x00#8]),
    [], (0x2000#64, [0x88#8, 0x77#8, 0x66#8, 0x55#8, 0x44#8, 0x33#8, 0x22#8, 0x11#8])⟩,
  ⟨.ustw 1 (.base 7 2), false, [(1, 0xabcd#64), (2, 0x2000#64), (28, 0x0#64), (23, 0x0#64), (24, 0x0#64), (25, 0x0#64), (27, 0x0#64)], (0x2000#64, [0x00#8, 0x00#8, 0x00#8, 0x00#8, 0x00#8, 0x00#8, 0x00#8, 0x00#8, 0x00#8, 0x00#8, 0x00#8, 0x00#8, 0x00#8, 0x00#8, 0x00#8, 0x00#8]),
    [], (0x2007#64, [0xcd#8, 0xab#8])⟩,
  ⟨.ustl 1 (.base 6 2), false, [(1, 0x92345678#64), (2, 0x2000#64), (28, 0x0#64), (23, 0x0#64), (24, 0x0#64), (25, 0x0#64), (27, 0x0#64)], (0x2000#64, [0x00#8, 0x00#8, 0x00#8, 0x00#8, 0x00#8, 0x00#8, 0x00#8, 0x00#8, 0x00#8, 0x00#8, 0x00#8, 0x00#8, 0x00#8, 0x00#8, 0x00#8, 0x00#8]),
    [], (0x2006#64, [0x78#8, 0x56#8, 0x34#8, 0x92#8])⟩,
  ⟨.ustq 1 (.base 3 2), false, [(1, 0x1122334455667788#64), (2, 0x2000#64), (28, 0x0#64), (23, 0x0#64), (24, 0x0#64), (25, 0x0#64), (27, 0x0#64)], (0x2000#64, [0x00#8, 0x00#8, 0x00#8, 0x00#8, 0x00#8, 0x00#8, 0x00#8, 0x00#8, 0x00#8, 0x00#8, 0x00#8, 0x00#8, 0x00#8, 0x00#8, 0x00#8, 0x00#8]),
    [], (0x2003#64, [0x88#8, 0x77#8, 0x66#8, 0x55#8, 0x44#8, 0x33#8, 0x22#8, 0x11#8])⟩]

theorem test_effect_load_store_2 : rows_load_store_2.all Row.completes = true := by decide

/-- Examples of the arithmetic rules. -/
def rows_arithmetic_1 : List Row := [
  ⟨.clr 5, false, [(5, 0x1234#64)], (0#64, []),
    [(5, 0x0#64)], (0#64, [])⟩,
  ⟨.absl (.reg 1) 2, false, [(1, 0xfffffffffffffffb#64), (28, 0x0#64)], (0#64, []),
    [(2, 0x5#64)], (0#64, [])⟩,
  ⟨.absq (.reg 1) 2, false, [(1, 0xfffffffffffffffb#64), (28, 0x0#64)], (0#64, []),
    [(2, 0x5#64)], (0#64, [])⟩,
  ⟨.absq (.reg 1) 1, false, [(1, 0x8000000000000001#64), (28, 0x0#64)], (0#64, []),
    [(1, 0x7fffffffffffffff#64)], (0#64, [])⟩,
  ⟨.negl (.reg 1) 2, false, [(1, 0x5#64)], (0#64, []),
    [(2, 0xfffffffffffffffb#64)], (0#64, [])⟩,
  ⟨.negl (.reg 1) 2, false, [(1, 0x80000000#64)], (0#64, []),
    [(2, 0xffffffff80000000#64)], (0#64, [])⟩,
  ⟨.neglv (.reg 1) 2, false, [(1, 0xffffffffffffffff#64)], (0#64, []),
    [(2, 0x1#64)], (0#64, [])⟩,
  ⟨.negq (.reg 1) 2, false, [(1, 0xffffffff80000000#64)], (0#64, []),
    [(2, 0x80000000#64)], (0#64, [])⟩,
  ⟨.negq (.reg 1) 2, false, [(1, 0x8000000000000000#64)], (0#64, []),
    [(2, 0x8000000000000000#64)], (0#64, [])⟩,
  ⟨.negqv (.reg 1) 2, false, [(1, 0x1#64)], (0#64, []),
    [(2, 0xffffffffffffffff#64)], (0#64, [])⟩,
  ⟨.sextb (.reg 1) 2, false, [(1, 0x1280#64)], (0#64, []),
    [(2, 0xffffffffffffff80#64)], (0#64, [])⟩,
  ⟨.sextb (.reg 1) 2, true, [(1, 0x127f#64)], (0#64, []),
    [(2, 0x7f#64)], (0#64, [])⟩,
  ⟨.sextl (.reg 1) 2, false, [(1, 0x1234567880000000#64)], (0#64, []),
    [(2, 0xffffffff80000000#64)], (0#64, [])⟩,
  ⟨.sextw (.reg 1) 2, false, [(1, 0x12348000#64)], (0#64, []),
    [(2, 0xffffffffffff8000#64)], (0#64, [])⟩,
  ⟨.sextw (.reg 1) 1, true, [(1, 0xffff#64)], (0#64, []),
    [(1, 0xffffffffffffffff#64)], (0#64, [])⟩,
  ⟨.addl 1 (.reg 2) 3, false, [(1, 0x7fffffff#64), (2, 0x1#64)], (0#64, []),
    [(3, 0xffffffff80000000#64)], (0#64, [])⟩]

theorem test_effect_arithmetic_1 : rows_arithmetic_1.all Row.completes = true := by decide

/-- Examples of the arithmetic rules. -/
def rows_arithmetic_2 : List Row := [
  ⟨.addl 1 (.imm 200) 3, false, [(1, 0xffffffffffffff00#64)], (0#64, []),
    [(3, 0xffffffffffffffc8#64)], (0#64, [])⟩,
  ⟨.addlv 1 (.reg 2) 3, false, [(1, 0xffffffffffffffff#64), (2, 0x1#64)], (0#64, []),
    [(3, 0x0#64)], (0#64, [])⟩,
  ⟨.addq 1 (.reg 2) 3, false, [(1, 0xffffffffffffffff#64), (2, 0x2#64)], (0#64, []),
    [(3, 0x1#64)], (0#64, [])⟩,
  ⟨.addq 1 (.imm 5) 3, false, [(1, 0xa#64)], (0#64, []),
    [(3, 0xf#64)], (0#64, [])⟩,
  ⟨.addq 1 (.reg 2) 1, false, [(1, 0x1#64), (2, 0x2#64)], (0#64, []),
    [(1, 0x3#64)], (0#64, [])⟩,
  ⟨.addqv 1 (.reg 2) 3, false, [(1, 0x7ffffffffffffffe#64), (2, 0x1#64)], (0#64, []),
    [(3, 0x7fffffffffffffff#64)], (0#64, [])⟩,
  ⟨.s4addl 1 (.reg 2) 3, false, [(1, 0x3#64), (2, 0x1000#64)], (0#64, []),
    [(3, 0x100c#64)], (0#64, [])⟩,
  ⟨.s4addl 1 (.imm 1) 3, false, [(1, 0x60000000#64)], (0#64, []),
    [(3, 0xffffffff80000001#64)], (0#64, [])⟩,
  ⟨.s4addq 1 (.reg 2) 3, false, [(1, 0x3#64), (2, 0x1000#64)], (0#64, []),
    [(3, 0x100c#64)], (0#64, [])⟩,
  ⟨.s4addq 1 (.imm 1) 3, false, [(1, 0x6000000000000000#64)], (0#64, []),
    [(3, 0x8000000000000001#64)], (0#64, [])⟩,
  ⟨.s8addl 1 (.reg 2) 3, false, [(1, 0x3#64), (2, 0x1000#64)], (0#64, []),
    [(3, 0x1018#64)], (0#64, [])⟩,
  ⟨.s8addl 1 (.imm 1) 3, false, [(1, 0x60000000#64)], (0#64, []),
    [(3, 0x1#64)], (0#64, [])⟩,
  ⟨.s8addq 1 (.reg 2) 3, false, [(1, 0x3#64), (2, 0x1000#64)], (0#64, []),
    [(3, 0x1018#64)], (0#64, [])⟩,
  ⟨.s8addq 1 (.imm 1) 3, false, [(1, 0x6000000000000000#64)], (0#64, []),
    [(3, 0x1#64)], (0#64, [])⟩,
  ⟨.mull 1 (.reg 2) 3, false, [(1, 0x10000#64), (2, 0x8000#64)], (0#64, []),
    [(3, 0xffffffff80000000#64)], (0#64, [])⟩,
  ⟨.mull 1 (.imm 3) 3, false, [(1, 0xfffffffffffffffe#64)], (0#64, []),
    [(3, 0xfffffffffffffffa#64)], (0#64, [])⟩]

theorem test_effect_arithmetic_2 : rows_arithmetic_2.all Row.completes = true := by decide

/-- Examples of the arithmetic rules. -/
def rows_arithmetic_3 : List Row := [
  ⟨.mullv 1 (.reg 2) 3, false, [(1, 0xffffffffffff0000#64), (2, 0x8000#64)], (0#64, []),
    [(3, 0xffffffff80000000#64)], (0#64, [])⟩,
  ⟨.mulq 1 (.reg 2) 3, false, [(1, 0x100000000#64), (2, 0x100000000#64)], (0#64, []),
    [(3, 0x0#64)], (0#64, [])⟩,
  ⟨.mulq 1 (.imm 10) 3, false, [(1, 0xffffffffffffffff#64)], (0#64, []),
    [(3, 0xfffffffffffffff6#64)], (0#64, [])⟩,
  ⟨.mulqv 1 (.reg 2) 3, false, [(1, 0xfffffffffffffffd#64), (2, 0x7#64)], (0#64, []),
    [(3, 0xffffffffffffffeb#64)], (0#64, [])⟩,
  ⟨.subl 1 (.reg 2) 3, false, [(1, 0x5#64), (2, 0x7#64)], (0#64, []),
    [(3, 0xfffffffffffffffe#64)], (0#64, [])⟩,
  ⟨.subl 1 (.imm 1) 3, false, [(1, 0xffffffff80000000#64)], (0#64, []),
    [(3, 0x7fffffff#64)], (0#64, [])⟩,
  ⟨.sublv 1 (.reg 2) 3, false, [(1, 0xffffffff80000001#64), (2, 0x1#64)], (0#64, []),
    [(3, 0xffffffff80000000#64)], (0#64, [])⟩,
  ⟨.subq 1 (.reg 2) 3, false, [(1, 0x0#64), (2, 0x1#64)], (0#64, []),
    [(3, 0xffffffffffffffff#64)], (0#64, [])⟩,
  ⟨.subq 1 (.imm 1) 1, false, [(1, 0xa#64)], (0#64, []),
    [(1, 0x9#64)], (0#64, [])⟩,
  ⟨.subqv 1 (.reg 2) 3, false, [(1, 0x8000000000000001#64), (2, 0x1#64)], (0#64, []),
    [(3, 0x8000000000000000#64)], (0#64, [])⟩,
  ⟨.s4subl 1 (.reg 2) 3, false, [(1, 0x3#64), (2, 0x1000#64)], (0#64, []),
    [(3, 0xfffffffffffff00c#64)], (0#64, [])⟩,
  ⟨.s4subl 1 (.imm 1) 3, false, [(1, 0x60000000#64)], (0#64, []),
    [(3, 0x7fffffff#64)], (0#64, [])⟩,
  ⟨.s4subq 1 (.reg 2) 3, false, [(1, 0x3#64), (2, 0x1000#64)], (0#64, []),
    [(3, 0xfffffffffffff00c#64)], (0#64, [])⟩,
  ⟨.s4subq 1 (.imm 1) 3, false, [(1, 0x6000000000000000#64)], (0#64, []),
    [(3, 0x7fffffffffffffff#64)], (0#64, [])⟩,
  ⟨.s8subl 1 (.reg 2) 3, false, [(1, 0x3#64), (2, 0x1000#64)], (0#64, []),
    [(3, 0xfffffffffffff018#64)], (0#64, [])⟩,
  ⟨.s8subl 1 (.imm 1) 3, false, [(1, 0x60000000#64)], (0#64, []),
    [(3, 0xffffffffffffffff#64)], (0#64, [])⟩]

theorem test_effect_arithmetic_3 : rows_arithmetic_3.all Row.completes = true := by decide

/-- Examples of the arithmetic rules. -/
def rows_arithmetic_4 : List Row := [
  ⟨.s8subq 1 (.reg 2) 3, false, [(1, 0x3#64), (2, 0x1000#64)], (0#64, []),
    [(3, 0xfffffffffffff018#64)], (0#64, [])⟩,
  ⟨.s8subq 1 (.imm 1) 3, false, [(1, 0x6000000000000000#64)], (0#64, []),
    [(3, 0xffffffffffffffff#64)], (0#64, [])⟩,
  ⟨.umulh 1 (.reg 2) 3, false, [(1, 0xffffffffffffffff#64), (2, 0xffffffffffffffff#64)], (0#64, []),
    [(3, 0xfffffffffffffffe#64)], (0#64, [])⟩,
  ⟨.umulh 1 (.imm 16) 3, false, [(1, 0x1234567800000000#64)], (0#64, []),
    [(3, 0x1#64)], (0#64, [])⟩,
  ⟨.divl 1 (.reg 2) 3, false, [(1, 0xfffffffffffffff9#64), (2, 0x2#64), (28, 0x0#64), (23, 0x0#64), (24, 0x0#64), (25, 0x0#64), (27, 0x0#64)], (0#64, []),
    [(3, 0xfffffffffffffffd#64)], (0#64, [])⟩,
  ⟨.divlu 1 (.reg 2) 3, false, [(1, 0xfffffffffffffff9#64), (2, 0x2#64), (28, 0x0#64), (23, 0x0#64), (24, 0x0#64), (25, 0x0#64), (27, 0x0#64)], (0#64, []),
    [(3, 0x7ffffffc#64)], (0#64, [])⟩,
  ⟨.divq 1 (.reg 2) 3, false, [(1, 0xfffffffffffffff9#64), (2, 0x2#64), (28, 0x0#64), (23, 0x0#64), (24, 0x0#64), (25, 0x0#64), (27, 0x0#64)], (0#64, []),
    [(3, 0xfffffffffffffffd#64)], (0#64, [])⟩,
  ⟨.divq 1 (.imm 3) 3, false, [(1, 0x64#64), (28, 0x0#64), (23, 0x0#64), (24, 0x0#64), (25, 0x0#64), (27, 0x0#64)], (0#64, []),
    [(3, 0x21#64)], (0#64, [])⟩,
  ⟨.divqu 1 (.reg 2) 3, false, [(1, 0xfffffffffffffff9#64), (2, 0x2#64), (28, 0x0#64), (23, 0x0#64), (24, 0x0#64), (25, 0x0#64), (27, 0x0#64)], (0#64, []),
    [(3, 0x7ffffffffffffffc#64)], (0#64, [])⟩,
  ⟨.divqu 1 (.imm 3) 3, false, [(1, 0x64#64), (28, 0x0#64), (23, 0x0#64), (24, 0x0#64), (25, 0x0#64), (27, 0x0#64)], (0#64, []),
    [(3, 0x21#64)], (0#64, [])⟩,
  ⟨.reml 1 (.reg 2) 3, false, [(1, 0xfffffffffffffff9#64), (2, 0x2#64), (28, 0x0#64), (23, 0x0#64), (24, 0x0#64), (25, 0x0#64), (27, 0x0#64)], (0#64, []),
    [(3, 0xffffffffffffffff#64)], (0#64, [])⟩,
  ⟨.remlu 1 (.reg 2) 3, false, [(1, 0xfffffffffffffff9#64), (2, 0x2#64), (28, 0x0#64), (23, 0x0#64), (24, 0x0#64), (25, 0x0#64), (27, 0x0#64)], (0#64, []),
    [(3, 0x1#64)], (0#64, [])⟩,
  ⟨.remq 1 (.reg 2) 3, false, [(1, 0xfffffffffffffff9#64), (2, 0x2#64), (28, 0x0#64), (23, 0x0#64), (24, 0x0#64), (25, 0x0#64), (27, 0x0#64)], (0#64, []),
    [(3, 0xffffffffffffffff#64)], (0#64, [])⟩,
  ⟨.remq 1 (.imm 3) 3, false, [(1, 0x64#64), (28, 0x0#64), (23, 0x0#64), (24, 0x0#64), (25, 0x0#64), (27, 0x0#64)], (0#64, []),
    [(3, 0x1#64)], (0#64, [])⟩,
  ⟨.remqu 1 (.reg 2) 3, false, [(1, 0xfffffffffffffff9#64), (2, 0x2#64), (28, 0x0#64), (23, 0x0#64), (24, 0x0#64), (25, 0x0#64), (27, 0x0#64)], (0#64, []),
    [(3, 0x1#64)], (0#64, [])⟩,
  ⟨.remqu 1 (.imm 3) 3, false, [(1, 0x64#64), (28, 0x0#64), (23, 0x0#64), (24, 0x0#64), (25, 0x0#64), (27, 0x0#64)], (0#64, []),
    [(3, 0x1#64)], (0#64, [])⟩]

theorem test_effect_arithmetic_4 : rows_arithmetic_4.all Row.completes = true := by decide

/-- Examples of the logical shift rules. -/
def rows_logical_shift_1 : List Row := [
  ⟨.not (.reg 1) 2, false, [(1, 0xff00ff00ff00ff#64)], (0#64, []),
    [(2, 0xff00ff00ff00ff00#64)], (0#64, [])⟩,
  ⟨.not (.imm 1) 2, false, [], (0#64, []),
    [(2, 0xfffffffffffffffe#64)], (0#64, [])⟩,
  ⟨.and 1 (.reg 2) 3, false, [(1, 0xff00ff00ff00ff00#64), (2, 0xff00ff00ff00ff0#64)], (0#64, []),
    [(3, 0xf000f000f000f00#64)], (0#64, [])⟩,
  ⟨.and 1 (.imm 15) 3, false, [(1, 0x1234#64)], (0#64, []),
    [(3, 0x4#64)], (0#64, [])⟩,
  ⟨.bis 1 (.reg 2) 3, false, [(1, 0xff00ff00ff00ff00#64), (2, 0xff00ff00ff00ff0#64)], (0#64, []),
    [(3, 0xfff0fff0fff0fff0#64)], (0#64, [])⟩,
  ⟨.bis 31 (.imm 7) 3, false, [], (0#64, []),
    [(3, 0x7#64)], (0#64, [])⟩,
  ⟨.or 1 (.reg 2) 3, false, [(1, 0xff00ff00ff00ff00#64), (2, 0xff00ff00ff00ff0#64)], (0#64, []),
    [(3, 0xfff0fff0fff0fff0#64)], (0#64, [])⟩,
  ⟨.xor 1 (.reg 2) 3, false, [(1, 0xff00ff00ff00ff00#64), (2, 0xff00ff00ff00ff0#64)], (0#64, []),
    [(3, 0xf0f0f0f0f0f0f0f0#64)], (0#64, [])⟩,
  ⟨.xor 1 (.imm 255) 1, false, [(1, 0xf0#64)], (0#64, []),
    [(1, 0xf#64)], (0#64, [])⟩,
  ⟨.bic 1 (.reg 2) 3, false, [(1, 0xff00ff00ff00ff00#64), (2, 0xff00ff00ff00ff0#64)], (0#64, []),
    [(3, 0xf000f000f000f000#64)], (0#64, [])⟩,
  ⟨.bic 1 (.imm 3) 3, false, [(1, 0x1007#64)], (0#64, []),
    [(3, 0x1004#64)], (0#64, [])⟩,
  ⟨.andnot 1 (.reg 2) 3, false, [(1, 0xff00ff00ff00ff00#64), (2, 0xff00ff00ff00ff0#64)], (0#64, []),
    [(3, 0xf000f000f000f000#64)], (0#64, [])⟩,
  ⟨.ornot 1 (.reg 2) 3, false, [(1, 0xff00ff00ff00ff00#64), (2, 0xff00ff00ff00ff0#64)], (0#64, []),
    [(3, 0xff0fff0fff0fff0f#64)], (0#64, [])⟩,
  ⟨.ornot 31 (.imm 0) 3, false, [], (0#64, []),
    [(3, 0xffffffffffffffff#64)], (0#64, [])⟩,
  ⟨.eqv 1 (.reg 2) 3, false, [(1, 0xff00ff00ff00ff00#64), (2, 0xff00ff00ff00ff0#64)], (0#64, []),
    [(3, 0xf0f0f0f0f0f0f0f#64)], (0#64, [])⟩,
  ⟨.eqv 1 (.reg 1) 3, false, [(1, 0x55#64)], (0#64, []),
    [(3, 0xffffffffffffffff#64)], (0#64, [])⟩]

theorem test_effect_logical_shift_1 : rows_logical_shift_1.all Row.completes = true := by decide

/-- Examples of the logical shift rules. -/
def rows_logical_shift_2 : List Row := [
  ⟨.xornot 1 (.reg 2) 3, false, [(1, 0xff00ff00ff00ff00#64), (2, 0xff00ff00ff00ff0#64)], (0#64, []),
    [(3, 0xf0f0f0f0f0f0f0f#64)], (0#64, [])⟩,
  ⟨.sll 1 (.imm 4) 3, false, [(1, 0xf00000000000000f#64)], (0#64, []),
    [(3, 0xf0#64)], (0#64, [])⟩,
  ⟨.sll 1 (.reg 2) 3, false, [(1, 0x1#64), (2, 0x7f#64)], (0#64, []),
    [(3, 0x8000000000000000#64)], (0#64, [])⟩,
  ⟨.srl 1 (.imm 4) 3, false, [(1, 0xf00000000000000f#64)], (0#64, []),
    [(3, 0xf00000000000000#64)], (0#64, [])⟩,
  ⟨.srl 1 (.reg 2) 3, false, [(1, 0x8000000000000000#64), (2, 0x7f#64)], (0#64, []),
    [(3, 0x1#64)], (0#64, [])⟩,
  ⟨.sra 1 (.imm 4) 3, false, [(1, 0xf00000000000000f#64)], (0#64, []),
    [(3, 0xff00000000000000#64)], (0#64, [])⟩,
  ⟨.sra 1 (.reg 2) 3, false, [(1, 0x8000000000000000#64), (2, 0x7f#64)], (0#64, []),
    [(3, 0xffffffffffffffff#64)], (0#64, [])⟩]

theorem test_effect_logical_shift_2 : rows_logical_shift_2.all Row.completes = true := by decide

/-- Examples of the relational rules. -/
def rows_relational : List Row := [
  ⟨.cmpeq 1 (.reg 2) 3, false, [(1, 0x5#64), (2, 0x5#64)], (0#64, []),
    [(3, 0x1#64)], (0#64, [])⟩,
  ⟨.cmpeq 1 (.imm 255) 3, false, [(1, 0xffffffffffffffff#64)], (0#64, []),
    [(3, 0x0#64)], (0#64, [])⟩,
  ⟨.cmplt 1 (.reg 2) 3, false, [(1, 0xffffffffffffffff#64), (2, 0x0#64)], (0#64, []),
    [(3, 0x1#64)], (0#64, [])⟩,
  ⟨.cmplt 1 (.imm 1) 3, false, [(1, 0x1#64)], (0#64, []),
    [(3, 0x0#64)], (0#64, [])⟩,
  ⟨.cmple 1 (.reg 2) 3, false, [(1, 0x7fffffffffffffff#64), (2, 0x8000000000000000#64)], (0#64, []),
    [(3, 0x0#64)], (0#64, [])⟩,
  ⟨.cmple 1 (.imm 1) 3, false, [(1, 0x1#64)], (0#64, []),
    [(3, 0x1#64)], (0#64, [])⟩,
  ⟨.cmpult 1 (.reg 2) 3, false, [(1, 0xffffffffffffffff#64), (2, 0x0#64)], (0#64, []),
    [(3, 0x0#64)], (0#64, [])⟩,
  ⟨.cmpult 1 (.reg 2) 3, false, [(1, 0x0#64), (2, 0xffffffffffffffff#64)], (0#64, []),
    [(3, 0x1#64)], (0#64, [])⟩,
  ⟨.cmpule 1 (.reg 2) 3, false, [(1, 0x7fffffffffffffff#64), (2, 0x8000000000000000#64)], (0#64, []),
    [(3, 0x1#64)], (0#64, [])⟩,
  ⟨.cmpule 1 (.imm 0) 3, false, [(1, 0x1#64)], (0#64, []),
    [(3, 0x0#64)], (0#64, [])⟩]

theorem test_effect_relational : rows_relational.all Row.completes = true := by decide

/-- Examples of the move rules. -/
def rows_move_1 : List Row := [
  ⟨.mov (.reg 1) 2, false, [(1, 0x1122334455667788#64)], (0#64, []),
    [(2, 0x1122334455667788#64)], (0#64, [])⟩,
  ⟨.mov (.imm 200) 2, false, [], (0#64, []),
    [(2, 0xc8#64)], (0#64, [])⟩,
  ⟨.mov (.imm (-5)) 2, false, [], (0#64, []),
    [(2, 0xfffffffffffffffb#64)], (0#64, [])⟩,
  ⟨.cmoveq 1 (.reg 2) 3, false, [(1, 0x0#64), (2, 0xaa#64), (3, 0xbb#64)], (0#64, []),
    [(3, 0xaa#64)], (0#64, [])⟩,
  ⟨.cmoveq 1 (.reg 2) 3, false, [(1, 0x4#64), (2, 0xaa#64), (3, 0xbb#64)], (0#64, []),
    [(3, 0xbb#64)], (0#64, [])⟩,
  ⟨.cmovne 1 (.reg 2) 3, false, [(1, 0x4#64), (2, 0xaa#64), (3, 0xbb#64)], (0#64, []),
    [(3, 0xaa#64)], (0#64, [])⟩,
  ⟨.cmovne 1 (.imm 7) 3, false, [(1, 0x0#64), (3, 0xbb#64)], (0#64, []),
    [(3, 0xbb#64)], (0#64, [])⟩,
  ⟨.cmovlt 1 (.reg 2) 3, false, [(1, 0x8000000000000000#64), (2, 0xaa#64), (3, 0xbb#64)], (0#64, []),
    [(3, 0xaa#64)], (0#64, [])⟩,
  ⟨.cmovlt 1 (.reg 2) 3, false, [(1, 0x0#64), (2, 0xaa#64), (3, 0xbb#64)], (0#64, []),
    [(3, 0xbb#64)], (0#64, [])⟩,
  ⟨.cmovle 1 (.reg 2) 3, false, [(1, 0x0#64), (2, 0xaa#64), (3, 0xbb#64)], (0#64, []),
    [(3, 0xaa#64)], (0#64, [])⟩,
  ⟨.cmovle 1 (.reg 2) 3, false, [(1, 0x1#64), (2, 0xaa#64), (3, 0xbb#64)], (0#64, []),
    [(3, 0xbb#64)], (0#64, [])⟩,
  ⟨.cmovgt 1 (.reg 2) 3, false, [(1, 0x1#64), (2, 0xaa#64), (3, 0xbb#64)], (0#64, []),
    [(3, 0xaa#64)], (0#64, [])⟩,
  ⟨.cmovgt 1 (.reg 2) 3, false, [(1, 0xffffffffffffffff#64), (2, 0xaa#64), (3, 0xbb#64)], (0#64, []),
    [(3, 0xbb#64)], (0#64, [])⟩,
  ⟨.cmovge 1 (.reg 2) 3, false, [(1, 0x0#64), (2, 0xaa#64), (3, 0xbb#64)], (0#64, []),
    [(3, 0xaa#64)], (0#64, [])⟩,
  ⟨.cmovge 1 (.reg 2) 3, false, [(1, 0xffffffffffffffff#64), (2, 0xaa#64), (3, 0xbb#64)], (0#64, []),
    [(3, 0xbb#64)], (0#64, [])⟩,
  ⟨.cmovlbc 1 (.reg 2) 3, false, [(1, 0xfffffffffffffffe#64), (2, 0xaa#64), (3, 0xbb#64)], (0#64, []),
    [(3, 0xaa#64)], (0#64, [])⟩]

theorem test_effect_move_1 : rows_move_1.all Row.completes = true := by decide

/-- Examples of the move rules. -/
def rows_move_2 : List Row := [
  ⟨.cmovlbc 1 (.reg 2) 3, false, [(1, 0x1#64), (2, 0xaa#64), (3, 0xbb#64)], (0#64, []),
    [(3, 0xbb#64)], (0#64, [])⟩,
  ⟨.cmovlbs 1 (.reg 2) 3, false, [(1, 0x1#64), (2, 0xaa#64), (3, 0xbb#64)], (0#64, []),
    [(3, 0xaa#64)], (0#64, [])⟩,
  ⟨.cmovlbs 1 (.reg 2) 3, false, [(1, 0x2#64), (2, 0xaa#64), (3, 0xbb#64)], (0#64, []),
    [(3, 0xbb#64)], (0#64, [])⟩]

theorem test_effect_move_2 : rows_move_2.all Row.completes = true := by decide

/-- Examples of the byte manipulation rules. -/
def rows_byte_manipulation_1 : List Row := [
  ⟨.cmpbge 1 (.reg 2) 3, false, [(1, 0x102807f00ff10aa#64), (2, 0x10181800001ffaa#64)], (0#64, []),
    [(3, 0xcd#64)], (0#64, [])⟩,
  ⟨.cmpbge 31 (.reg 2) 3, false, [(2, 0x4142004445464700#64)], (0#64, []),
    [(3, 0x21#64)], (0#64, [])⟩,
  ⟨.extbl 1 (.imm 2) 3, false, [(1, 0x8877665544332211#64)], (0#64, []),
    [(3, 0x33#64)], (0#64, [])⟩,
  ⟨.extbl 1 (.reg 2) 3, false, [(1, 0x8877665544332211#64), (2, 0x2007#64)], (0#64, []),
    [(3, 0x88#64)], (0#64, [])⟩,
  ⟨.extwl 1 (.imm 2) 3, false, [(1, 0x8877665544332211#64)], (0#64, []),
    [(3, 0x4433#64)], (0#64, [])⟩,
  ⟨.extwl 1 (.reg 2) 3, false, [(1, 0x8877665544332211#64), (2, 0x2007#64)], (0#64, []),
    [(3, 0x88#64)], (0#64, [])⟩,
  ⟨.extll 1 (.imm 2) 3, false, [(1, 0x8877665544332211#64)], (0#64, []),
    [(3, 0x66554433#64)], (0#64, [])⟩,
  ⟨.extll 1 (.reg 2) 3, false, [(1, 0x8877665544332211#64), (2, 0x2007#64)], (0#64, []),
    [(3, 0x88#64)], (0#64, [])⟩,
  ⟨.extql 1 (.imm 2) 3, false, [(1, 0x8877665544332211#64)], (0#64, []),
    [(3, 0x887766554433#64)], (0#64, [])⟩,
  ⟨.extql 1 (.reg 2) 3, false, [(1, 0x8877665544332211#64), (2, 0x2007#64)], (0#64, []),
    [(3, 0x88#64)], (0#64, [])⟩,
  ⟨.extwh 1 (.imm 6) 3, false, [(1, 0x8877665544332211#64)], (0#64, []),
    [(3, 0x0#64)], (0#64, [])⟩,
  ⟨.extwh 1 (.imm 0) 3, false, [(1, 0x8877665544332211#64)], (0#64, []),
    [(3, 0x2211#64)], (0#64, [])⟩,
  ⟨.extlh 1 (.imm 6) 3, false, [(1, 0x8877665544332211#64)], (0#64, []),
    [(3, 0x22110000#64)], (0#64, [])⟩,
  ⟨.extlh 1 (.imm 0) 3, false, [(1, 0x8877665544332211#64)], (0#64, []),
    [(3, 0x44332211#64)], (0#64, [])⟩,
  ⟨.extqh 1 (.imm 6) 3, false, [(1, 0x8877665544332211#64)], (0#64, []),
    [(3, 0x6655443322110000#64)], (0#64, [])⟩,
  ⟨.extqh 1 (.imm 0) 3, false, [(1, 0x8877665544332211#64)], (0#64, []),
    [(3, 0x8877665544332211#64)], (0#64, [])⟩]

theorem test_effect_byte_manipulation_1 : rows_byte_manipulation_1.all Row.completes = true := by decide

/-- Examples of the byte manipulation rules. -/
def rows_byte_manipulation_2 : List Row := [
  ⟨.insbl 1 (.imm 2) 3, false, [(1, 0x8877665544332211#64)], (0#64, []),
    [(3, 0x110000#64)], (0#64, [])⟩,
  ⟨.insbl 1 (.imm 7) 3, false, [(1, 0x8877665544332211#64)], (0#64, []),
    [(3, 0x1100000000000000#64)], (0#64, [])⟩,
  ⟨.inswl 1 (.imm 2) 3, false, [(1, 0x8877665544332211#64)], (0#64, []),
    [(3, 0x22110000#64)], (0#64, [])⟩,
  ⟨.inswl 1 (.imm 7) 3, false, [(1, 0x8877665544332211#64)], (0#64, []),
    [(3, 0x1100000000000000#64)], (0#64, [])⟩,
  ⟨.insll 1 (.imm 2) 3, false, [(1, 0x8877665544332211#64)], (0#64, []),
    [(3, 0x443322110000#64)], (0#64, [])⟩,
  ⟨.insll 1 (.imm 7) 3, false, [(1, 0x8877665544332211#64)], (0#64, []),
    [(3, 0x1100000000000000#64)], (0#64, [])⟩,
  ⟨.insql 1 (.imm 2) 3, false, [(1, 0x8877665544332211#64)], (0#64, []),
    [(3, 0x6655443322110000#64)], (0#64, [])⟩,
  ⟨.insql 1 (.imm 7) 3, false, [(1, 0x8877665544332211#64)], (0#64, []),
    [(3, 0x1100000000000000#64)], (0#64, [])⟩,
  ⟨.inswh 1 (.imm 7) 3, false, [(1, 0x8877665544332211#64)], (0#64, []),
    [(3, 0x22#64)], (0#64, [])⟩,
  ⟨.inswh 1 (.imm 0) 3, false, [(1, 0x8877665544332211#64)], (0#64, []),
    [(3, 0x0#64)], (0#64, [])⟩,
  ⟨.inslh 1 (.imm 7) 3, false, [(1, 0x8877665544332211#64)], (0#64, []),
    [(3, 0x443322#64)], (0#64, [])⟩,
  ⟨.inslh 1 (.imm 0) 3, false, [(1, 0x8877665544332211#64)], (0#64, []),
    [(3, 0x0#64)], (0#64, [])⟩,
  ⟨.insqh 1 (.imm 7) 3, false, [(1, 0x8877665544332211#64)], (0#64, []),
    [(3, 0x88776655443322#64)], (0#64, [])⟩,
  ⟨.insqh 1 (.imm 0) 3, false, [(1, 0x8877665544332211#64)], (0#64, []),
    [(3, 0x0#64)], (0#64, [])⟩,
  ⟨.mskbl 1 (.imm 2) 3, false, [(1, 0x8877665544332211#64)], (0#64, []),
    [(3, 0x8877665544002211#64)], (0#64, [])⟩,
  ⟨.mskbl 1 (.imm 7) 3, false, [(1, 0x8877665544332211#64)], (0#64, []),
    [(3, 0x77665544332211#64)], (0#64, [])⟩]

theorem test_effect_byte_manipulation_2 : rows_byte_manipulation_2.all Row.completes = true := by decide

/-- Examples of the byte manipulation rules. -/
def rows_byte_manipulation_3 : List Row := [
  ⟨.mskwl 1 (.imm 2) 3, false, [(1, 0x8877665544332211#64)], (0#64, []),
    [(3, 0x8877665500002211#64)], (0#64, [])⟩,
  ⟨.mskwl 1 (.imm 7) 3, false, [(1, 0x8877665544332211#64)], (0#64, []),
    [(3, 0x77665544332211#64)], (0#64, [])⟩,
  ⟨.mskll 1 (.imm 2) 3, false, [(1, 0x8877665544332211#64)], (0#64, []),
    [(3, 0x8877000000002211#64)], (0#64, [])⟩,
  ⟨.mskll 1 (.imm 7) 3, false, [(1, 0x8877665544332211#64)], (0#64, []),
    [(3, 0x77665544332211#64)], (0#64, [])⟩,
  ⟨.mskql 1 (.imm 2) 3, false, [(1, 0x8877665544332211#64)], (0#64, []),
    [(3, 0x2211#64)], (0#64, [])⟩,
  ⟨.mskql 1 (.imm 7) 3, false, [(1, 0x8877665544332211#64)], (0#64, []),
    [(3, 0x77665544332211#64)], (0#64, [])⟩,
  ⟨.mskwh 1 (.imm 7) 3, false, [(1, 0x8877665544332211#64)], (0#64, []),
    [(3, 0x8877665544332200#64)], (0#64, [])⟩,
  ⟨.mskwh 1 (.imm 0) 3, false, [(1, 0x8877665544332211#64)], (0#64, []),
    [(3, 0x8877665544332211#64)], (0#64, [])⟩,
  ⟨.msklh 1 (.imm 7) 3, false, [(1, 0x8877665544332211#64)], (0#64, []),
    [(3, 0x8877665544000000#64)], (0#64, [])⟩,
  ⟨.msklh 1 (.imm 0) 3, false, [(1, 0x8877665544332211#64)], (0#64, []),
    [(3, 0x8877665544332211#64)], (0#64, [])⟩,
  ⟨.mskqh 1 (.imm 7) 3, false, [(1, 0x8877665544332211#64)], (0#64, []),
    [(3, 0x8800000000000000#64)], (0#64, [])⟩,
  ⟨.mskqh 1 (.imm 0) 3, false, [(1, 0x8877665544332211#64)], (0#64, []),
    [(3, 0x8877665544332211#64)], (0#64, [])⟩,
  ⟨.zap 1 (.imm 15) 3, false, [(1, 0x8877665544332211#64)], (0#64, []),
    [(3, 0x8877665500000000#64)], (0#64, [])⟩,
  ⟨.zap 1 (.reg 2) 3, false, [(1, 0x8877665544332211#64), (2, 0xff81#64)], (0#64, []),
    [(3, 0x77665544332200#64)], (0#64, [])⟩,
  ⟨.zapnot 1 (.imm 15) 3, false, [(1, 0x8877665544332211#64)], (0#64, []),
    [(3, 0x44332211#64)], (0#64, [])⟩,
  ⟨.zapnot 1 (.reg 2) 3, false, [(1, 0x8877665544332211#64), (2, 0xff81#64)], (0#64, []),
    [(3, 0x8800000000000011#64)], (0#64, [])⟩]

theorem test_effect_byte_manipulation_3 : rows_byte_manipulation_3.all Row.completes = true := by decide

/-- The overflow examples of spec/41_arithmetic.md: the wrapped result is written (R322). -/
def rows_overflow : List Row := [
  ⟨.neglv (.reg 1) 2, false, [(1, 0x80000000#64)], (0#64, []),
    [(2, 0xffffffff80000000#64)], (0#64, [])⟩,
  ⟨.negqv (.reg 1) 2, false, [(1, 0x8000000000000000#64)], (0#64, []),
    [(2, 0x8000000000000000#64)], (0#64, [])⟩,
  ⟨.addlv 1 (.reg 2) 3, false, [(1, 0x7fffffff#64), (2, 0x1#64)], (0#64, []),
    [(3, 0xffffffff80000000#64)], (0#64, [])⟩,
  ⟨.addqv 1 (.reg 2) 3, false, [(1, 0x7fffffffffffffff#64), (2, 0x1#64)], (0#64, []),
    [(3, 0x8000000000000000#64)], (0#64, [])⟩,
  ⟨.mullv 1 (.reg 2) 3, false, [(1, 0x10000#64), (2, 0x8000#64)], (0#64, []),
    [(3, 0xffffffff80000000#64)], (0#64, [])⟩,
  ⟨.mulqv 1 (.reg 2) 3, false, [(1, 0x100000000#64), (2, 0x80000000#64)], (0#64, []),
    [(3, 0x8000000000000000#64)], (0#64, [])⟩,
  ⟨.sublv 1 (.reg 2) 3, false, [(1, 0xffffffff80000000#64), (2, 0x1#64)], (0#64, []),
    [(3, 0x7fffffff#64)], (0#64, [])⟩,
  ⟨.subqv 1 (.reg 2) 3, false, [(1, 0x8000000000000000#64), (2, 0x1#64)], (0#64, []),
    [(3, 0x7fffffffffffffff#64)], (0#64, [])⟩]

theorem test_overflow : rows_overflow.all Row.overflows = true := by decide

theorem test_misaligned_1 :
    misalignedAt (.ldw 1 (.base 1 2)) (start false [(2, 0x2000#64), (28, 0x0#64), (23, 0x0#64), (24, 0x0#64)] 0 []) = some 0x2001#64 := by decide

theorem test_misaligned_2 :
    misalignedAt (.ldl 1 (.base 2 2)) (start false [(2, 0x2000#64)] 0 []) = some 0x2002#64 := by decide

theorem test_misaligned_3 :
    misalignedAt (.stq 1 (.base 4 2)) (start false [(1, 0x1122334455667788#64), (2, 0x2000#64)] 0 []) = some 0x2004#64 := by decide

/-- The division examples with divisor zero (R323). -/
theorem test_divide_by_zero : [dividesByZero (.divl 1 (.reg 2) 3) (start false [(1, 0x7#64), (2, 0x0#64), (28, 0x0#64), (23, 0x0#64), (24, 0x0#64), (25, 0x0#64), (27, 0x0#64)] 0 []),
    dividesByZero (.divlu 1 (.reg 2) 3) (start false [(1, 0x7#64), (2, 0x0#64), (28, 0x0#64), (23, 0x0#64), (24, 0x0#64), (25, 0x0#64), (27, 0x0#64)] 0 []),
    dividesByZero (.reml 1 (.reg 2) 3) (start false [(1, 0x7#64), (2, 0x0#64), (28, 0x0#64), (23, 0x0#64), (24, 0x0#64), (25, 0x0#64), (27, 0x0#64)] 0 []),
    dividesByZero (.remlu 1 (.reg 2) 3) (start false [(1, 0x7#64), (2, 0x0#64), (28, 0x0#64), (23, 0x0#64), (24, 0x0#64), (25, 0x0#64), (27, 0x0#64)] 0 [])].all id = true := by decide

/-- The pc after the control examples of spec/45_control.md, and the return address where one is written. -/
theorem test_control_1 : ([pcAfter (.beq 1 (.disp 15)) [(1, 0x0#64)] 0x1000#64 == some 0x1040#64,
    pcAfter (.beq 1 (.disp 15)) [(1, 0x100000000#64)] 0x1000#64 == some 0x1004#64,
    pcAfter (.bne 1 (.disp 15)) [(1, 0x100000000#64)] 0x1000#64 == some 0x1040#64,
    pcAfter (.bne 1 (.disp 15)) [(1, 0x0#64)] 0x1000#64 == some 0x1004#64,
    pcAfter (.blt 1 (.disp 15)) [(1, 0x8000000000000000#64)] 0x1000#64 == some 0x1040#64,
    pcAfter (.blt 1 (.disp 15)) [(1, 0x0#64)] 0x1000#64 == some 0x1004#64,
    pcAfter (.ble 1 (.disp 15)) [(1, 0x0#64)] 0x1000#64 == some 0x1040#64,
    pcAfter (.ble 1 (.disp 15)) [(1, 0x1#64)] 0x1000#64 == some 0x1004#64,
    pcAfter (.bgt 1 (.disp 15)) [(1, 0x1#64)] 0x1000#64 == some 0x1040#64,
    pcAfter (.bgt 1 (.disp 15)) [(1, 0xffffffffffffffff#64)] 0x1000#64 == some 0x1004#64,
    pcAfter (.bge 1 (.disp 15)) [(1, 0x0#64)] 0x1000#64 == some 0x1040#64,
    pcAfter (.bge 1 (.disp 15)) [(1, 0xffffffffffffffff#64)] 0x1000#64 == some 0x1004#64,
    pcAfter (.blbc 1 (.disp 15)) [(1, 0xfffffffffffffffe#64)] 0x1000#64 == some 0x1040#64,
    pcAfter (.blbc 1 (.disp 15)) [(1, 0x1#64)] 0x1000#64 == some 0x1004#64,
    pcAfter (.blbs 1 (.disp 15)) [(1, 0x1#64)] 0x1000#64 == some 0x1040#64,
    pcAfter (.blbs 1 (.disp 15)) [(1, 0x2#64)] 0x1000#64 == some 0x1004#64] : List Bool).all id = true := by decide

theorem test_control_2 : ([pcAfter (.br 31 (.disp 2097147)) [] 0x1000#64 == some 0xff0#64,
    pcAfter (.br 5 (.disp 0)) [] 0x1000#64 == some 0x1004#64,
    pcAfter (.bsr 26 (.disp 1023)) [] 0x1000#64 == some 0x2000#64,
    pcAfter (.bsr 5 (.disp 1023)) [] 0x1000#64 == some 0x2000#64,
    pcAfter (.jmp 31 (.reg 4 (.bits 0))) [(4, 0x3003#64)] 0x1000#64 == some 0x3000#64,
    pcAfter (.jmp 5 (.reg 5 (.bits 0))) [(5, 0x3000#64)] 0x1000#64 == some 0x3000#64,
    pcAfter (.jsr 26 (.reg 27 (.bits 0))) [(27, 0x2000#64)] 0x1000#64 == some 0x2000#64,
    pcAfter (.jsr 26 (.reg 27 (.bits 0))) [(27, 0x2000#64)] 0x1000#64 == some 0x2000#64,
    pcAfter (.ret 31 26 1) [(26, 0x1004#64)] 0x2010#64 == some 0x1004#64,
    pcAfter (.ret 31 7 1) [(7, 0x1234#64)] 0x2010#64 == some 0x1234#64,
    pcAfter (.jsrCoroutine 26 26 0) [(26, 0x3000#64)] 0x1000#64 == some 0x3000#64,
    pcAfter (.jsrCoroutine 5 6 0) [(6, 0x3000#64)] 0x1000#64 == some 0x3000#64] : List Bool).all id = true := by decide

/-- The return addresses of the control examples (each stands at 0x1000). -/
def rows_link : List Row := [
  ⟨.br 5 (.disp 0), true, [], (0#64, []), [(5, 0x1004#64)], (0#64, [])⟩,
  ⟨.bsr 26 (.disp 1023), true, [], (0#64, []), [(26, 0x1004#64)], (0#64, [])⟩,
  ⟨.bsr 5 (.disp 1023), true, [], (0#64, []), [(5, 0x1004#64)], (0#64, [])⟩,
  ⟨.jmp 5 (.reg 5 (.bits 0)), true, [(5, 0x3000#64)], (0#64, []), [(5, 0x1004#64)], (0#64, [])⟩,
  ⟨.jsr 26 (.reg 27 (.bits 0)), true, [(27, 0x2000#64)], (0#64, []), [(26, 0x1004#64)], (0#64, [])⟩,
  ⟨.jsr 26 (.reg 27 (.bits 0)), true, [(27, 0x2000#64)], (0#64, []), [(26, 0x1004#64)], (0#64, [])⟩,
  ⟨.jsrCoroutine 26 26 0, true, [(26, 0x3000#64)], (0#64, []), [(26, 0x1004#64)], (0#64, [])⟩,
  ⟨.jsrCoroutine 5 6 0, true, [(6, 0x3000#64)], (0#64, []), [(5, 0x1004#64)], (0#64, [])⟩]

theorem test_link : rows_link.all Row.completes = true := by decide

/-! Ill-formed statements: each check of WellFormed refuses a term of its own (R73, R115, R295, R297, R298, R81) -/

theorem test_offset_out_of_range :
    [(Instr.ldq 1 (.base 32768 2)).illFormed? true, (Instr.lda 1 (.base (-32769) 2)).illFormed? true,
      (Instr.ldah 1 32768 2).illFormed? true, (Instr.ldgp 29 (-32769) 27).illFormed? true].all
        (fun o => o == some IllFormed.offsetOutOfRange) = true ∧
    (Instr.ldq 1 (.base 32767 2)).WellFormed true ∧ (Instr.ldah 1 (-32768) 2).WellFormed true := by decide

theorem test_operand_in_temporary_set :
    [(Instr.ldb 28 (.base 0 2)).illFormed? true, (Instr.uldq 1 (.base 0 24)).illFormed? true,
      (Instr.stw 27 (.base 0 2)).illFormed? false, (Instr.divl 1 (.reg 25) 3).illFormed? true,
      (Instr.absq (.reg 1) 28).illFormed? true, (Instr.addl 28 (.imm 256) 3).illFormed? true].all
        (fun o => o == some IllFormed.operandInTemporarySet) = true ∧
    (Instr.stw 27 (.base 0 2)).WellFormed true ∧ (Instr.addl 28 (.imm 255) 3).WellFormed true := by decide

theorem test_palcode_out_of_range :
    (Instr.callPal (2 ^ 26)).illFormed? true = some .palcodeOutOfRange ∧ (Instr.callPal (2 ^ 26 - 1)).WellFormed true := by
  decide

theorem test_fetch_offset_nonzero :
    (Instr.fetch 8 4).illFormed? true = some .fetchOffsetNonzero ∧
    (Instr.fetchM (-1) 4).illFormed? true = some .fetchOffsetNonzero ∧ (Instr.fetch 0 4).WellFormed true := by decide

/-! Ends and outcomes -/

/-- The outcome is a next state. -/
def isNext : Outcome → Bool
  | .next _ => true
  | _ => false

/-- The next state has the property. -/
def nextHas (o : Outcome) (p : State → Bool) : Bool :=
  match o with
  | .next t => p t
  | _ => false

theorem of_isNext {o : Outcome} (h : isNext o = true) : ∃ t, o = .next t := by
  cases o with
  | next t => exact ⟨t, rfl⟩
  | fault _ => cases h
  | refused _ => cases h

/-- What a statement is refused for. -/
def refusal (o : Outcome) : Option Refusal :=
  match o with
  | .refused r => some r
  | _ => none

/-- The reset state with nothing mapped. -/
def unmapped : State := { State.reset with launch := { State.reset.launch with regions := [] } }

/-- The reset state without `BWX`. -/
def withoutBwx : State := { State.reset with launch := { State.reset.launch with bwx := false } }

/-- The reset state with the four bytes from 0x2004 on as program text. -/
def withText : State := { State.reset with launch := { State.reset.launch with text := [⟨0x2004#64, 4⟩] } }

/-- The reset state with a statement placed at the pc. -/
def placed (i : Instr) : State :=
  { State.reset with launch := { State.reset.launch with statements := [(0x1000#64, i)] } }

/-- The reset state with statements that cover the pc and 0x1040, where none begins. -/
def across : State :=
  { State.reset with launch := { State.reset.launch with statements := [(0x0FFE#64, .nop), (0x103E#64, .nop)] } }

/-- The reset state with a handler for one code of `call_pal`. -/
def withHandler : State := { State.reset with launch := { State.reset.launch with palHandlers := [0x83] } }

/-- The reset state with the lock flag set and a locked address. -/
def locked (a : Word) : State := State.reset.setLock a

/-- R57: the examples of `ldl_l` and `ldq_l`. -/
theorem test_load_locked :
    nextHas (exec (.ldlL 1 (.base 0 2)) (start true [(2, 0x2000#64)] 0x2000#64 [0xFF#8, 0xFF#8, 0xFF#8, 0x7F#8]))
      (fun t => t.x 1 == 0x7FFFFFFF#64 && t.lockFlag && t.lockAddr == 0x2000#64) = true ∧
    nextHas (exec (.ldqL 1 (.base 0 2)) (start true [(2, 0x2000#64)] 0x2000#64 [5#8]))
      (fun t => t.x 1 == 5#64 && t.lockFlag && t.lockAddr == 0x2000#64) = true := by decide

/-- R59: the flag set and the address in the locked block (its last longword), and the flag clear. -/
theorem test_store_conditional :
    nextHas (exec (.stlC 1 (.base 12 2)) ((locked 0x2000#64).setX 1 0x11223344#64))
      (fun t => t.x 1 == 1#64 && !t.lockFlag && t.byteAt 0x200C#64 == 0x44#8 && t.byteAt 0x200F#64 == 0x11#8) = true ∧
    nextHas (exec (.stqC 1 (.base 0 2)) (State.reset.setX 1 7#64))
      (fun t => t.x 1 == 0#64 && !t.lockFlag && t.byteAt 0x2000#64 == 0#8) = true := by decide

/-- R116: an `ldgp` at its own address completes, and any other is refused. -/
theorem test_ldgp : isNext (exec (.ldgp 29 0 27) State.reset) = true ∧
    refusal (exec (.ldgp 29 4 27) State.reset) = some .ldgpNotOwnAddress := by decide

/-- R296, R300 (their examples), R299. -/
theorem test_implementation_reads :
    nextHas (exec (.amask (.reg 1) 2) (State.reset.setX 1 0x107#64)) (fun t => t.x 2 == 0x106#64) = true ∧
    nextHas (exec (.implver 1) State.reset) (fun t => t.x 1 == 1#64) = true ∧
    nextHas (exec (.rpcc 1) State.reset) (fun t => t.pc == 0x1004#64) = true := by decide

/-- R295, R327: without a handler the run ends with the code, the pc at the `call_pal`; with one it goes on, and the
handler's bytes do not reach the program text (R56). -/
theorem test_call_pal : exec (.callPal 0x83) State.reset = .fault (.envCall 0x83 State.reset) ∧
    exec (.callPal 0x84) withHandler = .fault (.envCall 0x84 withHandler) ∧
    exec (.callPal 0x83) withHandler = .next (withHandler.palReturn (Config.pal 0x83 withHandler)) ∧
    ((withText.palStores [(0x2003#64, 7#8), (0x2004#64, 8#8)]).byteAt 0x2003#64 = 7#8) ∧
    ((withText.palStores [(0x2003#64, 7#8), (0x2004#64, 8#8)]).byteAt 0x2004#64 = 0#8) :=
  ⟨rfl, rfl, rfl, by decide, by decide⟩

/-- R360: no fetch and no direct branch reaches the middle of a placed statement; a branch that is not taken goes on. -/
theorem test_middle_of_a_statement : refusal (step across) = some .insideStatement ∧
    refusal (exec (.br 31 (.disp 15)) across) = some .insideStatement ∧
    refusal (exec (.beq 31 (.disp 15)) across) = some .insideStatement ∧
    isNext (exec (.bne 31 (.disp 15)) across) = true ∧
    nextHas (step (across.withFetchWord 32 0x47FF041F)) (fun t => t.pc == 0x1004#64) = true := by decide

/-- R297, R298, R301 to R306: the pc advances. -/
theorem test_no_effect :
    ([.fetch 0 4, .fetchM 0 4, .nop, .unop, .trapb, .excb, .mb, .wmb] : List Instr).all
      (fun i => nextHas (exec i State.reset) fun t => t == State.reset.setPc 0x1004#64) = true := by decide

/-- R297: a nonzero offset is refused. -/
theorem test_fetch_refused : refusal (exec (.fetch 8 4) State.reset) = some (.illFormed .fetchOffsetNonzero) := by decide

/-- R56: a store whose last byte, or first byte, is program text is refused, and its neighbours are not. -/
theorem test_store_to_text :
    refusal (exec (.stl 1 (.base 4 2)) withText) = some .storeToText ∧
    refusal (exec (.ustw 1 (.base 3 2)) withText) = some .storeToText ∧
    isNext (exec (.stl 1 (.base 0 2)) withText) = true ∧ isNext (exec (.stl 1 (.base 8 2)) withText) = true := by decide

/-- R47: an access to an address that is not mapped. -/
theorem test_access_violation :
    exec (.ldq 1 (.base 8 2)) unmapped = .fault (.accessViolation 0x2008#64 unmapped) := by rfl

/-- R56, R59: a store-conditional to program text is refused where it would store, and goes on where it does not. -/
theorem test_store_conditional_to_text :
    refusal (exec (.stlC 1 (.base 4 2)) (withText.setLock 0x2000#64)) = some .storeToText ∧
    nextHas (exec (.stlC 1 (.base 4 2)) withText) (fun t => t.x 1 == 0#64) = true := by decide

/-- A step from reset runs the placed word (nop is 0x47FF041F, lda $1, -8($2) is 0x2022FFF8), and a placed macro. -/
theorem test_step :
    nextHas (step (State.reset.withFetchWord 32 0x47FF041F)) (fun t => t.pc == 0x1004#64) = true ∧
    nextHas (step (State.reset.withFetchWord 32 0x2022FFF8)) (fun t => t.x 1 == 0x1FF8#64) = true ∧
    nextHas (step (placed (.ldiq 1 5))) (fun t => t.x 1 == 5#64) = true := by decide

/-- R92: what the decoder reads, and what it refuses (opcode 01, and a floating-point load, opcode 22). -/
theorem test_decode_table_word : decodeTableWord 32 0x2022FFF8 = some (.lda 1 (.base (-8) 2)) ∧
    decodeTableWord 32 0x04000000 = none ∧ decodeTableWord 32 0x88220000 = none := by decide

/-! Witnesses: the hypotheses of each statement are met together by a concrete state and operands. A theorem
`test_<Name>_hypotheses` is about `Obligations.<Name>`. -/

theorem mapsAll_iff {s : State} {kind : AccessKind} {bytes : List Word} :
    s.MapsAll kind bytes ↔ bytes.all (s.launch.mapped kind) = true := by simp [State.MapsAll]

theorem offText_iff {s : State} {bytes : List Word} :
    s.OffText bytes ↔ bytes.all (fun b => !s.launch.isText b) = true := by simp [State.OffText]

theorem test_StepKeepsTheInvariant_hypotheses :
    (placed .nop).Inv ∧ ∃ t, step (placed .nop) = .next t := ⟨⟨rfl, rfl⟩, of_isNext (by decide)⟩

theorem test_FetchIsAlignedAndMapped_hypotheses :
    ((placed .nop).PcAligned ∧ ∃ t, step (placed .nop) = .next t) ∧
    (unmapped.pc ≠ unmapped.launch.exitPc ∧ ¬ unmapped.MapsAll .fetch (bytesFrom unmapped.pc 4)) :=
  ⟨⟨rfl, of_isNext (by decide)⟩, by decide, by simp only [mapsAll_iff]; decide⟩

theorem test_LaunchIsConstantAndRunEndsAtExit_hypotheses :
    (∃ t, step (placed .nop) = .next t) ∧
    (State.reset.setPc 0x0F00#64).pc = (State.reset.setPc 0x0F00#64).launch.exitPc :=
  ⟨of_isNext (by decide), by decide⟩

/-- The reset state with the word of a statement at the pc. -/
def atPc (w : Nat) : State := State.reset.withFetchWord 32 w

theorem test_StepRunsTheStatementAtThePc_hypotheses :
    ((atPc 0x2022FFF8).pc ≠ (atPc 0x2022FFF8).launch.exitPc ∧
      (atPc 0x2022FFF8).MapsAll .fetch (bytesFrom (atPc 0x2022FFF8).pc 4) ∧
      (atPc 0x2022FFF8).launch.statementCovers (atPc 0x2022FFF8).pc = false ∧
      (Instr.lda 1 (.base (-8) 2)).isMacro (atPc 0x2022FFF8).launch.bwx = false ∧
      ∃ rest, decode ((atPc 0x2022FFF8).fetchBytes (atPc 0x2022FFF8).pc) = .ok (.lda 1 (.base (-8) 2), rest)) ∧
    ((placed (.ldiq 1 5)).pc ≠ (placed (.ldiq 1 5)).launch.exitPc ∧
      (placed (.ldiq 1 5)).MapsAll .fetch (bytesFrom (placed (.ldiq 1 5)).pc 4) ∧
      statementAt (placed (.ldiq 1 5)).launch.statements (placed (.ldiq 1 5)).pc = some (.ldiq 1 5)) := by
  refine ⟨⟨by decide, by simp only [mapsAll_iff]; decide, rfl, by decide, _, rfl⟩, by decide, ?_, by decide⟩
  simp only [mapsAll_iff]; decide

theorem test_UndecodableWordIsIllegal_hypotheses :
    ((atPc 0x04000000).pc ≠ (atPc 0x04000000).launch.exitPc ∧
      (atPc 0x04000000).MapsAll .fetch (bytesFrom (atPc 0x04000000).pc 4) ∧
      (atPc 0x04000000).launch.statementCovers (atPc 0x04000000).pc = false ∧
      ∀ i, decodeWord (((atPc 0x04000000).memRead (atPc 0x04000000).pc 4).setWidth 32) ≠ .ok i) ∧
    ((withoutBwx.withFetchWord 32 0x73E10001).pc ≠ (withoutBwx.withFetchWord 32 0x73E10001).launch.exitPc ∧
      (withoutBwx.withFetchWord 32 0x73E10001).MapsAll .fetch (bytesFrom (withoutBwx.withFetchWord 32 0x73E10001).pc 4) ∧
      (withoutBwx.withFetchWord 32 0x73E10001).launch.statementCovers 0x1000#64 = false ∧
      (withoutBwx.withFetchWord 32 0x73E10001).launch.bwx = false ∧
      decodeWord (((withoutBwx.withFetchWord 32 0x73E10001).memRead 0x1000#64 4).setWidth 32) =
        .ok (.sextb (.reg 1) 1)) := by
  refine ⟨⟨by decide, by simp only [mapsAll_iff]; decide, by decide, fun i h => ?_⟩, by decide, ?_, by decide, by decide, ?_⟩
  · have : decodeWord (((atPc 0x04000000).memRead (atPc 0x04000000).pc 4).setWidth 32) = .error .reservedOpcode := by
      decide
    rw [this] at h; cases h
  · simp only [mapsAll_iff]; decide
  · rfl

/-- For OnlyStoresChangeMemory, OtherStatementsAdvanceThePc and OnlyNamedRegistersChange; the statement is no
`call_pal`. -/
theorem test_frame_hypotheses :
    (Instr.addl 1 (.reg 2) 3).stores = false ∧ (Instr.addl 1 (.reg 2) 3).transfersControl = false ∧
    (∃ t, exec (.addl 1 (.reg 2) 3) State.reset = .next t) ∧ (∀ d, Instr.addl 1 (.reg 2) 3 ≠ .rpcc d) ∧
    (4 : Reg) ∉ (Instr.addl 1 (.reg 2) 3).registers ∧ (4 : Reg) ∉ (Instr.addl 1 (.reg 2) 3).temporaries true ∧
    (Instr.ldb 1 (.base 0 2)).stores = false ∧ (Instr.ldb 1 (.base 0 2)).transfersControl = false ∧
    (∃ t, exec (.ldb 1 (.base 0 2)) State.reset = .next t) ∧ (∀ n, Instr.ldb 1 (.base 0 2) ≠ .callPal n) ∧
    (∀ n, Instr.addl 1 (.reg 2) 3 ≠ .callPal n) := by
  refine ⟨rfl, rfl, of_isNext (by decide), fun d h => ?_, by decide, by decide, rfl, rfl, of_isNext (by decide),
    fun n h => ?_, fun n h => ?_⟩ <;> cases h

theorem test_OnlyLoadLockedSetsTheLock_hypotheses :
    (placed .nop).fetchStatement = .ok .nop ∧ (∃ t, step (placed .nop) = .next t) ∧ Instr.nop.loadsLocked = false ∧
    (placed .nop).lockFlag = false := ⟨rfl, of_isNext (by decide), rfl, rfl⟩

/-- For OnlyListedStatementsRaise and ExceptionsKeepPcAndMemory: one fault of each kind exec answers. -/
theorem test_fault_hypotheses :
    (∃ u, exec (.ldl 1 (.base 1 2)) State.reset = .fault (.dataAlignment 0x2001#64 u)) ∧
    (∃ u, exec (.addlv 1 (.imm 1) 3) (State.reset.setX 1 0x7FFFFFFF#64) = .fault (.integerOverflow u)) ∧
    (∃ u, exec (.divq 1 (.reg 31) 3) State.reset = .fault (.divideByZero u)) ∧
    (∃ u, exec (.stq 1 (.base 0 2)) unmapped = .fault (.accessViolation 0x2000#64 u)) ∧
    (∃ u, exec (.callPal 0) State.reset = .fault (.envCall 0 u)) :=
  ⟨⟨_, rfl⟩, ⟨_, rfl⟩, ⟨_, rfl⟩, ⟨_, rfl⟩, ⟨_, rfl⟩⟩

theorem test_OrdinaryStatementsComplete_hypotheses :
    ∀ i ∈ ([.addl 1 (.reg 2) 3, .ldiq 1 5, .jsr 26 (.reg 27 (.bits 0)), .beq 1 (.disp 0), .rpcc 1] : List Instr),
      i.WellFormed true ∧ i.accessesMemory = false ∧ i.mayOverflow = false ∧ i.divides = false ∧
      (i.target? = none ∨ i.target? = some (.disp 0)) ∧
      State.reset.target (.disp 0) = some 0x1004#64 ∧ State.reset.launch.insideStatement 0x1004#64 = false := by decide

/-- A state whose pc lies so that a label is the given number of bytes after the next instruction. -/
def labelAhead (l : Label) (bytes : Word) : State := State.reset.setPc (Config.labelAddr l - bytes - 4#64)

theorem labelAhead_distance (l : Label) (bytes : Word) :
    Config.labelAddr l - ((labelAhead l bytes).pc + 4#64) = bytes := by
  simp only [labelAhead, State.setPc]; bv_omega

theorem test_OnlyListedStatementsAreRefused_hypotheses :
    (Instr.fetch 8 4).illFormed? true = some .fetchOffsetNonzero ∧
    refusal (exec (.ldgp 29 4 27) State.reset) = some .ldgpNotOwnAddress ∧
    refusal (exec (.br 31 (.disp 15)) across) = some .insideStatement ∧
    refusal (exec (.stl 1 (.base 4 2)) withText) = some .storeToText ∧
    (Instr.stl 1 (.base 4 2)).storedBytes withText = [0x2004#64, 0x2005#64, 0x2006#64, 0x2007#64] := by decide

theorem test_MiddleOfAStatementIsRefused_hypotheses :
    across.pc ≠ across.launch.exitPc ∧ across.MapsAll .fetch (bytesFrom across.pc 4) ∧
    across.launch.insideStatement across.pc = true ∧ across.target (.disp 15) = some 0x1040#64 ∧
    across.launch.insideStatement 0x1040#64 = true ∧ across.x 31 = 0#64 := by
  simp only [mapsAll_iff]; decide

/-- The reach of an `offset`, and the address one word after a label. -/
theorem test_OperandValues_hypotheses : (-32768 : Int) ≤ -32768 ∧ (32767 : Int) ≤ 32767 ∧
    State.reset.ea (.symbolic ⟨.label 0, 4⟩) = Config.labelAddr 0 + 4#64 := ⟨by decide, by decide, rfl⟩

theorem test_MemoryIsLittleEndian_hypotheses :
    State.reset.mem.wf = true ∧ (8 : Nat) ≤ 8 ∧ (0 : Nat) < 8 ∧ (1 : Nat) ≤ 1 ∧ (1 : Nat) < 8 := by decide

theorem test_EncodingRoundTrip_hypotheses :
    encode 0x1000#64 (.stqC 1 (.base 0 2)) = some 0xBC220000#32 ∧ encode 0x1000#64 (.clr 5) = some 0x47FF0405#32 ∧
    encode 0x1000#64 (.beq 1 (.disp 15)) = some 0xE420000F#32 := ⟨by rfl, by rfl, by rfl⟩

theorem labelAhead_disp : labelDisp (labelAhead 0 4194300#64).pc 0 = some 0x0FFFFF#21 := by
  simp only [labelDisp, labelAhead_distance]; rfl

theorem test_MachineStatementsHaveWords_hypotheses :
    (Instr.beq 1 (.label 0)).WellFormed true ∧ (Instr.beq 1 (.label 0)).isMacro true = false ∧
    (∀ l, (Instr.beq 1 (.label 0)).target? = some (.label l) → labelDisp (labelAhead 0 4194300#64).pc l ≠ none) ∧
    (Instr.mov (.imm (-5)) 2).WellFormed true ∧ (Instr.mov (.imm (-5)) 2).isMacro true = false := by
  refine ⟨by decide, by decide, ?_, by decide, by decide⟩
  intro l hl
  cases hl
  rw [labelAhead_disp]
  decide

/-- For DecodedWordEncodesBack, DecodedInstructionsAreWellFormed and MalformedFieldsSpellNothing. -/
theorem test_decoded_hypotheses :
    decodeWord 0x40220003#32 = .ok (.addl 1 (.reg 2) 3) ∧ opcodeField 0x40220003#32 = 0x10#6 ∧
    wordField 0x40220003#32 12 1 = 0#1 ∧ (∀ d, Instr.addl 1 (.reg 2) 3 ≠ .implver d) ∧
    decodeWord 0x47E10C22#32 = .ok (.amask (.reg 1) 2) ∧ decodeWord 0x63E48000#32 = .ok (.fetch 0 4) ∧
    decodeWord 0x603FC000#32 = .ok (.rpcc 1) ∧ decodeWord 0x63FF4000#32 = .ok .mb := by
  refine ⟨by rfl, by decide, by decide, ?_, by rfl, by rfl, by rfl, by rfl⟩
  intro d h
  cases h

theorem test_ReservedWordsSpellNothing_hypotheses :
    (opcodeField 0x40000020#32 = 0x10#6 ∧ wordField 0x40000020#32 5 7 = 0x01#7) ∧
    (opcodeField 0x44000020#32 = 0x11#6 ∧ wordField 0x44000020#32 5 7 = 0x01#7) ∧
    (opcodeField 0x48000000#32 = 0x12#6 ∧ wordField 0x48000000#32 5 7 = 0x00#7) ∧
    (opcodeField 0x4C000FE0#32 = 0x13#6 ∧ wordField 0x4C000FE0#32 5 7 = 0x7F#7) ∧
    opcodeField 0x04000000#32 = 0x01#6 ∧ opcodeField 0x70000040#32 = 0x1c#6 ∧ wordField 0x70000040#32 5 7 = 2#7 ∧
    opcodeField 0x6000F800#32 = 0x18#6 ∧ wordField 0x6000F800#32 0 16 = 0xF800#16 := by decide

theorem test_PseudoInstructionsAreTheirExpansions_hypotheses :
    State.reset.PcAligned ∧ (Instr.clr 5).isMacro State.reset.launch.bwx = false ∧
    (Instr.ldbu 1 (.base 0 2)).isMacro State.reset.launch.bwx = false := ⟨rfl, by decide, by decide⟩

/-- For the loads: every load is well-formed with a base address, its address is aligned and mapped; the symbolic form
is well-formed too. -/
theorem test_load_hypotheses :
    (∀ mk ∈ ([.ldb, .ldbu, .ldw, .ldwu, .ldl, .ldlL, .ldq, .ldqL, .ldqU, .uldw, .uldwu, .uldl, .uldq] :
        List (Reg → Address → Instr)), ∀ b ∈ [true, false], (mk 1 (.base 0 2)).WellFormed b ∧
        (mk 1 (.symbolic ⟨.other 0, 0⟩)).WellFormed b) ∧
    (State.reset.ea (.base 0 2)).toNat % 8 = 0 ∧ State.reset.MapsAll .read (bytesFrom (State.reset.ea (.base 0 2)) 8) ∧
    State.reset.MapsAll .read (bytesFrom (State.reset.ea (.base 0 2) &&& ~~~7#64) 8) ∧
    State.reset.MapsAll .read (quadBytes (State.reset.ea (.base 7 2)) 8) ∧
    withoutBwx.MapsAll .read (quadBytes (withoutBwx.ea (.base 0 2)) 2) := by
  simp only [mapsAll_iff]; decide

theorem test_AddressAndImmediateLoads_hypotheses :
    (Instr.lda 1 (.base 32767 2)).WellFormed true ∧ (Instr.lda 1 (.symbolic ⟨.other 0, 0⟩)).WellFormed true ∧
    (-32768 : Int) ≤ -32768 ∧ (-32768 : Int) ≤ 32767 ∧ (32767 : Int) ≤ 32767 := by decide

/-- For LoadGlobalPointer. -/
theorem test_LoadGlobalPointer_hypotheses :
    State.reset.ea (.base 0 27) = State.reset.pc ∧ State.reset.ea (.base 4 27) ≠ State.reset.pc := by decide

/-- For StoreStatements and StoreConditional. -/
theorem test_store_hypotheses :
    (∀ mk ∈ ([.stb, .stw, .stl, .stlC, .stq, .stqC, .stqU, .ustw, .ustl, .ustq] : List (Reg → Address → Instr)),
      ∀ b ∈ [true, false], (mk 1 (.base 0 2)).WellFormed b) ∧
    State.reset.mem.wf = true ∧ (withText.ea (.base 8 2)).toNat % 8 = 0 ∧
    withText.MapsAll .write (bytesFrom (withText.ea (.base 8 2)) 8) ∧
    withText.MapsAll .write (quadBytes (withText.ea (.base 8 2)) 8) ∧
    withText.MapsAll .read (quadBytes (withText.ea (.base 8 2)) 8) ∧
    withText.OffText (bytesFrom (withText.ea (.base 8 2)) 8) ∧ withoutBwx.OffText (bytesFrom 0x2000#64 2) := by
  simp only [mapsAll_iff, offText_iff]; decide

/-- R59: the last address of the locked block and the first beyond it. -/
theorem test_locked_block :
    ((locked 0x2000#64).ea (.base 15 2)).extractLsb' 4 60 = (locked 0x2000#64).lockAddr.extractLsb' 4 60 ∧
    ((locked 0x2000#64).ea (.base 16 2)).extractLsb' 4 60 ≠ (locked 0x2000#64).lockAddr.extractLsb' 4 60 := by decide

theorem test_MisalignedAccessRaises_hypotheses :
    (State.reset.ea (.base 1 2)).toNat % 2 ≠ 0 ∧ (State.reset.ea (.base 3 2)).toNat % 4 ≠ 0 ∧
    (State.reset.ea (.base 4 2)).toNat % 8 ≠ 0 := by decide

theorem test_UnmappedAccessRaises_hypotheses :
    (unmapped.ea (.base 0 2)).toNat % 8 = 0 ∧ ¬ unmapped.MapsAll .read (bytesFrom (unmapped.ea (.base 0 2)) 1) ∧
    ¬ unmapped.MapsAll .write (bytesFrom (unmapped.ea (.base 0 2)) 1) ∧
    ¬ unmapped.MapsAll .read (quadBytes (unmapped.ea (.base 0 2)) 2) ∧
    ¬ unmapped.MapsAll .read (bytesFrom (unmapped.ea (.base 5 2) &&& ~~~7#64) 8) ∧
    ¬ ((31 : Reg) = 31 ∧ Address.base 8 30 = .base 0 30) ∧ (Instr.ldqU 31 (.base 8 30)).WellFormed true ∧
    ¬ unmapped.MapsAll .read (bytesFrom (unmapped.ea (.base 8 30) &&& ~~~7#64) 8) := by
  simp only [mapsAll_iff]; decide

/-- Text that starts with the last byte stored; and a store-conditional to text in the locked block, with the flag
clear, and outside the block, where the draw decides. -/
theorem test_StoreIntoTextIsRefused_hypotheses :
    ¬ withText.OffText (bytesFrom (withText.ea (.base 0 2)) 8) ∧ ¬ withText.OffText (bytesFrom (withText.ea (.base 3 2)) 2) ∧
    ¬ withText.OffText (bytesFrom (withText.ea (.base 4 2)) 1) ∧ (withText.ea (.base 4 2)).toNat % 4 = 0 ∧
    withText.MapsAll .write (bytesFrom (withText.ea (.base 0 2)) 8) ∧
    (withText.setLock 0x2000#64).lockFlag = true ∧ withText.lockFlag = false ∧
    ¬ withText.OffText (bytesFrom (withText.ea (.base 4 2)) 4) ∧
    (withText.ea (.base 4 2)).extractLsb' 4 60 = (withText.setLock 0x2000#64).lockAddr.extractLsb' 4 60 ∧
    (withText.ea (.base 4 2)).extractLsb' 4 60 ≠ (withText.setLock 0x2010#64).lockAddr.extractLsb' 4 60 ∧
    (Instr.stlC 1 (.base 4 2)).WellFormed true := by
  simp only [mapsAll_iff, offText_iff]; decide

/-- Every two-source statement is well-formed with a register, a literal and a wide immediate. -/
theorem test_three_operand_hypotheses :
    ∀ mk ∈ ([.addl, .addlv, .addq, .addqv, .s4addl, .s4addq, .s8addl, .s8addq, .mull, .mullv, .mulq, .mulqv, .subl,
      .sublv, .subq, .subqv, .s4subl, .s4subq, .s8subl, .s8subq, .umulh, .divl, .divlu, .divq, .divqu, .reml, .remlu,
      .remq, .remqu, .and, .bis, .or, .xor, .bic, .andnot, .ornot, .eqv, .xornot, .sll, .srl, .sra, .cmpeq, .cmplt,
      .cmple, .cmpult, .cmpule, .cmoveq, .cmovne, .cmovlt, .cmovle, .cmovgt, .cmovge, .cmovlbc, .cmovlbs, .cmpbge,
      .extbl, .extwl, .extll, .extql, .extwh, .extlh, .extqh, .insbl, .inswl, .insll, .insql, .inswh, .inslh, .insqh,
      .mskbl, .mskwl, .mskll, .mskql, .mskwh, .msklh, .mskqh, .zap, .zapnot] : List (Reg → RegImm → Reg → Instr)),
      (mk 1 (.reg 2) 3).WellFormed true ∧ (mk 1 (.imm 255) 3).WellFormed true ∧ (mk 1 (.imm (-1)) 3).WellFormed true := by
  decide

theorem test_two_operand_hypotheses :
    ∀ mk ∈ ([.absl, .absq, .negl, .neglv, .negq, .negqv, .sextb, .sextl, .sextw, .not, .mov, .amask] :
      List (RegImm → Reg → Instr)), (mk (.reg 1) 2).WellFormed true ∧ (mk (.imm (-1)) 2).WellFormed true := by decide

/-- For OverflowStatements, OverflowInBitTerms and AbsoluteValue: the boundaries of the two ranges. -/
theorem test_overflow_hypotheses :
    (s32 0x7FFFFFFF#64 + s32 0#64 ≤ 2147483647 ∧ 2147483647 < s32 0x7FFFFFFF#64 + s32 1#64) ∧
    (-2147483648 ≤ s32 0x80000000#64 ∧ s32 0x80000000#64 - s32 1#64 < -2147483648) ∧
    (9223372036854775807 < (0x7FFFFFFFFFFFFFFF#64).toInt + (1#64).toInt) ∧
    (9223372036854775807 < -(0x8000000000000000#64).toInt) ∧ s32 0x80000000#64 = -2147483648 ∧
    s32 0x80000001#64 ≠ -2147483648 := by decide

/-- For DivisionLaw and DivisionByZeroRaises: a divisor other than zero, one whose low longword alone is zero, and the
case that is left open. -/
theorem test_division_hypotheses :
    s32 2#64 ≠ 0 ∧ ¬ (s32 7#64 = -2147483648 ∧ s32 2#64 = -1) ∧ s32 0x100000000#64 = 0 ∧
    (0x100000000#64).toInt ≠ 0 ∧ s32 0x80000000#64 = -2147483648 ∧ s32 0xFFFFFFFF#64 = -1 ∧
    (0xFFFFFFFFFFFFFFFF#64 : Word) = -1#64 := by decide

/-- For MoveStatements and BranchStatements: zero, a positive odd and a negative even value decide every test. -/
theorem test_test_hypotheses :
    (0#64 : Word).msb = false ∧ (0#64 : Word).toNat % 2 = 0 ∧ (5#64 : Word) ≠ 0#64 ∧ (5#64 : Word).msb = false ∧
    (5#64 : Word).toNat % 2 = 1 ∧ (0x8000000000000000#64 : Word).msb = true ∧
    State.reset.target (.disp 15) = some 0x1040#64 ∧ State.reset.launch.insideStatement 0x1040#64 = false := by decide

/-- For BranchStatements and BranchTargets: the farthest label after the branch, the farthest before it, and the first
beyond each. -/
theorem test_label_hypotheses :
    (labelAhead 0 4194300#64).target (.label 0) = some (Config.labelAddr 0) ∧
    (Config.labelAddr 0 - ((labelAhead 0 4194300#64).pc + 4#64)).toInt = 4194300 ∧
    (Config.labelAddr 0 - ((labelAhead 0 (-4194304#64)).pc + 4#64)).toInt = -4194304 ∧
    4194300 < (Config.labelAddr 0 - ((labelAhead 0 4194304#64).pc + 4#64)).toInt ∧
    (Config.labelAddr 0 - ((labelAhead 0 (-4194308#64)).pc + 4#64)).toInt < -4194304 ∧
    State.reset.PcAligned ∧ (Instr.beq 1 (.label 0)).target? = some (.label 0) := by
  simp only [labelAhead_distance]
  refine ⟨?_, by decide, by decide, by decide, by decide, rfl, rfl⟩
  have h : (labelAhead 0 4194300#64).labelInRange 0 = true := by
    simp only [State.labelInRange, State.distance, labelAhead_distance]; decide
  simp only [State.target, h, if_true]

/-- For SymbolicJumps: a destination other than `AT`, `$27` and another one. -/
theorem test_SymbolicJumps_hypotheses : (26 : Reg) ≠ 28 ∧ (26 : Reg) ≠ 27 ∧ (27 : Reg) ≠ 28 := by decide

/-- R87: the hint of `jsr $26, ($27)` to a label two instructions after the next one. -/
theorem test_encode_jump_hint :
    encode (labelAhead 0 8#64).pc (.jsr 26 (.reg 27 (.address ⟨.label 0, 0⟩))) = some 0x6B5B4002#32 := by
  have h : hintBits (labelAhead 0 8#64).pc (.address ⟨.label 0, 0⟩) = 2#14 := by
    have e : Config.symbolAddr ⟨.label 0, 0⟩ = Config.labelAddr 0 := BitVec.add_zero _
    rw [hintBits, e, labelAhead_distance]; rfl
  simp only [encode, Instr.fields, jumpFields, h]; rfl

/-- For CallPalRunsTheHandlerOrEndsTheRun: the largest code and the first beyond it, a code with a handler and one
without, and program text beside a byte that is none. -/
theorem test_CallPalRunsTheHandlerOrEndsTheRun_hypotheses : 0x3FFFFFF < 2 ^ 26 ∧ 2 ^ 26 ≤ 0x4000000 ∧
    0x83 ∈ withHandler.launch.palHandlers ∧ 0x84 ∉ withHandler.launch.palHandlers ∧ withHandler.mem.wf = true ∧
    withText.launch.isText 0x2004#64 = true ∧ withText.launch.isText 0x2003#64 = false := by decide

end Sys2Proof.Tests
end

section
/-! The launch configuration: no statement changes it (spec/70_reset_and_hazards.md R351), and a run ends before a
fetch at `EXIT_PC` (R352). -/

namespace Sys2Proof.Machine

/-! The two meanings that have no inversion lemma among the shared forms -/

/-- `ldgp` goes on where its base register and offset give its own address (spec/40_load_store.md R116). -/
theorem execLdgp_next {d b : Reg} {offset : Int} {s t : State} (h : execLdgp d offset b s = .next t) :
    (Instr.ldgp d offset b).WellFormed s.launch.bwx ∧ s.x b + offsetValue offset = s.pc ∧
      t = ((s.setX d (Config.gpOf s.pc)).clobberTemps (.ldgp d offset b)).advance (.ldgp d offset b) := by
  obtain ⟨hw, h⟩ := State.guarded_next h
  split at h
  · exact ⟨hw, ‹_›, State.finish_next h⟩
  · simp at h

/-- `rpcc` writes the count it has just drawn (log 21). -/
theorem execRpcc_next {d : Reg} {s t : State} (h : execRpcc d s = .next t) :
    (Instr.rpcc d).WellFormed s.launch.bwx ∧
      t = ((s.readCounter.setX d s.drawn).clobberTemps (.rpcc d)).advance (.rpcc d) := by
  obtain ⟨hw, h⟩ := State.guarded_next h
  exact ⟨hw, by simpa using State.finish_next h⟩

/-! The launch configuration -/

/-- A statement that goes on leaves the launch configuration alone: one case per form. -/
theorem Shape.launch_eq {i : Instr} {s t : State} {o : Outcome} (shape : Shape i s o) (h : o = .next t) :
    t.launch = s.launch := by
  cases shape with
  | put => obtain ⟨_, rfl⟩ := State.put_next h; simp
  | putTrap => obtain ⟨_, _, rfl⟩ := State.putTrap_next h; simp
  | absolute => obtain ⟨_, _, rfl⟩ := State.absolute_next h; simp
  | divide => obtain ⟨_, _, ⟨_, _, rfl⟩ | ⟨_, rfl⟩⟩ := State.divide_next h <;> simp
  | condMove => obtain ⟨_, ⟨_, rfl⟩ | ⟨_, rfl⟩⟩ := State.condMove_next h <;> simp
  | load => obtain ⟨_, _, _, rfl⟩ := State.load_next h; simp
  | loadLocked => obtain ⟨_, _, _, rfl⟩ := State.loadLocked_next h; simp
  | store => obtain ⟨_, _, _, _, rfl⟩ := State.store_next h; simp
  | storeConditional f _ a =>
    have drawn : (if s.outsideLock (s.ea a) then s.drew else s).launch = s.launch := by split <;> simp
    obtain ⟨_, _, _, ⟨_, _, rfl⟩ | ⟨_, rfl⟩⟩ := State.storeConditional_next h <;> simp [drawn]
  | condBranch => obtain ⟨_, _, _, ⟨_, _, rfl⟩ | ⟨_, rfl⟩⟩ := State.condBranch_next h <;> simp
  | branch => obtain ⟨_, _, _, _, rfl⟩ := State.branch_next h; simp
  | jump => obtain ⟨_, rfl⟩ := State.jump_next h; simp
  | jumpSymbolic => obtain ⟨_, rfl⟩ := State.jumpSymbolic_next h; simp
  | ldgp => obtain ⟨_, _, rfl⟩ := execLdgp_next h; simp
  | callPal => obtain ⟨_, rfl⟩ := execCallPal_next h; simp
  | rpcc => obtain ⟨_, rfl⟩ := execRpcc_next h; simp
  | finish => obtain rfl := State.finish_next h; simp
  | idle => obtain rfl := State.finish_next (State.guarded_next h).2; simp

/-- No statement changes the launch configuration (R351). -/
theorem exec_launch {i : Instr} {s t : State} (h : exec i s = .next t) : t.launch = s.launch :=
  (exec_shape i s).launch_eq h

/-- No step changes the launch configuration: neither its statement nor the environment after it does. -/
theorem step_launch {s t : State} (h : step s = .next t) : t.launch = s.launch := by
  obtain ⟨i, u, _, hexec, rfl⟩ := step_next h
  rw [State.environment_launch, exec_launch hexec]

/-- A fetch that ends in a fault is how the step ends. -/
theorem step_of_fetch_fault {s : State} {f : Fault} (h : s.fetchStatement = .error (.fault f)) :
    step s = .fault f := by simp [step, h]

/-- Settles O5: the launch configuration by the forms of `exec_shape`, the normal end by the fetch at `EXIT_PC`. -/
theorem launchIsConstantAndRunEndsAtExit : Obligations.LaunchIsConstantAndRunEndsAtExit :=
  ⟨fun _ _ h => step_launch h, fun _ h => step_of_fetch_fault (State.fetchStatement_of_exit h)⟩

end Sys2Proof.Machine
end

section
/-! What a statement that goes on leaves of pc, memory and lock, said once for all statements (spec/10_state.md R24,
R25, R32, spec/20_memory.md R50, R58): the invariant of a run, the advance of the pc and the lock rule each follow from
`exec_nextState`. -/

namespace Sys2Proof.Machine

/-! The frame of an update of registers and of the model's own counters -/

/-- The update leaves pc, launch configuration, memory and locked address alone, and does not set the lock flag. The
defaults prove every field for a chain of named updates by their `simp` lemmas. -/
structure LeavesPcAndMemory (s u : State) : Prop where
  pc : u.pc = s.pc := by simp
  launch : u.launch = s.launch := by simp
  mem : u.mem = s.mem := by simp
  lockFlag : s.lockFlag = false → u.lockFlag = false := by simp
  lockAddr : u.lockAddr = s.lockAddr := by simp

theorem LeavesPcAndMemory.refl {s : State} : LeavesPcAndMemory s s := {}

theorem LeavesPcAndMemory.trans {s u t : State} (hu : LeavesPcAndMemory s u) (ht : LeavesPcAndMemory u t) :
    LeavesPcAndMemory s t where
  pc := ht.pc.trans hu.pc
  launch := ht.launch.trans hu.launch
  mem := ht.mem.trans hu.mem
  lockFlag h := ht.lockFlag (hu.lockFlag h)
  lockAddr := ht.lockAddr.trans hu.lockAddr

/-- The end of a store-conditional: the flag is returned in the source register, and cleared (R59). -/
theorem LeavesPcAndMemory.setX_clearLock {s : State} {r : Reg} {v : Word} :
    LeavesPcAndMemory s (s.setX r v).clearLock := {}

/-- The temporaries of a statement are destroyed. -/
theorem LeavesPcAndMemory.clobberTemps {s : State} {i : Instr} : LeavesPcAndMemory s (s.clobberTemps i) := {}

/-- A draw that is taken or not, as a store-conditional does (spec/20_memory.md R59). -/
theorem LeavesPcAndMemory.ite_drew {c : Prop} [Decidable c] {s : State} :
    LeavesPcAndMemory s (if c then s.drew else s) := by
  split
  · exact {}
  · exact {}

/-! Where a statement goes on, and what it leaves in memory -/

/-- The pc after a statement: the next statement (R25), the target of a branch (spec/30_encoding.md R86), a jump target
(spec/45_control.md R236), or where a handler of `call_pal` resumes (spec/60_exceptions.md R327). -/
inductive NextPc (i : Instr) (s : State) : Word → Prop where
  | following : NextPc i s (s.npc i)
  | branch {tg : Target} {address : Word} (hc : i.transfersControl = true) (ht : s.target tg = some address) :
      NextPc i s address
  | jump (v : Word) (hc : i.transfersControl = true) : NextPc i s (jumpTarget v)
  | handler {palcode : Nat} (v : BitVec 62) (hi : i = .callPal palcode) : NextPc i s (v ++ 0#2)

/-- The memory after a statement: as it was, with the bytes of a store (R42), or with those of a handler of `call_pal`
(R327). -/
inductive NextMem (i : Instr) (s : State) : Memory → Prop where
  | same : NextMem i s s.mem
  | store (a v : Word) (n : Nat) (hi : i.stores = true) : NextMem i s (s.memWrite a v n).mem
  | handler {palcode : Nat} (stores : List (Word × Byte)) (hi : i = .callPal palcode) :
      NextMem i s (s.palStores stores).mem

/-- What a statement that goes on from `s` leaves in `t`: only a load-locked touches the locked address or sets the
lock flag (R58). -/
structure NextState (i : Instr) (s t : State) : Prop where
  pc : NextPc i s t.pc
  mem : NextMem i s t.mem
  lockFlag : i.loadsLocked = false → s.lockFlag = false → t.lockFlag = false
  lockAddr : i.loadsLocked = false → t.lockAddr = s.lockAddr

/-- What `MemWrite` leaves depends on the memory before it alone. -/
theorem State.memWrite_mem_congr {s u : State} (h : u.mem = s.mem) (a v : Word) (n : Nat) :
    (u.memWrite a v n).mem = (s.memWrite a v n).mem := by
  induction n generalizing s u a v with
  | zero => exact h
  | succ n ih => exact ih (by simp [h]) _ _

/-! How the ends of a statement give its next state -/

/-- Registers are written and control goes to an address the statement may go to. -/
theorem NextState.setPc {i : Instr} {s u : State} {p : Word} (hu : LeavesPcAndMemory s u) (hp : NextPc i s p) :
    NextState i s (u.setPc p) where
  pc := hp
  mem := by simpa [hu.mem] using NextMem.same
  lockFlag _ := hu.lockFlag
  lockAddr _ := hu.lockAddr

/-- Registers are written and the statement ends. -/
theorem NextState.finish {i : Instr} {s u : State} (hu : LeavesPcAndMemory s u) :
    NextState i s ((u.clobberTemps i).advance i) := by
  have hnpc : (u.clobberTemps i).npc i = s.npc i := by simpa using State.npc_congr i hu.pc hu.launch
  unfold State.advance
  rw [hnpc]
  exact .setPc (hu.trans .clobberTemps) .following

/-- A store: memory is written, then registers, and the statement ends. -/
theorem NextState.finish_store {i : Instr} {s drawn u : State} {a v : Word} {n : Nat} (hi : i.stores = true)
    (hd : LeavesPcAndMemory s drawn) (hu : LeavesPcAndMemory (drawn.memWrite a v n) u) :
    NextState i s ((u.clobberTemps i).advance i) where
  pc := by
    have hnpc : u.npc i = s.npc i := State.npc_congr i (by simp [hu.pc, hd.pc]) (by simp [hu.launch, hd.launch])
    simpa [hnpc] using NextPc.following
  mem := by simpa [hu.mem, State.memWrite_mem_congr hd.mem] using NextMem.store a v n hi
  lockFlag _ h := by simpa using hu.lockFlag (by simpa using hd.lockFlag h)
  lockAddr _ := by simp [hu.lockAddr, hd.lockAddr]

/-- A load-locked: the lock is set, and the statement ends. -/
theorem NextState.finish_setLock {i : Instr} {s u : State} {a : Word} (hi : i.loadsLocked = true)
    (hu : LeavesPcAndMemory s u) : NextState i s (((u.setLock a).clobberTemps i).advance i) where
  pc := by simpa [State.npc_congr i hu.pc hu.launch] using NextPc.following
  mem := by simpa [hu.mem] using NextMem.same
  lockFlag h := by simp [hi] at h
  lockAddr h := by simp [hi] at h

/-- A handler of `call_pal` resumes the program. -/
theorem NextState.palReturn {i : Instr} {s : State} {palcode : Nat} (result : Config.PalResult)
    (hi : i = .callPal palcode) : NextState i s (s.palReturn result) where
  pc := .handler _ hi
  mem := .handler _ hi
  lockFlag _ h := by simp [h]
  lockAddr _ := by simp

/-! Every statement -/

/-- What a statement that goes on leaves: one case per form. -/
theorem Shape.nextState {i : Instr} {s t : State} {o : Outcome} (shape : Shape i s o) (h : o = .next t) :
    NextState i s t := by
  cases shape with
  | put => obtain ⟨_, rfl⟩ := State.put_next h; exact .finish {}
  | putTrap => obtain ⟨_, _, rfl⟩ := State.putTrap_next h; exact .finish {}
  | absolute => obtain ⟨_, _, rfl⟩ := State.absolute_next h; exact .finish {}
  | divide =>
    obtain ⟨_, _, ⟨_, _, rfl⟩ | ⟨_, rfl⟩⟩ := State.divide_next h
    · exact .finish {}
    · exact .finish {}
  | condMove =>
    obtain ⟨_, ⟨_, rfl⟩ | ⟨_, rfl⟩⟩ := State.condMove_next h
    · exact .finish {}
    · exact .finish {}
  | load => obtain ⟨_, _, _, rfl⟩ := State.load_next h; exact .finish {}
  | loadLocked _ _ _ _ _ _ hl => obtain ⟨_, _, _, rfl⟩ := State.loadLocked_next h; exact .finish_setLock hl {}
  | store _ _ _ hi => obtain ⟨_, _, _, _, rfl⟩ := State.store_next h; exact .finish_store hi .refl .refl
  | storeConditional _ _ _ _ hi =>
    obtain ⟨_, _, _, ⟨_, _, rfl⟩ | ⟨_, rfl⟩⟩ := State.storeConditional_next h
    · exact .finish_store hi .ite_drew .setX_clearLock
    · exact .finish (.trans .ite_drew .setX_clearLock)
  | condBranch _ _ _ _ hc =>
    obtain ⟨_, _, ht, ⟨_, _, rfl⟩ | ⟨_, rfl⟩⟩ := State.condBranch_next h
    · exact .setPc {} (.branch hc ht)
    · exact .finish {}
  | branch _ _ _ _ hc => obtain ⟨_, _, ht, _, rfl⟩ := State.branch_next h; exact .setPc {} (.branch hc ht)
  | jump _ _ _ hc => obtain ⟨_, rfl⟩ := State.jump_next h; exact .setPc {} (.jump _ hc)
  | jumpSymbolic _ _ _ hc => obtain ⟨_, rfl⟩ := State.jumpSymbolic_next h; exact .setPc {} (.jump _ hc)
  | ldgp _ _ _ hi => subst hi; obtain ⟨_, _, rfl⟩ := execLdgp_next h; exact .finish {}
  | callPal _ hi => obtain ⟨_, rfl⟩ := execCallPal_next h; exact .palReturn _ hi
  | rpcc _ hi => subst hi; obtain ⟨_, rfl⟩ := execRpcc_next h; exact .finish {}
  | finish => obtain rfl := State.finish_next h; exact .finish {}
  | idle => obtain rfl := State.finish_next (State.guarded_next h).2; exact .finish {}

/-- What a statement that goes on leaves of pc, memory and lock. -/
theorem exec_nextState {i : Instr} {s t : State} (h : exec i s = .next t) : NextState i s t :=
  (exec_shape i s).nextState h

/-- The environment after a statement adds nothing: it may clear the lock flag (R58). -/
theorem NextState.environment {i : Instr} {s t : State} (h : NextState i s t) : NextState i s t.environment where
  pc := h.pc
  mem := h.mem
  lockFlag hl hs := by simp [h.lockFlag hl hs]
  lockAddr := h.lockAddr

/-- What a step that goes on leaves of pc, memory and lock. -/
theorem step_nextState {s t : State} (h : step s = .next t) :
    ∃ i, s.fetchStatement = .ok i ∧ NextState i s t := by
  obtain ⟨i, u, hfetch, hexec, rfl⟩ := step_next h
  exact ⟨i, hfetch, (exec_nextState hexec).environment⟩

/-! The alignment of the pc and the form of memory -/

/-- An address is a multiple of 4 as a number. -/
theorem aligned_iff_toNat (a : Word) : a &&& 3#64 = 0#64 ↔ a.toNat % 4 = 0 := by
  rw [← BitVec.toNat_inj, BitVec.toNat_and]
  exact Iff.of_eq (congrArg (· = 0) (Nat.and_two_pow_sub_one_eq_mod a.toNat 2))

/-- A whole number of words on, an address stays aligned, also across the end of memory. -/
theorem aligned_add_words {a : Word} (h : a &&& 3#64 = 0#64) (k : Word) : (a + 4#64 * k) &&& 3#64 = 0#64 := by
  rw [aligned_iff_toNat] at *
  rw [BitVec.toNat_add, BitVec.toNat_mul]
  simp only [BitVec.toNat_ofNat]
  omega

/-- The target of a branch is aligned where the branch is (spec/30_encoding.md R77, R86). -/
theorem State.target_aligned {s : State} {tg : Target} {address : Word} (hs : s.PcAligned)
    (ht : s.target tg = some address) : address &&& 3#64 = 0#64 := by
  cases tg with
  | disp d =>
    obtain rfl : s.pc + 4#64 + 4#64 * d.signExtend 64 = address := by simpa [State.target] using ht
    have next_aligned : (s.pc + 4#64) &&& 3#64 = 0#64 := by simpa using aligned_add_words hs 1#64
    exact aligned_add_words next_aligned _
  | label l =>
    obtain ⟨_, rfl⟩ : s.labelInRange l = true ∧ Config.labelAddr l = address := by simpa [State.target] using ht
    exact labelAddr_aligned l

/-- From an aligned pc every statement goes on to an aligned one (spec/20_memory.md R50). -/
theorem NextPc.aligned {i : Instr} {s : State} {p : Word} (h : NextPc i s p) (hs : s.PcAligned) :
    p &&& 3#64 = 0#64 := by
  cases h with
  | following => exact s.npc_aligned i hs
  | branch _ ht => exact State.target_aligned hs ht
  | jump v => exact jumpTarget_aligned v
  | handler v => exact append_zero_aligned v

/-- No statement but the transfers goes anywhere but to the next one (spec/10_state.md R25). -/
theorem NextPc.eq_npc {i : Instr} {s : State} {p : Word} (h : NextPc i s p) (hc : i.transfersControl = false)
    (hpal : ∀ n, i ≠ .callPal n) : p = s.npc i := by
  cases h with
  | following => rfl
  | branch hc' => simp [hc] at hc'
  | jump _ hc' => simp [hc] at hc'
  | handler _ hi => exact absurd hi (hpal _)

/-- Every statement keeps the canonical form of memory. -/
theorem NextMem.wf {i : Instr} {s : State} {m : Memory} (h : NextMem i s m) (hs : s.mem.wf = true) :
    m.wf = true := by
  cases h with
  | same => exact hs
  | store a v n => exact s.wf_memWrite a v n hs
  | handler stores => exact s.wf_palStores stores hs

/-- Every statement keeps the invariant. -/
theorem NextState.inv {i : Instr} {s t : State} (h : NextState i s t) (hs : s.Inv) : t.Inv where
  memory := h.mem.wf hs.memory
  pc := h.pc.aligned hs.pc

/-! The state after reset -/

/-- Each register's value at launch (R35; log 2). -/
theorem State.resetRegs_getElem (n : Nat) (h : n < 31) : State.resetRegs[n] =
    if n = 30 then 0x8000#64 else if n = 27 then Config.entryPc else if n = 26 then Config.exitPc else 0x2000#64 := by
  simp [State.resetRegs, Vector.getElem_set, eq_comm]

/-- A register after reset that has no value of its own (log 2). -/
theorem State.reset_x_of_notMem {r : Reg} (h : r ∉ ([26, 27, 30, 31] : List Reg)) : State.reset.x r = 0x2000#64 := by
  simp only [List.mem_cons, List.not_mem_nil, or_false, not_or, ← BitVec.toNat_inj] at h
  obtain ⟨h26, h27, h30, h31⟩ := h
  have hlt : r.toNat < 31 := by have := r.isLt; simp at h31; omega
  simp only [State.x, hlt, dite_true]
  exact (State.resetRegs_getElem _ hlt).trans ((if_neg h30).trans ((if_neg h27).trans (if_neg h26)))

/-! The obligations -/

/-- Settles O3: a step leaves what a statement may leave, which keeps the invariant. -/
theorem stepKeepsTheInvariant : Obligations.StepKeepsTheInvariant := by
  intro s t hs hstep
  obtain ⟨_, _, hnext⟩ := step_nextState hstep
  exact hnext.inv hs

/-- Settles O9: of the ways a statement goes on, only the next statement is left. -/
theorem otherStatementsAdvanceThePc : Obligations.OtherStatementsAdvanceThePc :=
  fun _ _ _ hc hpal hexec => (exec_nextState hexec).pc.eq_npc hc hpal

/-- Settles O11: by the lock rule of `NextState`, which the environment keeps. -/
theorem onlyLoadLockedSetsTheLock : Obligations.OnlyLoadLockedSetsTheLock := by
  intro i s t hfetch hstep hl
  obtain ⟨j, hfetch', hnext⟩ := step_nextState hstep
  obtain rfl : i = j := by simpa [hfetch] using hfetch'
  exact ⟨hnext.lockFlag hl, hnext.lockAddr hl⟩

/-- Settles O1: the fields of `State.reset`, and its registers. -/
theorem resetStateIsTheLaunchState : Obligations.ResetStateIsTheLaunchState :=
  ⟨rfl, rfl, rfl, rfl, rfl, fun _ => State.reset_x_of_notMem, rfl, rfl, rfl, fun _ => rfl, rfl⟩

/-- Settles O2: no byte is listed, and `ENTRY_PC` is a multiple of 4. -/
theorem resetHasTheInvariant : Obligations.ResetHasTheInvariant where
  memory := rfl
  pc := rfl

/-- Settles O16, by the rules for reading a register after a write. -/
theorem registerThirtyOneIsZero : Obligations.RegisterThirtyOneIsZero := fun s v =>
  ⟨s.x_31, rfl, fun r hr => (s.x_setX_self r v).trans (if_neg hr), fun _ _ hq => s.x_setX_of_ne v hq⟩

end Sys2Proof.Machine
end

section
/-! Memory, the fetch and the values of operands (spec/20_memory.md R41 to R43, R50, spec/30_encoding.md R73 to R77,
R92). -/

namespace Sys2Proof.Machine

/-! Addresses and immediates -/

/-- An exact integer added to a word, modulo 2^64. -/
theorem toNat_add_ofInt (w : Word) (v : Int) :
    ((w + BitVec.ofInt 64 v).toNat : Int) = ((w.toNat : Int) + v) % 2 ^ 64 := by
  rw [BitVec.toNat_add, BitVec.toNat_ofInt]
  omega

/-- The sign extension of the 16 bits of an `offset` in range is the offset itself (spec/30_encoding.md R74). -/
theorem offsetValue_eq_ofInt {o : Int} (hl : -32768 ≤ o) (hu : o ≤ 32767) : offsetValue o = BitVec.ofInt 64 o := by
  apply BitVec.eq_of_toInt_eq
  rw [offsetValue, BitVec.toInt_signExtend_of_le (by decide), BitVec.toInt_ofInt, BitVec.toInt_ofInt,
    Int.bmod_eq_of_le (by omega) (by omega), Int.bmod_eq_of_le (by omega) (by omega)]

/-- Settles O18: both address forms add an exact integer to a word. -/
theorem operandValues : Obligations.OperandValues := by
  intro s
  refine ⟨fun o b hl hu => ?_, fun e => toNat_add_ofInt _ e.addend, fun l => ⟨?_, rfl, ?_⟩, fun _ => rfl, fun v => ?_⟩
  · rw [State.ea, offsetValue_eq_ofInt hl hu, toNat_add_ofInt]
  · exact BitVec.add_zero (Config.labelAddr l)
  · exact (aligned_iff_toNat _).mp (labelAddr_aligned l)
  · rw [State.rbv, BitVec.toNat_ofInt]
    omega

/-! The bytes of memory -/

/-- Beyond the bytes read, `MemRead` is zero (spec/20_memory.md R42). -/
theorem State.nthByte_memRead_of_ge (s : State) (a : Word) {n k : Nat} (hk : n ≤ k) :
    nthByte (s.memRead a n) k = 0#8 := by
  ext j hj
  simpa [nthByte] using s.memRead_high a n (8 * k + j) (by omega)

/-- Settles O19, by the laws of `MemRead` and `MemWrite`; what is read back is byte by byte what was stored. -/
theorem memoryIsLittleEndian : Obligations.MemoryIsLittleEndian := by
  intro s a v n hwf hn
  have hbytes : HoldsBytes (s.memWrite a v n) a v n := s.byteAt_memWrite a v n hwf hn
  refine ⟨fun k => s.memRead_byte a n k hn, fun k hk _ => s.nthByte_memRead_of_ge a hk, hbytes,
    s.byteAt_memWrite_outside a v n hwf, s.wf_memWrite a v n hwf, fun k hk => ?_⟩
  calc nthByte ((s.memWrite a v n).memRead a n) k
    _ = (s.memWrite a v n).byteAt (a + BitVec.ofNat 64 k) := State.memRead_byte _ a n k hn hk
    _ = nthByte v k := hbytes k hk

/-- Only the stores and the handler of a `call_pal` leave another memory (spec/20_memory.md R44). -/
theorem NextMem.eq_mem {i : Instr} {s : State} {m : Memory} (h : NextMem i s m) (hi : i.stores = false)
    (hpal : ∀ n, i ≠ .callPal n) : m = s.mem := by
  cases h with
  | same => rfl
  | store _ _ _ hi' => simp [hi] at hi'
  | handler _ hi' => exact absurd hi' (hpal _)

/-- Settles O8: of the memories a statement may leave, only the one before it is left. -/
theorem onlyStoresChangeMemory : Obligations.OnlyStoresChangeMemory := fun _ _ _ hi hpal hexec =>
  State.byteAt_congr ((exec_nextState hexec).mem.eq_mem hi hpal)

/-! The fetch -/

/-- Settles O4: every statement goes on to an aligned pc, and the fetch asks for the four bytes there. -/
theorem fetchIsAlignedAndMapped : Obligations.FetchIsAlignedAndMapped := by
  refine ⟨fun s t hs hstep => ?_, fun s hexit hmap => ?_⟩
  · obtain ⟨_, _, hnext⟩ := step_nextState hstep
    exact hnext.pc.aligned hs
  · have hunmapped : (bytesFrom s.pc 4).all (s.launch.mapped .fetch) = false :=
      eq_false_of_ne_true fun hall => hmap (List.all_eq_true.mp hall)
    exact step_of_fetch_fault (State.fetchStatement_of_unmapped hexit hunmapped)

/-- The bytes at the pc decode to one machine instruction (spec/30_encoding.md R92). -/
theorem State.decodeAtPc_of_decode {s : State} {i : Instr} {rest : List Byte}
    (h : decode (s.fetchBytes s.pc) = .ok (i, rest)) (hone : i.isMacro s.launch.bwx = false) :
    s.decodeAtPc = .ok i := by simp [State.decodeAtPc, h, hone]

/-- Settles O6: either way the fetch gives the statement, and the step runs it. -/
theorem stepRunsTheStatementAtThePc : Obligations.StepRunsTheStatementAtThePc := by
  intro s i hexit hmap hat
  have hall : (bytesFrom s.pc 4).all (s.launch.mapped .fetch) = true := List.all_eq_true.mpr hmap
  have hfetch : s.fetchStatement = .ok i := by
    rcases hat with ⟨hcovers, hone, rest, hdecode⟩ | hplaced
    · rw [State.fetchStatement_of_word hexit hall hcovers, State.decodeAtPc_of_decode hdecode hone]
    · exact State.fetchStatement_of_placed hexit hall hplaced
  rw [step_of_fetch hfetch]
  cases exec i s <;> rfl

end Sys2Proof.Machine
end

section
/-! How loads and stores reach memory: alignment (spec/20_memory.md R45, R46), admission (R47, R49), the program text
(R56) and the lock (R57, R59). -/

namespace Sys2Proof.Machine

/-! Alignment, admission and program text -/

/-- An access of the form at the address raises nothing: its address is aligned where that is asked (R45, R46), and
every byte it touches is mapped for each kind (R47, R49). -/
def AccessForm.Allowed (f : AccessForm) (kinds : List AccessKind) (s : State) (ea : Word) : Prop :=
  (f.aligned = true → ea.toNat % f.size = 0) ∧ ∀ kind ∈ kinds, s.MapsAll kind (f.touched ea)

/-- An allowed access does what the statement does. -/
theorem State.access_of_allowed {s : State} (i : Instr) {f : AccessForm} {kinds : List AccessKind} {ea : Word}
    (h : f.Allowed kinds s ea) (run : Outcome) : s.access i f kinds ea run = run := by
  obtain ⟨haligned, hmapped⟩ := h
  have hmis : f.misaligned ea = false := by simpa [AccessForm.misaligned] using haligned
  have hadmits : (kinds.all fun kind => s.admits kind f ea) = true :=
    List.all_eq_true.mpr fun kind hk => List.all_eq_true.mpr (hmapped kind hk)
  exact State.access_of_ok i hmis hadmits run

theorem State.overlapsText_eq_false_iff {s : State} {a : Word} {n : Nat} :
    s.overlapsText a n = false ↔ s.OffText (bytesFrom a n) := by
  simp [State.overlapsText, State.OffText]

theorem State.overlapsText_eq_true_iff {s : State} {a : Word} {n : Nat} :
    s.overlapsText a n = true ↔ ¬ s.OffText (bytesFrom a n) := by
  rw [← State.overlapsText_eq_false_iff, Bool.not_eq_false]

/-! What each access form asks of an address -/

theorem AccessForm.natural_allowed {n : Nat} {kind : AccessKind} {s : State} {ea : Word} :
    (AccessForm.natural n).Allowed [kind] s ea ↔ ea.toNat % n = 0 ∧ s.MapsAll kind (bytesFrom ea n) := by
  simp [AccessForm.Allowed, AccessForm.natural, AccessForm.touched, AccessForm.start]

theorem AccessForm.quadAround_allowed {kind : AccessKind} {s : State} {ea : Word} :
    AccessForm.quadAround.Allowed [kind] s ea ↔ s.MapsAll kind (bytesFrom (quadOf ea) 8) := by
  simp [AccessForm.Allowed, AccessForm.quadAround, AccessForm.touched, AccessForm.start]

theorem AccessForm.unaligned_allowed_store {n : Nat} {s : State} {ea : Word} :
    (AccessForm.unaligned n).Allowed (AccessForm.unaligned n).storeKinds s ea ↔
      s.MapsAll .read (quadBytes ea n) ∧ s.MapsAll .write (quadBytes ea n) := by
  simp [AccessForm.Allowed, AccessForm.unaligned, AccessForm.touched, AccessForm.storeKinds]

theorem AccessForm.byteAccess_allowed_store {bwx : Bool} {s : State} {ea : Word} :
    (AccessForm.byteAccess !bwx).Allowed (AccessForm.byteAccess !bwx).storeKinds s ea ↔
      if bwx then s.MapsAll .write (bytesFrom ea 1)
      else s.MapsAll .read (quadBytes ea 1) ∧ s.MapsAll .write (quadBytes ea 1) := by
  cases bwx <;>
    simp [AccessForm.Allowed, AccessForm.byteAccess, AccessForm.touched, AccessForm.storeKinds, AccessForm.start]

theorem AccessForm.wordAccess_allowed_store {bwx : Bool} {s : State} {ea : Word} :
    (AccessForm.wordAccess !bwx).Allowed (AccessForm.wordAccess !bwx).storeKinds s ea ↔
      ea.toNat % 2 = 0 ∧ if bwx then s.MapsAll .write (bytesFrom ea 2)
        else s.MapsAll .read (quadBytes ea 2) ∧ s.MapsAll .write (quadBytes ea 2) := by
  cases bwx <;>
    simp [AccessForm.Allowed, AccessForm.wordAccess, AccessForm.touched, AccessForm.storeKinds, AccessForm.start]

/-! Misaligned addresses -/

/-- An exception of an access leaves all but the temporaries as it was (spec/60_exceptions.md R321, R325). -/
theorem WroteNothing.clobberTemps (i : Instr) (s : State) : WroteNothing i s (s.clobberTemps i) where
  others := s.x_clobberTemps_of_notMem i
  memory := by simp [SameMemory]
  lock := by simp [SameLock]
  counter := by simp [SameCounter]

/-- The statement is an access that asks for a multiple of `n`, whatever it does with the bytes. -/
def ChecksMultipleOf (mk : Reg → Address → Instr) (n : Nat) : Prop :=
  ∀ (r : Reg) (a : Address) (s : State), ∃ f kinds run, f.aligned = true ∧ f.size = n ∧
    exec (mk r a) s = s.guarded (mk r a) (s.access (mk r a) f kinds (s.ea a) run)

/-- The alignment is checked before anything else is done (R45). -/
theorem ChecksMultipleOf.misaligns {mk : Reg → Address → Instr} {n : Nat} (h : ChecksMultipleOf mk n) :
    Misaligns mk fun ea => ea.toNat % n ≠ 0 := by
  intro r a s hwf hbad
  obtain ⟨f, kinds, run, haligned, rfl, hexec⟩ := h r a s
  have hmis : f.misaligned (s.ea a) = true := by simpa [AccessForm.misaligned, haligned] using hbad
  refine ⟨s.clobberTemps (mk r a), ?_, by simp, .clobberTemps _ s⟩
  rw [hexec, State.guarded_of_wf hwf, State.access, if_pos hmis, State.raise]

theorem checksMultipleOf_four :
    ∀ mk ∈ ([.ldl, .ldlL, .stl, .stlC] : List (Reg → Address → Instr)), ChecksMultipleOf mk 4 := by
  intro mk hmk
  simp only [List.mem_cons, List.not_mem_nil, or_false] at hmk
  rcases hmk with rfl | rfl | rfl | rfl <;> exact fun _ _ _ => ⟨.natural 4, _, _, rfl, rfl, rfl⟩

theorem checksMultipleOf_eight :
    ∀ mk ∈ ([.ldq, .ldqL, .stq, .stqC] : List (Reg → Address → Instr)), ChecksMultipleOf mk 8 := by
  intro mk hmk
  simp only [List.mem_cons, List.not_mem_nil, or_false] at hmk
  rcases hmk with rfl | rfl | rfl | rfl <;> exact fun _ _ _ => ⟨.natural 8, _, _, rfl, rfl, rfl⟩

theorem checksMultipleOf_two :
    ∀ mk ∈ ([.ldw, .ldwu, .stw] : List (Reg → Address → Instr)), ChecksMultipleOf mk 2 := by
  intro mk hmk
  simp only [List.mem_cons, List.not_mem_nil, or_false] at hmk
  rcases hmk with rfl | rfl | rfl <;> exact fun _ _ _ => ⟨.wordAccess _, _, _, rfl, rfl, rfl⟩

/-- Settles O35: all eleven are accesses that check their alignment first. -/
theorem misalignedAccessRaises : Obligations.MisalignedAccessRaises :=
  ⟨fun mk hmk => (checksMultipleOf_four mk hmk).misaligns, fun mk hmk => (checksMultipleOf_eight mk hmk).misaligns,
    fun mk hmk => (checksMultipleOf_two mk hmk).misaligns⟩

/-! Load-locked -/

/-- The lock and a register are independent: a load-locked is a load in the state with the lock set. -/
theorem State.setLock_setX (s : State) (d : Reg) (v a : Word) :
    (s.setX d v).setLock a = (s.setLock a).setX d v := by
  unfold State.setX; split <;> rfl

/-- When a load-locked completes, and what it leaves (R57). -/
theorem State.loadLocked_spec {s : State} {i : Instr} (f : AccessForm) (ext : Extension) (d : Reg) (a : Address)
    (h : i.WellFormed s.launch.bwx) (hd : d ∈ i.registers) (ha : f.Allowed [.read] s (s.ea a)) :
    ∃ t, s.loadLocked i f ext d a = .next t ∧ t.pc = s.npc i ∧ RegHolds t d (s.loaded f ext (s.ea a)) ∧
      SameRegsExcept (d :: i.temporaries s.launch.bwx) s t ∧ SameMemory s t ∧ SameCounter s t ∧
      t.lockFlag = true ∧ t.lockAddr = s.ea a := by
  obtain ⟨t, hrun, hpc, hvalue, hothers, hmemory, ⟨hflag, haddr⟩, hcounter⟩ :=
    (s.setLock (s.ea a)).finish_setX_spec i d (s.loaded f ext (s.ea a)) (Instr.notMem_temporaries h hd)
  refine ⟨t, ?_, hpc, hvalue, hothers, hmemory, hcounter, hflag, haddr⟩
  rw [State.loadLocked, State.guarded_of_wf h, State.access_of_allowed i ha, State.setLock_setX, hrun]

/-- Settles O29: `ldl_l` and `ldq_l` are load-locked statements of their natural form. -/
theorem loadLockedSetsTheLock : Obligations.LoadLockedSetsTheLock := fun d a s =>
  ⟨fun hwf haligned hmapped =>
      s.loadLocked_spec (i := .ldlL d a) (.natural 4) .signed d a hwf List.mem_cons_self
        (AccessForm.natural_allowed.mpr ⟨haligned, hmapped⟩),
    fun hwf haligned hmapped =>
      s.loadLocked_spec (i := .ldqL d a) (.natural 8) .unsigned d a hwf List.mem_cons_self
        (AccessForm.natural_allowed.mpr ⟨haligned, hmapped⟩)⟩

/-! Store-conditional -/

/-- The states agree but for memory, the lock flag and the free values taken: how a store-conditional goes on before
it writes its register. The defaults prove every field for a named update by its `simp` lemmas. -/
structure SameOutsideMemory (s u : State) : Prop where
  regs : u.regs = s.regs := by simp
  pc : u.pc = s.pc := by simp
  launch : u.launch = s.launch := by simp
  lockAddr : u.lockAddr = s.lockAddr := by simp
  cycleCounter : u.cycleCounter = s.cycleCounter := by simp

theorem SameOutsideMemory.trans {s u t : State} (hu : SameOutsideMemory s u) (ht : SameOutsideMemory u t) :
    SameOutsideMemory s t where
  regs := ht.regs.trans hu.regs
  pc := ht.pc.trans hu.pc
  launch := ht.launch.trans hu.launch
  lockAddr := ht.lockAddr.trans hu.lockAddr
  cycleCounter := ht.cycleCounter.trans hu.cycleCounter

theorem SameOutsideMemory.memWrite {s : State} {a v : Word} {n : Nat} : SameOutsideMemory s (s.memWrite a v n) := {}

theorem SameOutsideMemory.ite_drew {c : Prop} [Decidable c] {s : State} :
    SameOutsideMemory s (if c then s.drew else s) := by
  split
  · exact {}
  · exact {}

theorem State.clearLock_setX (s : State) (d : Reg) (v : Word) : (s.setX d v).clearLock = s.clearLock.setX d v := by
  unfold State.setX; split <;> rfl

/-- The end of a store-conditional, once memory is written or left alone: the flag it returns is written last, and the
lock flag cleared (R59). -/
theorem State.finish_storeConditional {s u : State} {i : Instr} {r : Reg} {ea : Word} {n : Nat} (stores : Bool)
    (hu : SameOutsideMemory s u) (hr : r ∉ i.temporaries s.launch.bwx)
    (hstored : stores = true → HoldsBytes u ea (s.x r) n ∧ SameMemoryOutside ea n s u)
    (hkept : stores = false → SameMemory s u) :
    ∃ t, ((u.setX r (if stores then 1#64 else 0#64)).clearLock).finish i = .next t ∧
      StoredConditionally i stores r ea n s t := by
  obtain ⟨t, hrun, hpc, hvalue, hothers, hmemory, ⟨hflag, haddr⟩, hcounter, hlaunch⟩ :=
    u.clearLock.finish_setX_spec i r (if stores then 1#64 else 0#64) (by simpa [hu.launch] using hr)
  have hbyte (b : Word) : t.byteAt b = u.byteAt b := hmemory b
  refine ⟨t, by rw [State.clearLock_setX, hrun], ?_⟩
  exact
    { pc := hpc.trans (State.npc_congr i hu.pc hu.launch)
      bytes := fun hs =>
        have ⟨hbytes, houtside⟩ := hstored hs
        ⟨fun k hk => (hbyte _).trans (hbytes k hk), fun b hb => (hbyte b).trans (houtside b hb)⟩
      noBytes := fun hs b => (hbyte b).trans (hkept hs b)
      returned := hvalue
      flag := hflag
      address := haddr.trans hu.lockAddr
      others := fun q hq => (hothers q (by simpa [hu.launch] using hq)).trans (State.x_congr hu.regs q)
      counter := ⟨hcounter.trans hu.cycleCounter, hlaunch.trans hu.launch⟩ }

section
variable {s : State} {i : Instr} {f : AccessForm} {r : Reg} {a : Address}

/-- A store-conditional that stores, off the program text. -/
theorem State.storeConditional_of_stores (h : i.WellFormed s.launch.bwx) (hr : r ∈ i.registers)
    (ha : f.Allowed f.storeKinds s (s.ea a)) (hs : s.storesConditionally (s.ea a) = true) (hmem : s.mem.wf = true)
    (hn : f.size ≤ 8) (ht : s.OffText (bytesFrom (s.ea a) f.size)) :
    ∃ t, s.storeConditional i f r a = .next t ∧ StoredConditionally i true r (s.ea a) f.size s t := by
  rw [State.storeConditional, State.guarded_of_wf h, State.access_of_allowed i ha]
  simp only [hs, State.overlapsText_eq_false_iff.mpr ht, if_true, Bool.false_eq_true, if_false]
  have drawn_mem : (if s.outsideLock (s.ea a) then s.drew else s).mem = s.mem := LeavesPcAndMemory.ite_drew.mem
  have drawn_wf := drawn_mem ▸ hmem
  refine State.finish_storeConditional true (.trans .ite_drew .memWrite) (Instr.notMem_temporaries h hr)
    (fun _ => ⟨State.byteAt_memWrite _ _ _ _ drawn_wf hn, fun b hb => ?_⟩) (by simp)
  rw [State.byteAt_memWrite_outside _ _ _ _ drawn_wf b hb, State.byteAt_congr drawn_mem]

/-- A store-conditional that does not store: program text is no matter to it (log 19). -/
theorem State.storeConditional_of_not_stores (h : i.WellFormed s.launch.bwx) (hr : r ∈ i.registers)
    (ha : f.Allowed f.storeKinds s (s.ea a)) (hs : s.storesConditionally (s.ea a) = false) :
    ∃ t, s.storeConditional i f r a = .next t ∧ StoredConditionally i false r (s.ea a) f.size s t := by
  rw [State.storeConditional, State.guarded_of_wf h, State.access_of_allowed i ha]
  simp only [hs, Bool.false_eq_true, if_false]
  exact State.finish_storeConditional false .ite_drew (Instr.notMem_temporaries h hr) (by simp)
    fun _ => State.byteAt_congr LeavesPcAndMemory.ite_drew.mem

/-- A store-conditional that would store into the program text (R56). -/
theorem State.storeConditional_of_text (h : i.WellFormed s.launch.bwx) (ha : f.Allowed f.storeKinds s (s.ea a))
    (hs : s.storesConditionally (s.ea a) = true) (ht : ¬ s.OffText (bytesFrom (s.ea a) f.size)) :
    s.storeConditional i f r a = .refused .storeToText := by
  rw [State.storeConditional, State.guarded_of_wf h, State.access_of_allowed i ha]
  simp only [hs, State.overlapsText_eq_true_iff.mpr ht, if_true]

/-- A store into the program text (R56). -/
theorem State.store_of_text (h : i.WellFormed s.launch.bwx) (ha : f.Allowed f.storeKinds s (s.ea a))
    (ht : ¬ s.OffText (bytesFrom (f.start (s.ea a)) f.size)) : s.store i f r a = .refused .storeToText := by
  rw [State.store, State.guarded_of_wf h, State.access_of_allowed i ha,
    if_pos (State.overlapsText_eq_true_iff.mpr ht)]

end

/-- Two addresses lie in the same 16-byte block where their bits 63 to 4 agree (R59). -/
theorem ushiftRight_four_eq_iff (a b : Word) : a >>> 4 = b >>> 4 ↔ a.extractLsb' 4 60 = b.extractLsb' 4 60 := by
  simp only [← BitVec.toNat_inj, BitVec.toNat_ushiftRight, BitVec.extractLsb'_toNat, Nat.shiftRight_eq_div_pow]
  have := a.isLt
  have := b.isLt
  omega

/-- Whether a store-conditional stores, as R59 says it. -/
theorem State.storesConditionally_eq (s : State) (ea : Word) : s.storesConditionally ea =
    if s.lockFlag = true ∧ ea.extractLsb' 4 60 ≠ s.lockAddr.extractLsb' 4 60 then Config.freeBit s.draws
    else s.lockFlag := by
  simp [State.storesConditionally, State.outsideLock, State.inLockedBlock, ushiftRight_four_eq_iff]

/-- `stl_c` and `stq_c` are store-conditionals of their natural form (R123, R125). -/
theorem exec_storeConditional (p : (Reg → Address → Instr) × Nat) (hp : p ∈ [(.stlC, 4), (.stqC, 8)]) :
    p.2 ≤ 8 ∧ ∀ (r : Reg) (a : Address) (s : State), r ∈ (p.1 r a).registers ∧
      exec (p.1 r a) s = s.storeConditional (p.1 r a) (.natural p.2) r a := by
  simp only [List.mem_cons, List.not_mem_nil, or_false] at hp
  rcases hp with rfl | rfl <;> exact ⟨by decide, fun _ _ _ => ⟨List.mem_cons_self, rfl⟩⟩

/-- Settles O34: by the outcome of R59, the store-conditional that stores and the one that does not. -/
theorem storeConditional : Obligations.StoreConditional := by
  intro p hp r a s hwf hmem haligned hmapped htext
  obtain ⟨hn, hp⟩ := exec_storeConditional p hp
  obtain ⟨hr, hexec⟩ := hp r a s
  have hallowed := AccessForm.natural_allowed.mpr ⟨haligned, hmapped⟩
  rw [hexec, ← State.storesConditionally_eq]
  cases hs : s.storesConditionally (s.ea a) with
  | true => exact State.storeConditional_of_stores hwf hr hallowed hs hmem hn htext
  | false => exact State.storeConditional_of_not_stores hwf hr hallowed hs

/-! Stores into the program text -/

/-- A mnemonic that stores by a form which may depend on `BWX`, at addresses that are good for that form. -/
theorem RefusesText.of_store {mk : Reg → Address → Instr} {good : State → Word → Prop} {start : Word → Word} {n : Nat}
    (form : Bool → AccessForm)
    (hexec : ∀ r a s, exec (mk r a) s = s.store (mk r a) (form s.launch.bwx) r a)
    (hgood : ∀ s ea, good s ea → (form s.launch.bwx).Allowed (form s.launch.bwx).storeKinds s ea)
    (hbytes : ∀ bwx ea, bytesFrom ((form bwx).start ea) (form bwx).size = bytesFrom (start ea) n) :
    RefusesText mk good start n := by
  intro r a s hwf hg htext
  rw [hexec]
  exact State.store_of_text hwf (hgood s _ hg) (by rwa [hbytes])

/-- The store-conditionals at the program text: refused where they would store, done without a store where not. -/
theorem exec_storeConditional_of_text (p : (Reg → Address → Instr) × Nat) (hp : p ∈ [(.stlC, 4), (.stqC, 8)])
    {r : Reg} {a : Address} {s : State} (hwf : (p.1 r a).WellFormed s.launch.bwx)
    (hallowed : (AccessForm.natural p.2).Allowed [.write] s (s.ea a))
    (htext : ¬ s.OffText (bytesFrom (s.ea a) p.2)) :
    if s.storesConditionally (s.ea a) = true then exec (p.1 r a) s = .refused .storeToText
    else ∃ t, exec (p.1 r a) s = .next t ∧ StoredConditionally (p.1 r a) false r (s.ea a) p.2 s t := by
  obtain ⟨hr, hexec⟩ := (exec_storeConditional p hp).2 r a s
  rw [hexec]
  split
  · exact State.storeConditional_of_text hwf hallowed ‹_› htext
  · exact State.storeConditional_of_not_stores hwf hr hallowed (eq_false_of_ne_true ‹_›)

/-- Settles O37: each plain store by its form, the store-conditionals by the outcome of R59. -/
theorem storeIntoTextIsRefused : Obligations.StoreIntoTextIsRefused := by
  refine ⟨fun p hp => ?natural, fun p hp r a s hwf haligned hmapped htext => ?conditional, ?stqU, ?stb, ?stw,
    fun p hp => ?unaligned⟩
  case natural =>
    have hexec : ∀ r a s, exec (p.1 r a) s = s.store (p.1 r a) (.natural p.2) r a := by
      simp only [List.mem_cons, List.not_mem_nil, or_false] at hp
      rcases hp with rfl | rfl <;> exact fun _ _ _ => rfl
    exact .of_store (fun _ => .natural p.2) hexec (fun _ _ => AccessForm.natural_allowed.mpr) fun _ _ => rfl
  case conditional =>
    rw [← State.storesConditionally_eq]
    exact exec_storeConditional_of_text p hp hwf (AccessForm.natural_allowed.mpr ⟨haligned, hmapped⟩) htext
  case stqU =>
    exact .of_store (fun _ => .quadAround) (fun _ _ _ => rfl) (fun _ _ => AccessForm.quadAround_allowed.mpr)
      fun _ _ => rfl
  case stb =>
    exact .of_store (fun bwx => .byteAccess !bwx) (fun _ _ _ => rfl)
      (fun _ _ => AccessForm.byteAccess_allowed_store.mpr) fun _ _ => rfl
  case stw =>
    exact .of_store (fun bwx => .wordAccess !bwx) (fun _ _ _ => rfl)
      (fun _ _ => AccessForm.wordAccess_allowed_store.mpr) fun _ _ => rfl
  case unaligned =>
    have hexec : ∀ r a s, exec (p.1 r a) s = s.store (p.1 r a) (.unaligned p.2) r a := by
      simp only [List.mem_cons, List.not_mem_nil, or_false] at hp
      rcases hp with rfl | rfl | rfl <;> exact fun _ _ _ => rfl
    exact .of_store (fun _ => .unaligned p.2) hexec (fun _ _ => AccessForm.unaligned_allowed_store.mpr) fun _ _ => rfl

end Sys2Proof.Machine
end

section
/-! The words of instructions (spec/30_encoding.md R82 to R92): which fields spell which instruction, said once. A word
decodes to an instruction exactly where it is the word of fields that spell it (`decodeWord_eq_ok_iff`), so a claim
about the decoder is a case per format, and what a row of the opcode table has to satisfy is a claim about the table. -/

namespace Sys2Proof

/-! The rows of the opcode table -/

/-- The row found is one of the table's. -/
theorem mem_of_findRow {n : Nat} {α : Type} {key : BitVec n} {row : α} {rows : List (BitVec n × α)}
    (h : findRow key rows = some row) : (key, row) ∈ rows := by
  induction rows with
  | nil => simp [findRow] at h
  | cons p rest ih =>
    obtain ⟨k, r⟩ := p
    simp only [findRow] at h
    split at h
    · rename_i e
      simp_all
    · exact List.mem_cons_of_mem _ (ih h)

/-- No row is found where the table has none with the key. -/
theorem findRow_eq_none {n : Nat} {α : Type} {key : BitVec n} {rows : List (BitVec n × α)}
    (h : key ∉ rows.map Prod.fst) : findRow key rows = none := by
  induction rows with
  | nil => rfl
  | cons p rest ih =>
    simp only [List.map_cons, List.mem_cons, not_or] at h
    rw [findRow, if_neg (Ne.symm h.1), ih h.2]

/-- The Operate row of an opcode and a function code (R88). -/
def operateRow (opcode : BitVec 6) (func : BitVec 7) : Option OperateRow :=
  (findRow opcode operateRows).bind (findRow func)

/-- An Operate row is one of those of its opcode. -/
theorem mem_of_operateRow {opcode : BitVec 6} {func : BitVec 7} {row : OperateRow}
    (h : operateRow opcode func = some row) : ∃ rows, (opcode, rows) ∈ operateRows ∧ (func, row) ∈ rows := by
  obtain ⟨rows, hrows, hrow⟩ := Option.bind_eq_some_iff.mp h
  exact ⟨rows, mem_of_findRow hrows, mem_of_findRow hrow⟩

/-! The fields that spell an instruction -/

/-- The fields spell the instruction: the row of the opcode table they select makes it of them, the should-be-zero
field is zero and the unused register fields hold 31 (R88, R90). -/
inductive Fields.Spells : Fields → Instr → Prop where
  | pcd (palcode : BitVec 26) : Spells (.pcd palcode) (.callPal palcode.toNat)
  | mem {opcode : BitVec 6} {make : Reg → Address → Instr} (hrow : findRow opcode memRows = some make) (ra rb : Reg)
      (disp : BitVec 16) : Spells (.mem opcode ra rb disp) (make ra (.base disp.toInt rb))
  | mfcNone {func : BitVec 16} {i : Instr} (hrow : findRow func functionRows = some (.none i)) :
      Spells (.mfc 31 31 func) i
  | mfcBase {func : BitVec 16} {make : Int → Reg → Instr} (hrow : findRow func functionRows = some (.base make))
      (rb : Reg) : Spells (.mfc 31 rb func) (make 0 rb)
  | mfcDest {func : BitVec 16} {make : Reg → Instr} (hrow : findRow func functionRows = some (.dest make)) (ra : Reg) :
      Spells (.mfc ra 31 func) (make ra)
  | mbr (ra rb : Reg) (jtype : BitVec 2) (hint : BitVec 14) :
      Spells (.mbr ra rb jtype hint) (jumpInstr ra rb jtype hint)
  | bra {opcode : BitVec 6} {make : Reg → Target → Instr} (hrow : findRow opcode branchRows = some make) (ra : Reg)
      (disp : BitVec 21) : Spells (.bra opcode ra disp) (make ra (.disp disp))
  | oprThree {opcode : BitVec 6} {func : BitVec 7} {make : Reg → RegImm → Reg → Instr} {field : OperandField}
      {operand : RegImm} (hrow : operateRow opcode func = some (.three make)) (hb : field.operand = .ok operand)
      (ra rc : Reg) : Spells (.opr opcode ra field func rc) (make ra operand rc)
  | oprTwo {opcode : BitVec 6} {func : BitVec 7} {make : RegImm → Reg → Instr} {field : OperandField}
      {operand : RegImm} (hrow : operateRow opcode func = some (.two make)) (hb : field.operand = .ok operand)
      (rc : Reg) : Spells (.opr opcode 31 field func rc) (make operand rc)
  | oprOne {opcode : BitVec 6} {func : BitVec 7} {make : Reg → Instr} {field : OperandField}
      {operand : RegImm} (hrow : operateRow opcode func = some (.one make)) (hb : field.operand = .ok operand)
      (rc : Reg) : Spells (.opr opcode 31 field func rc) (make rc)

theorem require31_eq_ok_iff {r : Reg} {i j : Instr} : require31 r i = .ok j ↔ r = 31#5 ∧ i = j := by
  unfold require31
  split <;> simp [*]

/-- The fields of an Operate word, by the row their opcode and function code select. -/
theorem Fields.opr_instr_eq_ok_iff {opcode : BitVec 6} {ra rc : Reg} {field : OperandField} {func : BitVec 7}
    {i : Instr} : (Fields.opr opcode ra field func rc).instr = .ok i ↔
      ∃ row operand, operateRow opcode func = some row ∧ field.operand = .ok operand ∧
        row.instr ra operand rc = .ok i := by
  simp only [Fields.instr, operateRow]
  cases findRow opcode operateRows with
  | none => simp
  | some rows =>
    cases hrow : findRow func rows with
    | none => simp [hrow]
    | some row => cases field.operand <;> simp [hrow]

/-- Fields that decode spell what they decode to. -/
theorem Fields.Spells.of_instr {f : Fields} {i : Instr} (h : f.instr = .ok i) : f.Spells i := by
  cases f with
  | pcd palcode =>
    obtain rfl : Instr.callPal palcode.toNat = i := by simpa [Fields.instr] using h
    exact .pcd palcode
  | mem opcode ra rb disp =>
    simp only [Fields.instr] at h
    split at h
    · obtain rfl := Except.ok.inj h
      exact .mem ‹_› ra rb disp
    · simp at h
  | mfc ra rb func =>
    simp only [Fields.instr] at h
    split at h
    · rename_i row hrow
      cases row with
      | none j =>
        simp only [FunctionRow.instr] at h
        split at h
        · subst rb
          obtain ⟨rfl, rfl⟩ := require31_eq_ok_iff.mp h
          exact .mfcNone hrow
        · simp at h
      | base make =>
        obtain ⟨rfl, rfl⟩ := require31_eq_ok_iff.mp h
        exact .mfcBase hrow rb
      | dest make =>
        obtain ⟨rfl, rfl⟩ := require31_eq_ok_iff.mp h
        exact .mfcDest hrow ra
    · simp at h
  | mbr ra rb jtype hint =>
    obtain rfl := Except.ok.inj h
    exact .mbr ra rb jtype hint
  | bra opcode ra disp =>
    simp only [Fields.instr] at h
    split at h
    · obtain rfl := Except.ok.inj h
      exact .bra ‹_› ra disp
    · simp at h
  | opr opcode ra field func rc =>
    obtain ⟨row, operand, hrow, hb, h⟩ := Fields.opr_instr_eq_ok_iff.mp h
    cases row with
    | three make =>
      obtain rfl := Except.ok.inj h
      exact .oprThree hrow hb ra rc
    | two make =>
      obtain ⟨rfl, rfl⟩ := require31_eq_ok_iff.mp h
      exact .oprTwo hrow hb rc
    | one make =>
      obtain ⟨rfl, rfl⟩ := require31_eq_ok_iff.mp h
      exact .oprOne hrow hb rc

/-- Fields that spell an instruction decode to it. -/
theorem Fields.Spells.instr {f : Fields} {i : Instr} (h : f.Spells i) : f.instr = .ok i := by
  cases h with
  | pcd => rfl
  | mem hrow => simp [Fields.instr, hrow]
  | mfcNone hrow => simp [Fields.instr, hrow, FunctionRow.instr, require31]
  | mfcBase hrow => simp [Fields.instr, hrow, FunctionRow.instr, require31]
  | mfcDest hrow => simp [Fields.instr, hrow, FunctionRow.instr, require31]
  | mbr => rfl
  | bra hrow => simp [Fields.instr, hrow]
  | oprThree hrow hb => exact Fields.opr_instr_eq_ok_iff.mpr ⟨_, _, hrow, hb, rfl⟩
  | oprTwo hrow hb => exact Fields.opr_instr_eq_ok_iff.mpr ⟨_, _, hrow, hb, require31_eq_ok_iff.mpr ⟨rfl, rfl⟩⟩
  | oprOne hrow hb => exact Fields.opr_instr_eq_ok_iff.mpr ⟨_, _, hrow, hb, require31_eq_ok_iff.mpr ⟨rfl, rfl⟩⟩

/-! The format of an opcode -/

theorem formatOf_memRows : ∀ row ∈ memRows, formatOf row.1 = some .mem := by
  simp [memRows, formatOf]

theorem formatOf_branchRows : ∀ row ∈ branchRows, formatOf row.1 = some .bra := by
  simp [branchRows, formatOf]

theorem formatOf_operateRows : ∀ row ∈ operateRows, formatOf row.1 = some .opr := by
  simp [operateRows, formatOf]

/-- An opcode of an Operate row has the Operate format. -/
theorem formatOf_of_operateRow {opcode : BitVec 6} {func : BitVec 7} {row : OperateRow}
    (h : operateRow opcode func = some row) : formatOf opcode = some .opr := by
  obtain ⟨_, hmem, _⟩ := mem_of_operateRow h
  exact formatOf_operateRows _ hmem

/-- The opcode of fields that spell an instruction has their format. -/
theorem Fields.Spells.formatOf_opcode {f : Fields} {i : Instr} (h : f.Spells i) :
    formatOf f.opcode = some f.format := by
  cases h with
  | pcd => rfl
  | mem hrow => exact formatOf_memRows _ (mem_of_findRow hrow)
  | mfcNone => rfl
  | mfcBase => rfl
  | mfcDest => rfl
  | mbr => rfl
  | bra hrow => exact formatOf_branchRows _ (mem_of_findRow hrow)
  | oprThree hrow => exact formatOf_of_operateRow hrow
  | oprTwo hrow => exact formatOf_of_operateRow hrow
  | oprOne hrow => exact formatOf_of_operateRow hrow

/-- A word decodes to an instruction exactly where it is the word of fields that spell it (R92). -/
theorem decodeWord_eq_ok_iff {w : InstrWord} {i : Instr} :
    decodeWord w = .ok i ↔ ∃ f : Fields, f.Spells i ∧ f.word = w := by
  constructor
  · intro h
    unfold decodeWord at h
    split at h
    · simp at h
    · rename_i format hformat
      exact ⟨splitAs w format, .of_instr h, word_splitAs w format hformat⟩
  · rintro ⟨f, hspells, rfl⟩
    rw [decodeWord_word f hspells.formatOf_opcode, hspells.instr]

end Sys2Proof
end

section
/-! Encoding and decoding agree (spec/30_encoding.md R83 to R92): the fields of a statement spell its machine form, and
an instruction that fields spell has those fields. -/

namespace Sys2Proof

/-! Operands and fields -/

/-- An immediate that has a literal survives it (R85). -/
theorem RegImm.operand_field {b : RegImm} {field : OperandField} (h : b.field = some field) :
    field.operand = .ok b := by
  cases b with
  | reg r =>
    obtain rfl := Option.some.inj h
    rfl
  | imm v =>
    simp only [RegImm.field] at h
    split at h
    · obtain rfl := Option.some.inj h
      simp only [OperandField.operand, BitVec.toNat_ofInt, Except.ok.injEq, RegImm.imm.injEq]
      omega
    · simp at h

/-- An operand field that decodes is the field of its operand. -/
theorem OperandField.field_operand {field : OperandField} {b : RegImm} (h : field.operand = .ok b) :
    b.field = some field := by
  cases field with
  | reg rb sbz =>
    simp only [OperandField.operand] at h
    split at h
    · subst sbz
      obtain rfl := Except.ok.inj h
      rfl
    · simp at h
  | literal value =>
    obtain rfl := Except.ok.inj h
    have hlt : value.toNat < 256 := value.isLt
    rw [RegImm.field, if_pos (by omega), Option.some.injEq, OperandField.literal.injEq]
    simp

/-- A field holds every operand but the wide ones (R75, R85). -/
theorem RegImm.isSome_field (b : RegImm) : b.field.isSome = !b.wide := by
  cases b with
  | reg r => rfl
  | imm v =>
    by_cases h : 0 ≤ v ∧ v ≤ 255
    · have hnarrow : ¬ (v < 0 ∨ 255 < v) := by omega
      simp [RegImm.field, RegImm.wide, h, hnarrow]
    · have hwide : v < 0 ∨ 255 < v := by omega
      simp [RegImm.field, RegImm.wide, h, hwide]

/-- An offset in range survives its 16 bits (R73). -/
theorem toInt_ofInt_of_offsetInRange {o : Int} (h : offsetInRange o = true) : (BitVec.ofInt 16 o).toInt = o := by
  simp only [offsetInRange, decide_eq_true_eq] at h
  rw [BitVec.toInt_ofInt, Int.bmod_eq_of_le (by omega) (by omega)]

/-- A displacement field holds an offset in range. -/
theorem offsetInRange_toInt (disp : BitVec 16) : offsetInRange disp.toInt = true := by
  have hl := disp.le_toInt
  have hu := disp.toInt_lt
  simp only [offsetInRange, decide_eq_true_eq]
  omega

theorem memFields_base {opcode : BitVec 6} {r b : Reg} {o : Int} (h : offsetInRange o = true) :
    memFields opcode r (.base o b) = some (.mem opcode r b (BitVec.ofInt 16 o)) :=
  if_pos (of_decide_eq_true h)

/-! The fields of a statement -/

/-- The fields a statement has: those that spell its machine form (R80, R86), or none, because it is no statement as
it stands (R13), because it is several machine instructions (R79), or because its label is out of reach (R77). -/
inductive Instr.FieldsOutcome (pc : Word) (i : Instr) : Option Fields → Prop where
  | word {f : Fields} (h : f.Spells (i.machineForm pc)) : FieldsOutcome pc i (some f)
  | illFormed (h : ¬ i.WellFormed true) : FieldsOutcome pc i none
  | manyWords (h : i.isMacro true = true) : FieldsOutcome pc i none
  | outOfReach {l : Label} (ht : i.target? = some (.label l)) (hl : labelDisp pc l = none) : FieldsOutcome pc i none

/-- The checks of a well-formed statement (R13). -/
theorem Instr.wellFormed_iff {bwx : Bool} {i : Instr} : i.WellFormed bwx ↔ i.offsetsInRange = true ∧
    i.palcodeInRange = true ∧ i.fetchOffsetZero = true ∧ i.avoidsTemporaries bwx = true := by
  unfold Instr.WellFormed Instr.illFormed?
  split_ifs <;> simp_all

section
variable {pc : Word} {i : Instr}

/-- The Memory format (R84). -/
theorem Instr.FieldsOutcome.mem {opcode : BitVec 6} {make : Reg → Address → Instr} {r : Reg} {a : Address}
    (hrow : findRow opcode memRows = some make) (hform : i.machineForm pc = make r a)
    (hoffset : i.offsetsInRange = a.offsetInRange) (hmacro : i.isMacro true = a.isSymbolic) :
    i.FieldsOutcome pc (memFields opcode r a) := by
  cases a with
  | symbolic e => exact .manyWords hmacro
  | base o b =>
    by_cases hrange : Sys2Proof.offsetInRange o = true
    · rw [memFields_base hrange]
      refine .word ?_
      simpa [hform, toInt_ofInt_of_offsetInRange hrange] using Fields.Spells.mem hrow r b (BitVec.ofInt 16 o)
    · have hnone : memFields opcode r (.base o b) = none := if_neg fun h => hrange (decide_eq_true h)
      rw [hnone]
      refine .illFormed fun hwf => ?_
      obtain ⟨hinRange, _⟩ := wellFormed_iff.mp hwf
      exact hrange (hoffset.symm.trans hinRange)

/-- The target of a branch as its word holds it: a label in reach as its displacement (R86). -/
def Target.resolved (pc : Word) : Target → Target
  | .disp d => .disp d
  | .label l => ((labelDisp pc l).map Target.disp).getD (.label l)

/-- The Branch format (R84, R86). -/
theorem Instr.FieldsOutcome.bra {opcode : BitVec 6} {make : Reg → Target → Instr} {r : Reg} {t : Target}
    (hrow : findRow opcode branchRows = some make) (hform : i.machineForm pc = make r (t.resolved pc))
    (htarget : i.target? = some t) : i.FieldsOutcome pc (braFields pc opcode r t) := by
  cases t with
  | disp d => exact .word (hform ▸ .bra hrow r d)
  | label l =>
    cases hl : labelDisp pc l with
    | none => simpa [braFields, targetDisp, hl] using FieldsOutcome.outOfReach htarget hl
    | some d =>
      have hspells : (Fields.bra opcode r d).Spells (i.machineForm pc) := by
        simpa [hform, Target.resolved, hl] using Fields.Spells.bra hrow r d
      simpa [braFields, targetDisp, hl] using FieldsOutcome.word hspells

/-- The Operate format, whatever row (R84, R85). -/
theorem Instr.FieldsOutcome.opr {opcode : BitVec 6} {func : BitVec 7} {a c : Reg} {b : RegImm}
    (hspells : ∀ field : OperandField, field.operand = .ok b →
      (Fields.opr opcode a field func c).Spells (i.machineForm pc))
    (hmacro : i.isMacro true = b.wide) : i.FieldsOutcome pc (oprFields opcode func a b c) := by
  cases hb : b.field with
  | some field => simpa [oprFields, hb] using FieldsOutcome.word (hspells field (RegImm.operand_field hb))
  | none =>
    have hwide : b.wide = true := by simpa [hb] using b.isSome_field
    simpa [oprFields, hb] using FieldsOutcome.manyWords (hmacro.trans hwide)

/-- The rows with three operands. -/
theorem Instr.FieldsOutcome.three {opcode : BitVec 6} {func : BitVec 7} {make : Reg → RegImm → Reg → Instr} {a c : Reg}
    {b : RegImm} (hrow : operateRow opcode func = some (.three make)) (hform : i.machineForm pc = make a b c)
    (hmacro : i.isMacro true = b.wide) : i.FieldsOutcome pc (oprFields opcode func a b c) :=
  .opr (fun _ hb => hform ▸ .oprThree hrow hb a c) hmacro

/-- The rows with one source. -/
theorem Instr.FieldsOutcome.two {opcode : BitVec 6} {func : BitVec 7} {make : RegImm → Reg → Instr} {d : Reg}
    {b : RegImm} (hrow : operateRow opcode func = some (.two make)) (hform : i.machineForm pc = make b d)
    (hmacro : i.isMacro true = b.wide) : i.FieldsOutcome pc (oprFields opcode func 31 b d) :=
  .opr (fun _ hb => hform ▸ .oprTwo hrow hb d) hmacro

end

/-- `mov`: `bis` where the literal holds its operand, `lda` for the other immediates of 16 bits (R80, R221). -/
theorem Instr.FieldsOutcome.mov (pc : Word) (b : RegImm) (d : Reg) :
    (Instr.mov b d).FieldsOutcome pc (movFields b d) := by
  have bis_row : operateRow 0x11#6 0x20#7 = some (.three .bis) := rfl
  cases b with
  | reg r => exact .word (.oprThree bis_row rfl 31 d)
  | imm v =>
    by_cases hliteral : 0 ≤ v ∧ v ≤ 255
    · have hfield : (RegImm.imm v).field = some (.literal (BitVec.ofInt 8 v)) := if_pos hliteral
      have hform : (Instr.mov (.imm v) d).machineForm pc = .bis 31 (.imm v) d := if_pos hliteral
      simp only [movFields, hfield]
      exact .word (hform ▸ .oprThree bis_row (RegImm.operand_field hfield) 31 d)
    · have hfield : (RegImm.imm v).field = none := if_neg hliteral
      have hform : (Instr.mov (.imm v) d).machineForm pc = .lda d (.base v 31) := if_neg hliteral
      simp only [movFields, hfield]
      by_cases hrange : Sys2Proof.offsetInRange v = true
      · rw [memFields_base hrange]
        refine .word ?_
        simpa [hform, toInt_ofInt_of_offsetInRange hrange] using
          Fields.Spells.mem (rfl : findRow 0x08#6 memRows = some .lda) d 31 (BitVec.ofInt 16 v)
      · have hnone : memFields 0x08#6 d (.base v 31) = none := if_neg fun h => hrange (decide_eq_true h)
        rw [hnone]
        refine .manyWords ?_
        simp only [Sys2Proof.offsetInRange, decide_eq_true_eq] at hrange
        simp only [isMacro, RegImm.wideForMov, decide_eq_true_eq]
        omega

/-- `fetch` and `fetch_m`: only offset 0 has an encoding (R84, R297). -/
theorem Instr.FieldsOutcome.fetch {pc : Word} {i : Instr} {func : BitVec 16} {make : Int → Reg → Instr} {o : Int}
    {b : Reg} (hrow : findRow func functionRows = some (.base make)) (hform : i.machineForm pc = make o b)
    (hzero : i.fetchOffsetZero = decide (o = 0)) : i.FieldsOutcome pc (fetchFields func o b) := by
  by_cases ho : o = 0
  · subst ho
    exact .word (hform ▸ .mfcBase hrow b)
  · rw [fetchFields, if_neg ho]
    refine .illFormed fun hwf => ?_
    obtain ⟨_, _, hfetch, _⟩ := wellFormed_iff.mp hwf
    exact ho (of_decide_eq_true (hzero.symm.trans hfetch))

/-- `call_pal` (R83, R295). -/
theorem Instr.FieldsOutcome.callPal (pc : Word) (palcode : Nat) :
    (Instr.callPal palcode).FieldsOutcome pc ((Instr.callPal palcode).fields pc) := by
  by_cases h : palcode < 2 ^ 26
  · have hspells := Fields.Spells.pcd (BitVec.ofNat 26 palcode)
    rw [BitVec.toNat_ofNat, Nat.mod_eq_of_lt h] at hspells
    rw [Instr.fields, if_pos h]
    exact .word hspells
  · rw [Instr.fields, if_neg h]
    refine .illFormed fun hwf => ?_
    obtain ⟨_, hpalcode, _, _⟩ := wellFormed_iff.mp hwf
    exact h (of_decide_eq_true hpalcode)

/-- The fields of every statement: a case per format. -/
theorem Instr.fields_outcome (pc : Word) (i : Instr) : i.FieldsOutcome pc (i.fields pc) := by
  cases i with
  | lda | ldbu | ldwu | ldl | ldlL | ldq | ldqL | ldqU | stb | stw | stl | stlC | stq | stqC | stqU =>
    exact .mem rfl rfl rfl rfl
  | beq r t | bne r t | blt r t | ble r t | bgt r t | bge r t | blbc r t | blbs r t | br r t | bsr r t =>
    exact .bra rfl (by cases t <;> rfl) rfl
  | negl | neglv | negq | negqv | sextl | addl | addlv | addq | addqv | s4addl | s4addq | s8addl | s8addq | mull
  | mullv | mulq | mulqv | subl | sublv | subq | subqv | s4subl | s4subq | s8subl | s8subq | umulh | not | and | bis
  | or | xor | bic | andnot | ornot | eqv | xornot | sll | srl | sra | cmpeq | cmplt | cmple | cmpult | cmpule
  | cmoveq | cmovne | cmovlt | cmovle | cmovgt | cmovge | cmovlbc | cmovlbs | cmpbge | extbl | extwl | extll | extql
  | extwh | extlh | extqh | insbl | inswl | insll | insql | inswh | inslh | insqh | mskbl | mskwl | mskll | mskql
  | mskwh | msklh | mskqh | zap | zapnot =>
    exact .three rfl rfl rfl
  | amask | sextb | sextw => exact .two rfl rfl rfl
  | ldah d o b => exact .mem (a := .base o b) rfl rfl rfl rfl
  | unop => exact .mem (a := .base 0 30) rfl rfl rfl rfl
  | clr | nop => exact .three (b := .reg 31) rfl rfl rfl
  | mov b d => exact .mov pc b d
  | implver d => exact .word (.oprOne rfl rfl d)
  | jmp d j | jsr d j =>
    cases j with
    | reg r hint => exact .word (.mbr d r _ (hintBits pc hint))
    | symbolic e => exact .manyWords rfl
  | ret d r hint | jsrCoroutine d r hint => exact .word (.mbr d r _ hint)
  | callPal palcode => exact .callPal pc palcode
  | fetch o b | fetchM o b => exact .fetch rfl rfl rfl
  | rpcc d => exact .word (.mfcDest rfl d)
  | trapb | excb | mb | wmb => exact .word (.mfcNone rfl)
  | ldb | ldw | uldw | uldwu | uldl | uldq | ldgp | ldil | ldiq | ustw | ustl | ustq | absl | absq | divl | divlu
  | divq | divqu | reml | remlu | remq | remqu =>
    exact .manyWords rfl

/-- Settles O20: the fields a statement has spell its machine form. -/
theorem encodingRoundTrip : Obligations.EncodingRoundTrip := by
  intro pc i w hw
  obtain ⟨f, hf, hword⟩ := Option.map_eq_some_iff.mp hw
  have houtcome := i.fields_outcome pc
  rw [hf] at houtcome
  cases houtcome with
  | word hspells => exact decodeWord_eq_ok_iff.mpr ⟨f, hspells, hword⟩

/-- Settles O21: of the ways to have no fields none is left. -/
theorem machineStatementsHaveWords : Obligations.MachineStatementsHaveWords := by
  intro pc i hwf hone hreach
  have houtcome := i.fields_outcome pc
  cases hf : i.fields pc with
  | some f => exact ⟨f.word, by simp [encode, hf]⟩
  | none =>
    rw [hf] at houtcome
    cases houtcome with
    | illFormed h => exact absurd hwf h
    | manyWords h => simp [hone] at h
    | outOfReach ht hl => exact absurd hl (hreach _ ht)

end Sys2Proof
end

section
/-! What the decoder reads (spec/30_encoding.md R88 to R92): a decoded instruction has the fields it was read from, it is
well-formed and one machine instruction, and what the decoder refuses. -/

namespace Sys2Proof

/-! The fields of a decoded instruction -/

section
variable {pc : Word} {opcode : BitVec 6} {func : BitVec 7}

theorem fields_of_memRow : ∀ row ∈ memRows, ∀ (r : Reg) (o : Int) (b : Reg),
    (row.2 r (.base o b)).fields pc = memFields row.1 r (.base o b) := by
  intro row hrow
  fin_cases hrow <;> exact fun _ _ _ => rfl

theorem fields_of_branchRow : ∀ row ∈ branchRows, ∀ (r : Reg) (d : BitVec 21),
    (row.2 r (.disp d)).fields pc = some (.bra row.1 r d) := by
  intro row hrow
  fin_cases hrow <;> exact fun _ _ => rfl

/-- The instruction of a Memory-function row has the fields of the row. -/
def FunctionRow.HasFields (pc : Word) (func : BitVec 16) : FunctionRow → Prop
  | .none i => i.fields pc = some (.mfc 31 31 func)
  | .base make => ∀ b, (make 0 b).fields pc = some (.mfc 31 b func)
  | .dest make => ∀ d, (make d).fields pc = some (.mfc d 31 func)

theorem hasFields_of_functionRow : ∀ row ∈ functionRows, row.2.HasFields pc row.1 := by
  intro row hrow
  fin_cases hrow <;> dsimp only [FunctionRow.HasFields] <;> intros <;> rfl

/-- The instruction of an Operate row has the fields of the row; a row with a destination alone is `implver`'s. -/
def OperateRow.HasFields (pc : Word) (opcode : BitVec 6) (func : BitVec 7) : OperateRow → Prop
  | .three make => ∀ a b c, (make a b c).fields pc = oprFields opcode func a b c
  | .two make => ∀ b d, (make b d).fields pc = oprFields opcode func 31 b d
  | .one make => make = .implver

theorem hasFields_of_operateRow {row : OperateRow} (h : operateRow opcode func = some row) :
    row.HasFields pc opcode func := by
  have table : ∀ rows ∈ operateRows, ∀ row ∈ rows.2, row.2.HasFields pc rows.1 row.1 := by
    intro rows hrows
    fin_cases hrows <;> intro row hrow <;> fin_cases hrow <;> dsimp only [OperateRow.HasFields] <;> intros <;> rfl
  obtain ⟨_, hrows, hrow⟩ := mem_of_operateRow h
  exact table _ hrows _ hrow

/-- The four jumps (R87). -/
theorem jtype_cases : ∀ jtype : BitVec 2, jtype = 0#2 ∨ jtype = 1#2 ∨ jtype = 2#2 ∨ jtype = 3#2 := by decide

theorem fields_of_jumpInstr (ra rb : Reg) (jtype : BitVec 2) (hint : BitVec 14) :
    (jumpInstr ra rb jtype hint).fields pc = some (.mbr ra rb jtype hint) := by
  obtain rfl | rfl | rfl | rfl := jtype_cases jtype <;> rfl

/-- An instruction that fields spell has these fields; or it is `implver`, whose operand is not read (log 15). -/
theorem Fields.Spells.fields_eq {f : Fields} {i : Instr} (h : f.Spells i) : i.fields pc = some f ∨
    ∃ opcode field func d, i = .implver d ∧ f = .opr opcode 31 field func d := by
  cases h with
  | pcd palcode => exact .inl (by simp [Instr.fields, palcode.isLt])
  | mem hrow ra rb disp =>
    rw [fields_of_memRow _ (mem_of_findRow hrow), memFields_base (offsetInRange_toInt disp), BitVec.ofInt_toInt]
    exact .inl rfl
  | mfcNone hrow => exact .inl (hasFields_of_functionRow _ (mem_of_findRow hrow))
  | mfcBase hrow rb => exact .inl (hasFields_of_functionRow _ (mem_of_findRow hrow) rb)
  | mfcDest hrow ra => exact .inl (hasFields_of_functionRow _ (mem_of_findRow hrow) ra)
  | mbr ra rb jtype hint => exact .inl (fields_of_jumpInstr ra rb jtype hint)
  | bra hrow ra disp => exact .inl (fields_of_branchRow _ (mem_of_findRow hrow) ra disp)
  | oprThree hrow hb ra rc =>
    rw [hasFields_of_operateRow hrow, oprFields, OperandField.field_operand hb]
    exact .inl rfl
  | oprTwo hrow hb rc =>
    rw [hasFields_of_operateRow hrow, oprFields, OperandField.field_operand hb]
    exact .inl rfl
  | oprOne hrow _ rc => exact .inr ⟨_, _, _, rc, congrFun (hasFields_of_operateRow (pc := pc) hrow) rc, rfl⟩

end

/-- Settles O22: the fields a word was read from are those its instruction is encoded by. -/
theorem decodedWordEncodesBack : Obligations.DecodedWordEncodesBack := by
  intro pc w i hdecode hi
  obtain ⟨f, hspells, rfl⟩ := decodeWord_eq_ok_iff.mp hdecode
  obtain hf | ⟨_, _, _, d, rfl, _⟩ := hspells.fields_eq (pc := pc)
  · rw [encode, hf, Option.map_some]
  · exact absurd rfl (hi d)

/-! Decoded instructions are well-formed -/

/-- A statement of one machine instruction destroys no register (R79, R81). -/
theorem Instr.temporaries_of_one {bwx : Bool} {i : Instr} (h : i.isMacro bwx = false) : i.temporaries bwx = [] := by
  have of_plain : i.operandNeedsAT = false → i.ownTemporaries bwx = [] → i.temporaries bwx = [] := by
    intro hAT hown
    simp [Instr.temporaries, hAT, hown]
  cases i with
  | ldb | ldw | uldw | uldwu | uldl | uldq | ldgp | ldil | ldiq | ustw | ustl | ustq | absl | absq | divl | divlu
  | divq | divqu | reml | remlu | remq | remqu => exact absurd h.symm Bool.false_ne_true
  | ldbu | ldwu | stb | stw | sextb | sextw =>
    cases bwx with
    | false => exact absurd h.symm Bool.false_ne_true
    | true => exact of_plain h rfl
  | ldah | clr | mov | beq | bne | blt | ble | bgt | bge | blbc | blbs | br | bsr | ret | jsrCoroutine | callPal
  | fetch | fetchM | rpcc | implver | nop | unop | trapb | excb | mb | wmb => exact of_plain rfl rfl
  | _ => exact of_plain h rfl

/-- A statement of one machine instruction is well-formed where its offset and its code are in range. -/
theorem Instr.wellFormed_of_one {bwx : Bool} {i : Instr} (h : i.isMacro bwx = false)
    (hoffset : i.offsetsInRange = true := by rfl) (hpalcode : i.palcodeInRange = true := by rfl)
    (hfetch : i.fetchOffsetZero = true := by rfl) : i.WellFormed bwx :=
  Instr.wellFormed_iff.mpr ⟨hoffset, hpalcode, hfetch, by simp [Instr.avoidsTemporaries, temporaries_of_one h]⟩

/-- The opcodes of the instructions of kind B, which are several machine instructions without `BWX` (R79). -/
def bwxOpcodes : List (BitVec 6) := [0x0a#6, 0x0c#6, 0x0d#6, 0x0e#6, 0x1c#6]

/-- The instruction passes every check of R13 and is one machine instruction, but for the opcodes of kind B without
`BWX` (R79). -/
structure Instr.Checked (opcode : BitVec 6) (i : Instr) : Prop where
  isMacro : ∀ bwx, i.isMacro bwx = (!bwx && bwxOpcodes.contains opcode)
  offsetsInRange : i.offsetsInRange = true := by rfl
  palcodeInRange : i.palcodeInRange = true := by rfl
  fetchOffsetZero : i.fetchOffsetZero = true := by rfl

theorem Instr.Checked.isMacro_eq_false {opcode : BitVec 6} {i : Instr} {bwx : Bool} (h : i.Checked opcode)
    (hb : bwx = true ∨ opcode ∉ bwxOpcodes) : i.isMacro bwx = false := by
  rw [h.isMacro]
  rcases hb with rfl | hb <;> simp_all

theorem Instr.Checked.wellFormed {opcode : BitVec 6} {i : Instr} {bwx : Bool} (h : i.Checked opcode)
    (hb : bwx = true ∨ opcode ∉ bwxOpcodes) : i.WellFormed bwx :=
  wellFormed_of_one (h.isMacro_eq_false hb) h.offsetsInRange h.palcodeInRange h.fetchOffsetZero

theorem checked_of_memRow : ∀ row ∈ memRows, ∀ (r : Reg) (o : Int) (b : Reg), Sys2Proof.offsetInRange o = true →
    (row.2 r (.base o b)).Checked row.1 := by
  intro row hrow r o b ho
  fin_cases hrow <;> exact { isMacro := by intro bwx; cases bwx <;> rfl, offsetsInRange := ho }

theorem checked_of_branchRow : ∀ row ∈ branchRows, ∀ (r : Reg) (d : BitVec 21), (row.2 r (.disp d)).Checked row.1 := by
  intro row hrow r d
  fin_cases hrow <;> exact { isMacro := by intro bwx; cases bwx <;> rfl }

/-- Every instruction of a Memory-function row passes the checks. -/
def FunctionRow.Checked : FunctionRow → Prop
  | .none i => i.Checked 0x18#6
  | .base make => ∀ b, (make 0 b).Checked 0x18#6
  | .dest make => ∀ d, (make d).Checked 0x18#6

theorem checked_of_functionRow : ∀ row ∈ functionRows, row.2.Checked := by
  intro row hrow
  fin_cases hrow <;> dsimp only [FunctionRow.Checked] <;> intros <;>
    exact { isMacro := by intro bwx; cases bwx <;> rfl }

/-- Every instruction of an Operate row whose second operand a field holds passes the checks. -/
def OperateRow.Checked (opcode : BitVec 6) : OperateRow → Prop
  | .three make => ∀ a b c, b.wide = false → (make a b c).Checked opcode
  | .two make => ∀ b d, b.wide = false → (make b d).Checked opcode
  | .one make => ∀ d, (make d).Checked opcode

theorem checked_of_operateRow {opcode : BitVec 6} {func : BitVec 7} {row : OperateRow}
    (h : operateRow opcode func = some row) : row.Checked opcode := by
  have table : ∀ rows ∈ operateRows, ∀ row ∈ rows.2, row.2.Checked rows.1 := by
    intro rows hrows
    fin_cases hrows <;> intro row hrow <;> fin_cases hrow <;> dsimp only [OperateRow.Checked] <;> intros <;>
      exact { isMacro := by intro bwx; cases bwx <;> simp [*, Instr.isMacro, bwxOpcodes] }
  obtain ⟨_, hrows, hrow⟩ := mem_of_operateRow h
  exact table _ hrows _ hrow

/-- The operand a field holds is not wide (R75, R85). -/
theorem OperandField.wide_operand {field : OperandField} {b : RegImm} (h : field.operand = .ok b) :
    b.wide = false := by
  simpa [OperandField.field_operand h] using b.isSome_field

theorem jumpInstr_checked (ra rb : Reg) (jtype : BitVec 2) (hint : BitVec 14) :
    (jumpInstr ra rb jtype hint).Checked 0x1a#6 := by
  obtain rfl | rfl | rfl | rfl := jtype_cases jtype <;> exact { isMacro := by intro bwx; cases bwx <;> rfl }

/-- Fields spell only instructions that pass the checks. -/
theorem Fields.Spells.checked {f : Fields} {i : Instr} (h : f.Spells i) : i.Checked f.opcode := by
  cases h with
  | pcd palcode =>
    exact { isMacro := by intro bwx; cases bwx <;> rfl, palcodeInRange := decide_eq_true palcode.isLt }
  | mem hrow ra rb disp => exact checked_of_memRow _ (mem_of_findRow hrow) ra _ rb (offsetInRange_toInt disp)
  | mfcNone hrow => exact checked_of_functionRow _ (mem_of_findRow hrow)
  | mfcBase hrow rb => exact checked_of_functionRow _ (mem_of_findRow hrow) rb
  | mfcDest hrow ra => exact checked_of_functionRow _ (mem_of_findRow hrow) ra
  | mbr ra rb jtype hint => exact jumpInstr_checked ra rb jtype hint
  | bra hrow ra disp => exact checked_of_branchRow _ (mem_of_findRow hrow) ra disp
  | oprThree hrow hb ra rc => exact checked_of_operateRow hrow ra _ rc (OperandField.wide_operand hb)
  | oprTwo hrow hb rc => exact checked_of_operateRow hrow _ rc (OperandField.wide_operand hb)
  | oprOne hrow _ rc => exact checked_of_operateRow hrow rc

/-- A decoded instruction passes the checks, by the opcode of its word. -/
theorem checked_of_decodeWord {w : InstrWord} {i : Instr} (h : decodeWord w = .ok i) : i.Checked (opcodeField w) := by
  obtain ⟨f, hspells, rfl⟩ := decodeWord_eq_ok_iff.mp h
  rw [opcodeField_word]
  exact hspells.checked

/-- Settles O23: every row of the opcode table makes instructions that pass the checks. -/
theorem decodedInstructionsAreWellFormed : Obligations.DecodedInstructionsAreWellFormed := by
  intro w i hdecode
  have hchecked := checked_of_decodeWord hdecode
  refine ⟨hchecked.wellFormed (.inl rfl), hchecked.isMacro_eq_false (.inl rfl), fun hopcode => ?_⟩
  have hnot : opcodeField w ∉ bwxOpcodes := fun hmem => hopcode _ hmem rfl
  exact ⟨hchecked.wellFormed (.inr hnot), hchecked.isMacro_eq_false (.inr hnot)⟩

/-! Fields that must hold a fixed value -/

theorem registers_of_mfc_word (ra rb : Reg) (func : BitVec 16) :
    wordField (Fields.mfc ra rb func).word 21 5 = ra ∧ wordField (Fields.mfc ra rb func).word 16 5 = rb := by
  have h := splitAs_word (.mfc ra rb func)
  simp only [Fields.format, splitAs, Fields.mfc.injEq] at h
  exact ⟨h.1, h.2.1⟩

theorem ra_of_opr_word (opcode : BitVec 6) (ra rc : Reg) (field : OperandField) (func : BitVec 7) :
    wordField (Fields.opr opcode ra field func rc).word 21 5 = ra := by
  have h := splitAs_word (.opr opcode ra field func rc)
  simp only [Fields.format, splitAs, Fields.opr.injEq] at h
  exact h.2.1

/-- An instruction whose fields are those of a Memory-function word. -/
theorem registers_of_mfc_fields {f : Fields} {i : Instr} {ra rb : Reg} {func : BitVec 16} (h : f.Spells i)
    (hi : ∀ pc, i.fields pc = some (.mfc ra rb func)) :
    wordField f.word 21 5 = ra ∧ wordField f.word 16 5 = rb := by
  obtain hf | ⟨_, _, _, _, rfl, _⟩ := h.fields_eq (pc := 0)
  · rw [hi] at hf
    obtain rfl := Option.some.inj hf
    exact registers_of_mfc_word ra rb func
  · cases hi 0

/-- An instruction whose fields are those of an Operate word without a first operand. -/
theorem ra_of_opr_fields {f : Fields} {i : Instr} {opcode : BitVec 6} {func : BitVec 7} {b : RegImm} {d : Reg}
    (h : f.Spells i) (hi : ∀ pc, i.fields pc = oprFields opcode func 31 b d) : wordField f.word 21 5 = 31#5 := by
  obtain hf | ⟨_, _, _, _, _, rfl⟩ := h.fields_eq (pc := 0)
  · rw [hi] at hf
    obtain ⟨field, _, rfl⟩ := Option.map_eq_some_iff.mp hf
    exact ra_of_opr_word _ _ _ _ _
  · exact ra_of_opr_word _ _ _ _ _

/-- A register operand that decodes has a zero should-be-zero field (R90). -/
theorem shouldBeZero_of_operand {w : InstrWord} {b : RegImm} (h : (operandField w).operand = .ok b)
    (hregister : wordField w 12 1 = 0#1) : wordField w 13 3 = 0#3 := by
  by_contra hne
  simp [operandField, hregister, OperandField.operand, hne] at h

/-- The should-be-zero field of the word of an Operate instruction (R90). -/
theorem shouldBeZero_of_spells {f : Fields} {i : Instr} (h : f.Spells i) (hopcode : formatOf f.opcode = some .opr)
    (hregister : wordField f.word 12 1 = 0#1) : wordField f.word 13 3 = 0#3 := by
  have hformat : f.format = .opr := Option.some.inj (h.formatOf_opcode.symm.trans hopcode)
  cases h with
  | oprThree _ hb | oprTwo _ hb | oprOne _ hb =>
    exact shouldBeZero_of_operand (by rwa [operandField_word]) hregister
  | pcd | mem | mfcNone | mfcBase | mfcDest | mbr | bra => cases hformat

theorem formatOf_operateOpcodes : ∀ o ∈ [0x10#6, 0x11#6, 0x12#6, 0x13#6, 0x1c#6], formatOf o = some .opr := by
  decide

/-- Settles O25: by the fields each of the instructions has. -/
theorem malformedFieldsSpellNothing : Obligations.MalformedFieldsSpellNothing := by
  intro w i hdecode
  obtain ⟨f, hspells, rfl⟩ := decodeWord_eq_ok_iff.mp hdecode
  have barriers : i ∈ ([.trapb, .excb, .mb, .wmb] : List Instr) →
      wordField f.word 21 5 = 31#5 ∧ wordField f.word 16 5 = 31#5 := by
    intro hi
    simp only [List.mem_cons, List.not_mem_nil, or_false] at hi
    obtain rfl | rfl | rfl | rfl := hi <;> exact registers_of_mfc_fields hspells fun _ => rfl
  refine ⟨fun hopcode hregister => ?_, fun hi => ?_, fun hi => ?_⟩
  · rw [opcodeField_word] at hopcode
    exact shouldBeZero_of_spells hspells (formatOf_operateOpcodes _ hopcode) hregister
  · obtain ⟨b, d, rfl⟩ | ⟨d, rfl⟩ | ⟨b, d, rfl⟩ | ⟨b, d, rfl⟩ | ⟨b, rfl⟩ | ⟨b, rfl⟩ | hi := hi
    · exact ra_of_opr_fields hspells fun _ => rfl
    · exact ra_of_opr_fields (b := .imm 1) hspells fun _ => rfl
    · exact ra_of_opr_fields hspells fun _ => rfl
    · exact ra_of_opr_fields hspells fun _ => rfl
    · exact (registers_of_mfc_fields hspells fun _ => rfl).1
    · exact (registers_of_mfc_fields hspells fun _ => rfl).1
    · exact (barriers hi).1
  · obtain hi | ⟨d, rfl⟩ := hi
    · exact (barriers hi).2
    · exact (registers_of_mfc_fields hspells fun _ => rfl).2

/-! Reserved words -/

/-- The word of an opcode without a format (R89). -/
theorem decodeWord_of_reservedOpcode {w : InstrWord} (h : formatOf (opcodeField w) = none) :
    decodeWord w = .error .reservedOpcode := by rw [decodeWord, h]

/-- A function code that no Operate row of the opcode has (R89). -/
theorem decodeWord_of_reservedFunction {w : InstrWord} {opcode : BitVec 6} {rows : List (BitVec 7 × OperateRow)}
    {codes : List (BitVec 7)} (hrows : findRow opcode operateRows = some rows)
    (hcodes : rows.map Prod.fst ⊆ codes) (hopcode : opcodeField w = opcode) (hfunc : wordField w 5 7 ∉ codes) :
    decodeWord w = .error .reservedFunction := by
  subst hopcode
  have hnone : findRow (wordField w 5 7) rows = none := findRow_eq_none fun hmem => hfunc (hcodes hmem)
  rw [decodeWord, formatOf_operateRows _ (mem_of_findRow hrows)]
  simp only [splitAs, Fields.instr, hrows, hnone]

/-- A function code that no Memory-function row has (R89). -/
theorem decodeWord_of_reservedMemoryFunction {w : InstrWord} (hopcode : opcodeField w = 0x18#6)
    (hfunc : wordField w 0 16 ∉ functionRows.map Prod.fst) : decodeWord w = .error .reservedFunction := by
  have hformat : formatOf (opcodeField w) = some .mfc := hopcode ▸ rfl
  rw [decodeWord, hformat]
  simp only [splitAs, Fields.instr, findRow_eq_none hfunc]

/-- Settles O24: the opcode has no format, or the function code no row. -/
theorem reservedWordsSpellNothing : Obligations.ReservedWordsSpellNothing := by
  refine fun w => ⟨fun h => ?reserved, decodeWord_of_reservedFunction rfl (by decide),
    decodeWord_of_reservedFunction rfl (by decide), decodeWord_of_reservedFunction rfl (by decide),
    decodeWord_of_reservedFunction rfl (by decide), fun ho h0 h1 => ?sext, fun ho hf => ?memoryFunction⟩
  case reserved =>
    refine decodeWord_of_reservedOpcode ?_
    revert h
    generalize opcodeField w = o
    revert o
    decide
  case sext => exact decodeWord_of_reservedFunction (codes := [0#7, 1#7]) rfl (by decide) ho (by simp [h0, h1])
  case memoryFunction =>
    have hcodes : functionRows.map Prod.fst ⊆ [0x0000#16, 0x0400#16, 0x4000#16, 0x4400#16, 0x8000#16, 0xa000#16,
      0xc000#16] := by decide
    exact decodeWord_of_reservedMemoryFunction ho fun hmem => hf (hcodes hmem)

/-- Settles O26: the decoder runs on each word. -/
theorem sampleWordsDecode : Obligations.SampleWordsDecode :=
  ⟨rfl, rfl, rfl, rfl, rfl, rfl, rfl, rfl⟩

end Sys2Proof
end

section
/-! The fetch of an illegal word (spec/30_encoding.md R89, R90, R92, spec/60_exceptions.md R325). -/

namespace Sys2Proof

/-- A word is put together from its bytes (spec/20_memory.md R43). -/
theorem wordOfBytes_byteOfWord (w : InstrWord) :
    wordOfBytes (byteOfWord w 0) (byteOfWord w 1) (byteOfWord w 2) (byteOfWord w 3) = w := by
  simp only [wordOfBytes, byteOfWord]
  rw [extract_append_extract w 16 8 8, extract_append_extract w 8 8 16]
  exact (extract_append_extract w 0 8 24).trans (extract_all w)

/-- The decoder reads a word from its bytes. -/
theorem decode_bytesOfWord (w : InstrWord) :
    decode (bytesOfWord w) = (decodeWord w).map fun i => (i, []) := by
  simp only [decode, bytesOfWord, wordOfBytes_byteOfWord]
  cases decodeWord w <;> rfl

end Sys2Proof

namespace Sys2Proof.Machine

/-- The bytes at the pc are those of the word at the pc. -/
theorem State.fetchBytes_pc (s : State) : s.fetchBytes s.pc = bytesOfWord s.fetchWord := by
  have hbyte (k : Nat) (hk : k < 4) : s.byteAt (s.pc + BitVec.ofNat 64 k) = byteOfWord s.fetchWord k := by
    rw [← State.memRead_byte s s.pc 4 k (by decide) hk, byteOfWord, State.fetchWord]
    ext j hj
    have : 8 * k + j < 32 := by omega
    simp [this]
  calc s.fetchBytes s.pc
    _ = (List.range 4).map fun k => s.byteAt (s.pc + BitVec.ofNat 64 k) := by
      simp [State.fetchBytes, bytesFrom, List.range_succ, add_assoc]
    _ = (List.range 4).map (byteOfWord s.fetchWord) :=
      List.map_congr_left fun k hk => hbyte k (List.mem_range.mp hk)
    _ = bytesOfWord s.fetchWord := rfl

/-- What is decoded at the pc, by the word there: none of kind B without `BWX` (R79; log 14). -/
theorem State.decodeAtPc_eq (s : State) : s.decodeAtPc = match decodeWord s.fetchWord with
    | .ok i => if i.isMacro s.launch.bwx then .error (.fault (.illegalInstruction s.fetchWord s)) else .ok i
    | .error _ => .error (.fault (.illegalInstruction s.fetchWord s)) := by
  rw [State.decodeAtPc, State.fetchBytes_pc, decode_bytesOfWord]
  cases decodeWord s.fetchWord <;> rfl

/-- Settles O7: either way the word at the pc is no statement. -/
theorem undecodableWordIsIllegal : Obligations.UndecodableWordIsIllegal := by
  intro s hexit hmap hcovers hword
  refine step_of_fetch_fault ?_
  rw [State.fetchStatement_of_word hexit (List.all_eq_true.mpr hmap) hcovers, State.decodeAtPc_eq]
  change (∀ i, decodeWord s.fetchWord ≠ .ok i) ∨ _ at hword
  obtain hnone | ⟨hbwx, r, o, b, v, i, hi, hdecode⟩ := hword
  · cases hdecode : decodeWord s.fetchWord with
    | ok i => exact absurd hdecode (hnone i)
    | error e => rfl
  · have hmacro : i.isMacro s.launch.bwx = true := by
      rw [hbwx]
      fin_cases hi <;> rfl
    have hdecode : decodeWord s.fetchWord = .ok i := hdecode
    simp only [hdecode, hmacro, if_true]
    rfl

end Sys2Proof.Machine
end

section
/-! Branch targets (spec/30_encoding.md R77, R86). -/

namespace Sys2Proof.Machine

/-- The distance in instructions is the distance in bytes over 4, rounded down. -/
theorem State.distance_eq (s : State) (a : Word) : s.distance a = (a - (s.pc + 4#64)).toInt / 4 := by
  rw [State.distance, BitVec.toInt_sshiftRight, Int.shiftRight_eq_div_pow]
  rfl

/-- The distance in bytes between a label and an aligned pc is a multiple of 4 (R24, R77). -/
theorem State.four_dvd_distance {s : State} (hs : s.PcAligned) (l : Label) :
    (4 : Int) ∣ (Config.labelAddr l - (s.pc + 4#64)).toInt := by
  have hl := (aligned_iff_toNat _).mp (labelAddr_aligned l)
  have hpc := (aligned_iff_toNat _).mp hs
  have hdistance : (Config.labelAddr l - (s.pc + 4#64)).toNat % 4 = 0 := by
    rw [BitVec.toNat_sub, BitVec.toNat_add]
    simp only [BitVec.toNat_ofNat]
    omega
  rw [BitVec.toInt_eq_toNat_cond]
  split <;> omega

theorem State.labelInRange_iff {s : State} (hs : s.PcAligned) (l : Label) : s.labelInRange l = true ↔
    -4194304 ≤ (Config.labelAddr l - (s.pc + 4#64)).toInt ∧ (Config.labelAddr l - (s.pc + 4#64)).toInt ≤ 4194300 := by
  have := s.four_dvd_distance hs l
  rw [State.labelInRange, decide_eq_true_eq, State.distance_eq]
  omega

theorem State.target_disp (s : State) (d : BitVec 21) :
    s.target (.disp d) = some (BitVec.ofInt 64 (s.pc.toNat + 4 + 4 * d.toInt)) := by
  rw [State.target, BitVec.ofInt_add, BitVec.ofInt_add, BitVec.ofInt_mul, BitVec.ofInt_natCast, BitVec.ofNat_toNat,
    BitVec.setWidth_eq]
  rfl

/-- A branch to a label out of range is refused (R77). -/
theorem State.condBranch_of_target_none {s : State} {i : Instr} {t : Target} (h : i.WellFormed s.launch.bwx)
    (ht : s.target t = none) (test : Word → Bool) (r : Reg) : s.condBranch i test r t = .refused .labelOutOfRange := by
  rw [State.condBranch, State.guarded_of_wf h, State.toTarget, ht]

theorem State.branch_of_target_none {s : State} {i : Instr} {t : Target} (h : i.WellFormed s.launch.bwx)
    (ht : s.target t = none) (d : Reg) : s.branch i d t = .refused .labelOutOfRange := by
  rw [State.branch, State.guarded_of_wf h, State.toTarget, ht]

/-- Every direct branch is well-formed. -/
theorem Instr.wellFormed_of_target {bwx : Bool} {i : Instr} {t : Target} (hi : i.target? = some t) :
    i.WellFormed bwx := by
  cases i with
  | beq | bne | blt | ble | bgt | bge | blbc | blbs | br | bsr => exact Instr.wellFormed_of_one rfl
  | _ => cases hi

/-- Every direct branch checks the reach of its label before it tests or writes anything (log 25). -/
theorem exec_of_target_none {i : Instr} {s : State} {t : Target} (hi : i.target? = some t) (ht : s.target t = none) :
    exec i s = .refused .labelOutOfRange := by
  have hwf : i.WellFormed s.launch.bwx := Instr.wellFormed_of_target hi
  cases i with
  | beq | bne | blt | ble | bgt | bge | blbc | blbs =>
    obtain rfl := Option.some.inj hi
    exact State.condBranch_of_target_none hwf ht _ _
  | br | bsr =>
    obtain rfl := Option.some.inj hi
    exact State.branch_of_target_none hwf ht _
  | _ => cases hi

/-- Settles O50: the reach of the displacement in bytes, for a label and a pc that are multiples of 4. -/
theorem branchTargets : Obligations.BranchTargets := by
  refine fun s hs => ⟨s.target_disp, fun l hlow hhigh => ?_, fun l hfar i hi => ?_⟩
  · exact if_pos ((s.labelInRange_iff hs l).mpr ⟨hlow, hhigh⟩)
  · refine exec_of_target_none hi (if_neg fun hrange => ?_)
    have := (s.labelInRange_iff hs l).mp hrange
    omega

end Sys2Proof.Machine
end

section
/-! The statement level and the word level agree (spec/30_encoding.md R79, R80, R86): a statement that is one machine
instruction and its machine form end alike, so that only their operands have to be compared. -/

namespace Sys2Proof.Machine

/-! Statements of one machine instruction -/

section
variable {s : State} {i j : Instr}

/-- The end of one machine instruction: it destroys nothing and the next word follows (spec/10_state.md R25). -/
theorem State.finish_of_one (h : i.isMacro s.launch.bwx = false) : s.finish i = .next (s.setPc (s.pc + 4#64)) := by
  rw [State.finish, State.advance, State.npc_clobberTemps, State.npc_of_one s i h, State.clobberTemps,
    Instr.temporaries_of_one h]
  rfl

/-- Two well-formed statements of one machine instruction, which therefore end alike. -/
structure BothOneWord (s : State) (i j : Instr) : Prop where
  one : i.isMacro s.launch.bwx = false
  one' : j.isMacro s.launch.bwx = false
  wellFormed : i.WellFormed s.launch.bwx
  wellFormed' : j.WellFormed s.launch.bwx

theorem BothOneWord.finish_eq (h : BothOneWord s i j) : s.finish i = s.finish j := by
  rw [State.finish_of_one h.one, State.finish_of_one h.one']

theorem BothOneWord.npc_eq (h : BothOneWord s i j) : s.npc i = s.npc j := by
  rw [s.npc_of_one i h.one, s.npc_of_one j h.one']

theorem BothOneWord.setX (h : BothOneWord s i j) (d : Reg) (v : Word) : BothOneWord (s.setX d v) i j := by
  constructor <;> rw [State.setX_launch]
  exacts [h.one, h.one', h.wellFormed, h.wellFormed']

theorem BothOneWord.put_eq (h : BothOneWord s i j) {d : Reg} {v v' : Word} (hv : v = v') :
    s.put i d v = s.put j d v' := by
  rw [State.put, State.put, State.guarded_of_wf h.wellFormed, State.guarded_of_wf h.wellFormed', hv,
    (h.setX d v').finish_eq]

theorem BothOneWord.putTrap_eq (h : BothOneWord s i j) {d : Reg} {wrap : Int → Word} {overflows : Int → Bool}
    {v v' : Int} (hv : v = v') : s.putTrap i d wrap overflows v = s.putTrap j d wrap overflows v' := by
  have htemps : (s.setX d (wrap v')).clobberTemps i = (s.setX d (wrap v')).clobberTemps j := by
    rw [State.clobberTemps, State.clobberTemps, Instr.temporaries_of_one (h.setX _ _).one,
      Instr.temporaries_of_one (h.setX _ _).one']
  rw [State.putTrap, State.putTrap, State.guarded_of_wf h.wellFormed, State.guarded_of_wf h.wellFormed', hv, htemps,
    (h.setX d _).finish_eq]

theorem BothOneWord.condBranch_eq (h : BothOneWord s i j) {test : Word → Bool} {r : Reg} {t t' : Target}
    (ht : s.target t = s.target t') : s.condBranch i test r t = s.condBranch j test r t' := by
  rw [State.condBranch, State.condBranch, State.guarded_of_wf h.wellFormed, State.guarded_of_wf h.wellFormed',
    State.toTarget, State.toTarget, ht, h.finish_eq]

theorem BothOneWord.branch_eq (h : BothOneWord s i j) {d : Reg} {t t' : Target} (ht : s.target t = s.target t') :
    s.branch i d t = s.branch j d t' := by
  rw [State.branch, State.branch, State.guarded_of_wf h.wellFormed, State.guarded_of_wf h.wellFormed',
    State.toTarget, State.toTarget, ht, h.npc_eq]

theorem BothOneWord.jump_eq (h : BothOneWord s i j) {d r : Reg} : s.jump i d r = s.jump j d r := by
  rw [State.jump, State.jump, State.guarded_of_wf h.wellFormed, State.guarded_of_wf h.wellFormed', h.npc_eq]

end

/-! A label and its displacement -/

/-- The displacement of a label is its distance, where that is in reach (R86). -/
theorem labelDisp_eq (s : State) (l : Label) : labelDisp s.pc l =
    if s.labelInRange l then some (BitVec.ofInt 21 (s.distance (Config.labelAddr l))) else none := by
  simp [labelDisp, State.labelInRange, State.distance]

/-- From an aligned pc the displacement of a label leads to the label. -/
theorem State.target_disp_of_label {s : State} (hs : s.PcAligned) {l : Label} (hl : s.labelInRange l = true) :
    s.target (.disp (BitVec.ofInt 21 (s.distance (Config.labelAddr l)))) = some (Config.labelAddr l) := by
  obtain ⟨hlow, hhigh⟩ := of_decide_eq_true hl
  have hdisp : (BitVec.ofInt 21 (s.distance (Config.labelAddr l))).toInt = s.distance (Config.labelAddr l) := by
    rw [BitVec.toInt_ofInt, Int.bmod_eq_of_le (by omega) (by omega)]
  have hbytes : 4 * s.distance (Config.labelAddr l) = (Config.labelAddr l - (s.pc + 4#64)).toInt := by
    rw [State.distance_eq, Int.mul_ediv_cancel' (s.four_dvd_distance hs l)]
  rw [State.target_disp, hdisp, hbytes, BitVec.ofInt_add, BitVec.ofInt_add, BitVec.ofInt_natCast, BitVec.ofNat_toNat,
    BitVec.setWidth_eq, BitVec.ofInt_toInt, Option.some.injEq]
  exact add_sub_cancel (s.pc + 4#64) _

/-- A target and its resolution are the same address. -/
theorem State.target_resolved {s : State} (hs : s.PcAligned) (t : Target) :
    s.target t = s.target (t.resolved s.pc) := by
  cases t with
  | disp d => rfl
  | label l =>
    rw [Target.resolved, labelDisp_eq]
    split
    · rename_i hl
      exact (if_pos hl).trans (State.target_disp_of_label hs hl).symm
    · rfl

/-! Pseudo-instructions -/

/-- The literal form of `mov` (R80). -/
theorem machineForm_mov_of_literal {pc : Word} {v : Int} {d : Reg} (h : 0 ≤ v ∧ v ≤ 255) :
    (Instr.mov (.imm v) d).machineForm pc = .bis 31 (.imm v) d := if_pos h

/-- The other form of `mov`, by its displacement (R80, R221). -/
theorem machineForm_mov_of_not_literal {pc : Word} {v : Int} {d : Reg} (h : ¬ (0 ≤ v ∧ v ≤ 255)) :
    (Instr.mov (.imm v) d).machineForm pc = .lda d (.base v 31) := if_neg h

theorem offset_of_mov_one {bwx : Bool} {v : Int} {d : Reg} (h : (Instr.mov (.imm v) d).isMacro bwx = false) :
    -32768 ≤ v ∧ v ≤ 32767 := by
  have := of_decide_eq_false h
  omega

/-- The machine form of a branch is the branch to the resolved target. -/
theorem machineForm_branch {mk : Reg → Target → Instr}
    (hmk : mk ∈ ([.beq, .bne, .blt, .ble, .bgt, .bge, .blbc, .blbs, .br, .bsr] : List (Reg → Target → Instr)))
    (pc : Word) (r : Reg) (t : Target) : (mk r t).machineForm pc = mk r (t.resolved pc) := by
  fin_cases hmk <;> cases t <;> rfl

/-- The machine form of one machine instruction is one machine instruction. -/
theorem bothOneWord_machineForm {s : State} {i : Instr} (h : i.isMacro s.launch.bwx = false)
    (hwf : i.WellFormed s.launch.bwx) : BothOneWord s i (i.machineForm s.pc) := by
  suffices hform : (i.machineForm s.pc).isMacro s.launch.bwx = false ∧ (i.machineForm s.pc).WellFormed s.launch.bwx from
    ⟨h, hform.1, hwf, hform.2⟩
  cases i with
  | or a b c | andnot a b c | xornot a b c | not b d | negl b d | neglv b d | negq b d | negqv b d | sextl b d =>
    exact ⟨h, Instr.wellFormed_of_one h⟩
  | clr | nop | unop => exact ⟨rfl, Instr.wellFormed_of_one rfl⟩
  | mov b d =>
    cases b with
    | reg r => exact ⟨rfl, Instr.wellFormed_of_one rfl⟩
    | imm v =>
      by_cases hliteral : 0 ≤ v ∧ v ≤ 255
      · have hnarrow : (RegImm.imm v).wide = false := decide_eq_false (by omega)
        rw [machineForm_mov_of_literal hliteral]
        exact ⟨hnarrow, Instr.wellFormed_of_one hnarrow⟩
      · rw [machineForm_mov_of_not_literal hliteral]
        exact ⟨rfl, Instr.wellFormed_of_one rfl (decide_eq_true (offset_of_mov_one h))⟩
  | beq r t | bne r t | blt r t | ble r t | bgt r t | bge r t | blbc r t | blbs r t | br r t | bsr r t =>
    rw [machineForm_branch (by simp)]
    exact ⟨rfl, Instr.wellFormed_of_one rfl⟩
  | jmp d j | jsr d j =>
    cases j with
    | reg r hint => exact ⟨rfl, Instr.wellFormed_of_one rfl⟩
    | symbolic e => exact ⟨h, hwf⟩
  | _ => exact ⟨h, hwf⟩

/-- `mov` is `bis` or `lda`, by its operand (R80, R221). -/
theorem exec_mov_machineForm {b : RegImm} {d : Reg} {s : State} (h : (Instr.mov b d).isMacro s.launch.bwx = false) :
    exec (.mov b d) s = exec ((Instr.mov b d).machineForm s.pc) s := by
  have hboth := bothOneWord_machineForm h (Instr.wellFormed_of_one h)
  cases b with
  | reg r => exact hboth.put_eq (BitVec.zero_or).symm
  | imm v =>
    by_cases hliteral : 0 ≤ v ∧ v ≤ 255
    · rw [machineForm_mov_of_literal hliteral] at hboth ⊢
      exact hboth.put_eq (BitVec.zero_or).symm
    · rw [machineForm_mov_of_not_literal hliteral] at hboth ⊢
      have hvalue : BitVec.ofInt 64 v = 0#64 + offsetValue v := by
        obtain ⟨hlow, hhigh⟩ := offset_of_mov_one h
        rw [offsetValue_eq_ofInt hlow hhigh, BitVec.zero_add]
      exact hboth.put_eq hvalue

/-- Settles O27: the operands agree, and both are one machine instruction. -/
theorem pseudoInstructionsAreTheirExpansions : Obligations.PseudoInstructionsAreTheirExpansions := by
  intro i s hs h
  have hboth := bothOneWord_machineForm (s := s) h
  cases i with
  | or a b c | andnot a b c | xornot a b c => exact (hboth (Instr.wellFormed_of_one h)).put_eq rfl
  | clr d => exact (hboth (Instr.wellFormed_of_one h)).put_eq (BitVec.zero_or (x := 0#64)).symm
  | mov b d => exact exec_mov_machineForm h
  | not b d => exact (hboth (Instr.wellFormed_of_one h)).put_eq (BitVec.zero_or).symm
  | negl b d | negq b d => exact (hboth (Instr.wellFormed_of_one h)).put_eq rfl
  | neglv b d | negqv b d => exact (hboth (Instr.wellFormed_of_one h)).putTrap_eq (zero_sub _).symm
  | sextl b d => exact (hboth (Instr.wellFormed_of_one h)).put_eq (congrArg fromLow32 (BitVec.zero_add _).symm)
  | nop => exact (hboth (Instr.wellFormed_of_one h)).put_eq (d := 31) (BitVec.zero_or (x := 0#64)).symm
  | unop => exact (hboth (Instr.wellFormed_of_one h)).finish_eq
  | beq r t | bne r t | blt r t | ble r t | bgt r t | bge r t | blbc r t | blbs r t =>
    rw [machineForm_branch (by simp)] at hboth ⊢
    exact (hboth (Instr.wellFormed_of_one h)).condBranch_eq (State.target_resolved hs t)
  | br d t | bsr d t =>
    rw [machineForm_branch (by simp)] at hboth ⊢
    exact (hboth (Instr.wellFormed_of_one h)).branch_eq (State.target_resolved hs t)
  | jmp d j | jsr d j =>
    cases j with
    | reg r hint => exact (hboth (Instr.wellFormed_of_one h)).jump_eq
    | symbolic e => rfl
  | _ => rfl

end Sys2Proof.Machine
end

section
/-! Which registers a statement changes (spec/10_state.md R20, R21, spec/30_encoding.md R81), and the cycle counter
(log 21): a case per form. -/

namespace Sys2Proof.Machine

/-! Registers -/

/-- A statement that ends destroys its temporaries alone (R81). -/
theorem State.x_finish {s u : State} {i : Instr} {r : Reg} (hu : u.launch = s.launch)
    (hr : r ∉ i.temporaries s.launch.bwx) : ((u.clobberTemps i).advance i).x r = u.x r := by
  rw [State.x_advance, State.x_clobberTemps_of_notMem _ _ _ (by rwa [hu])]

/-- A write to a register the statement names leaves any other register alone. -/
theorem State.x_setX_of_named (s : State) {i : Instr} {d r : Reg} (hd : d ∈ i.registers) (hr : r ∉ i.registers)
    (v : Word) : (s.setX d v).x r = s.x r := s.x_setX_of_ne v fun e => hr (e ▸ hd)

/-- The register is one the statement may change though it does not name it: `$27` after a symbolic jump (R247). -/
def Instr.linksThrough (i : Instr) (r : Reg) : Prop :=
  r = 27 ∧ ∃ d e, i = .jmp d (.symbolic e) ∨ i = .jsr d (.symbolic e)

section
variable {i : Instr} {s t : State} {o : Outcome}

/-- A register that the statement neither names nor destroys keeps its value: one case per form. -/
theorem Shape.x_eq {r : Reg} (shape : Shape i s o) (h : o = .next t) (hpal : ∀ n, i ≠ .callPal n)
    (hnamed : r ∉ i.registers) (htemp : r ∉ i.temporaries s.launch.bwx) (hlink : ¬ Instr.linksThrough i r) :
    t.x r = s.x r := by
  have hset (u : State) {d : Reg} (hd : d ∈ i.registers) (v : Word) : (u.setX d v).x r = u.x r :=
    u.x_setX_of_named hd hnamed v
  have hput {d : Reg} (hd : d ∈ i.registers) (v : Word) : (((s.setX d v).clobberTemps i).advance i).x r = s.x r := by
    rw [State.x_finish (by simp) htemp, hset _ hd]
  have hend : ((s.clobberTemps i).advance i).x r = s.x r := State.x_finish rfl htemp
  cases shape with
  | put _ _ hd => obtain ⟨_, rfl⟩ := State.put_next h; exact hput hd _
  | putTrap _ _ _ _ hd => obtain ⟨_, _, rfl⟩ := State.putTrap_next h; exact hput hd _
  | absolute _ _ _ _ hd => obtain ⟨_, _, rfl⟩ := State.absolute_next h; exact hput hd _
  | divide _ _ _ hd =>
    obtain ⟨_, _, ⟨_, _, rfl⟩ | ⟨_, rfl⟩⟩ := State.divide_next h
    · exact hput hd _
    · rw [State.x_finish (by simp) htemp, State.x_drew, hset _ hd]
  | condMove _ _ _ _ hc =>
    obtain ⟨_, ⟨_, rfl⟩ | ⟨_, rfl⟩⟩ := State.condMove_next h
    · exact hput hc _
    · exact hend
  | load _ _ _ _ hd => obtain ⟨_, _, _, rfl⟩ := State.load_next h; exact hput hd _
  | loadLocked _ _ _ _ hd =>
    obtain ⟨_, _, _, rfl⟩ := State.loadLocked_next h
    rw [State.x_finish (by simp) htemp, State.x_setLock, hset _ hd]
  | store =>
    obtain ⟨_, _, _, _, rfl⟩ := State.store_next h
    rw [State.x_finish (by simp) htemp, State.x_memWrite]
  | storeConditional f _ a hr =>
    have drawn := SameOutsideMemory.ite_drew (c := s.outsideLock (s.ea a)) (s := s)
    obtain ⟨_, _, _, ⟨_, _, rfl⟩ | ⟨_, rfl⟩⟩ := State.storeConditional_next h
    · rw [State.x_finish (by simp [drawn.launch]) htemp, State.x_clearLock, hset _ hr, State.x_memWrite,
        State.x_congr drawn.regs]
    · rw [State.x_finish (by simp [drawn.launch]) htemp, State.x_clearLock, hset _ hr, State.x_congr drawn.regs]
  | condBranch =>
    obtain ⟨_, _, _, ⟨_, _, rfl⟩ | ⟨_, rfl⟩⟩ := State.condBranch_next h
    · exact State.x_setPc _ _ _
    · exact hend
  | branch _ _ hd => obtain ⟨_, _, _, _, rfl⟩ := State.branch_next h; rw [State.x_setPc, hset _ hd]
  | jump _ _ hd => obtain ⟨_, rfl⟩ := State.jump_next h; rw [State.x_setPc, hset _ hd]
  | jumpSymbolic d e hd _ hi =>
    obtain ⟨_, rfl⟩ := State.jumpSymbolic_next h
    have hr : r ≠ regT12 := fun hr => hlink ⟨hr, d, e, hi⟩
    rw [State.x_setPc, hset _ hd, State.x_clobberTemps_of_notMem _ _ _ (by simpa using htemp),
      State.x_setX_of_ne _ _ hr]
  | ldgp _ _ _ hi => subst hi; obtain ⟨_, _, rfl⟩ := execLdgp_next h; exact hput List.mem_cons_self _
  | callPal _ hi => exact absurd hi (hpal _)
  | rpcc _ hi =>
    subst hi
    obtain ⟨_, rfl⟩ := execRpcc_next h
    rw [State.x_finish (by simp) htemp, hset _ List.mem_cons_self, State.x_readCounter]
  | finish => obtain rfl := State.finish_next h; exact hend
  | idle => obtain rfl := State.finish_next (State.guarded_next h).2; exact hend

/-! The cycle counter -/

/-- No form but that of `rpcc` touches the cycle counter. -/
theorem Shape.cycleCounter_eq (shape : Shape i s o) (h : o = .next t) (hi : ∀ d, i ≠ .rpcc d) :
    t.cycleCounter = s.cycleCounter := by
  cases shape with
  | put => obtain ⟨_, rfl⟩ := State.put_next h; simp
  | putTrap => obtain ⟨_, _, rfl⟩ := State.putTrap_next h; simp
  | absolute => obtain ⟨_, _, rfl⟩ := State.absolute_next h; simp
  | divide => obtain ⟨_, _, ⟨_, _, rfl⟩ | ⟨_, rfl⟩⟩ := State.divide_next h <;> simp
  | condMove => obtain ⟨_, ⟨_, rfl⟩ | ⟨_, rfl⟩⟩ := State.condMove_next h <;> simp
  | load => obtain ⟨_, _, _, rfl⟩ := State.load_next h; simp
  | loadLocked => obtain ⟨_, _, _, rfl⟩ := State.loadLocked_next h; simp
  | store => obtain ⟨_, _, _, _, rfl⟩ := State.store_next h; simp
  | storeConditional f _ a =>
    have drawn := SameOutsideMemory.ite_drew (c := s.outsideLock (s.ea a)) (s := s)
    obtain ⟨_, _, _, ⟨_, _, rfl⟩ | ⟨_, rfl⟩⟩ := State.storeConditional_next h <;> simp [drawn.cycleCounter]
  | condBranch => obtain ⟨_, _, _, ⟨_, _, rfl⟩ | ⟨_, rfl⟩⟩ := State.condBranch_next h <;> simp
  | branch => obtain ⟨_, _, _, _, rfl⟩ := State.branch_next h; simp
  | jump => obtain ⟨_, rfl⟩ := State.jump_next h; simp
  | jumpSymbolic => obtain ⟨_, rfl⟩ := State.jumpSymbolic_next h; simp
  | ldgp => obtain ⟨_, _, rfl⟩ := execLdgp_next h; simp
  | callPal => obtain ⟨_, rfl⟩ := execCallPal_next h; simp
  | rpcc _ hi' => exact absurd hi' (hi _)
  | finish => obtain rfl := State.finish_next h; simp
  | idle => obtain rfl := State.finish_next (State.guarded_next h).2; simp

end

/-- Settles O10: by the forms of `exec_shape`. -/
theorem onlyNamedRegistersChange : Obligations.OnlyNamedRegistersChange := by
  refine fun i s t hexec => ⟨fun hpal r hnamed htemp h27 => ?_, (exec_shape i s).cycleCounter_eq hexec⟩
  refine (exec_shape i s).x_eq hexec hpal hnamed htemp ?_
  rintro ⟨hr, d, e, hi | hi⟩
  · exact (h27 hr d e).1 hi
  · exact (h27 hr d e).2 hi

end Sys2Proof.Machine
end

section
/-! Accesses to memory that is not mapped (spec/20_memory.md R47, R49, spec/60_exceptions.md R325, R328). -/

namespace Sys2Proof.Machine

/-- The statement is an access of the form, whatever it does with the bytes. -/
def Accesses (i : Instr) (s : State) (a : Address) (f : AccessForm) (kinds : List AccessKind) : Prop :=
  ∃ run, exec i s = s.guarded i (s.access i f kinds (s.ea a) run)

/-- Alignment and admission are checked before anything else is done: a byte that is not mapped raises (R47). -/
theorem Accesses.violates {i : Instr} {s : State} {a : Address} {f : AccessForm} {kinds : List AccessKind}
    (h : Accesses i s a f kinds) (hwf : i.WellFormed s.launch.bwx)
    (haligned : f.aligned = true → (s.ea a).toNat % f.size = 0) {kind : AccessKind} (hkind : kind ∈ kinds)
    (hmap : ¬ s.MapsAll kind (f.touched (s.ea a))) :
    ∃ u, exec i s = .fault (.accessViolation (s.ea a) u) ∧ u.pc = s.pc ∧ WroteNothing i s u := by
  obtain ⟨run, hexec⟩ := h
  have hmis : f.misaligned (s.ea a) = false := by simpa [AccessForm.misaligned] using haligned
  have hadmits : ¬ (kinds.all fun kind => s.admits kind f (s.ea a)) = true := fun hall =>
    hmap (List.all_eq_true.mp (List.all_eq_true.mp hall kind hkind))
  refine ⟨s.clobberTemps i, ?_, by simp, .clobberTemps i s⟩
  rw [hexec, State.guarded_of_wf hwf, State.access, hmis, if_neg Bool.false_ne_true, if_neg hadmits, State.raise]

/-- A mnemonic whose access form may depend on `BWX`: of the kinds of access it needs, those that are spoken of. -/
theorem Violates.of_accesses {mk : Reg → Address → Instr} {aligned : Word → Prop} {kinds : List AccessKind}
    {touched : State → Word → List Word} (form : Bool → AccessForm) (needs : Bool → List AccessKind)
    (hexec : ∀ r a s, Accesses (mk r a) s a (form s.launch.bwx) (needs s.launch.bwx))
    (hkinds : ∀ bwx, kinds ⊆ needs bwx)
    (haligned : ∀ bwx ea, aligned ea → (form bwx).aligned = true → ea.toNat % (form bwx).size = 0)
    (htouched : ∀ s ea, (form s.launch.bwx).touched ea = touched s ea) : Violates mk aligned kinds touched := by
  rintro r a s hwf ha ⟨kind, hkind, hmap⟩
  exact (hexec r a s).violates hwf (haligned _ _ ha) (hkinds _ hkind) (by rwa [htouched])

/-! The forms that do not depend on `BWX` -/

section
variable {mk : Reg → Address → Instr} {n : Nat} {kinds : List AccessKind}

theorem Violates.natural (hexec : ∀ r a s, Accesses (mk r a) s a (.natural n) kinds) :
    Violates mk (fun ea => ea.toNat % n = 0) kinds fun _ ea => bytesFrom ea n :=
  .of_accesses (fun _ => .natural n) (fun _ => kinds) hexec (fun _ => List.Subset.refl _) (fun _ _ h _ => h)
    fun _ _ => rfl

theorem Violates.unaligned (hexec : ∀ r a s, Accesses (mk r a) s a (.unaligned n) kinds) :
    Violates mk (fun _ => True) kinds fun _ ea => quadBytes ea n :=
  .of_accesses (fun _ => .unaligned n) (fun _ => kinds) hexec (fun _ => List.Subset.refl _)
    (by simp [AccessForm.unaligned]) fun _ _ => rfl

end

/-! The forms that are whole quadwords without `BWX` -/

theorem AccessForm.byteAccess_touched (bwx : Bool) (ea : Word) :
    (AccessForm.byteAccess !bwx).touched ea = if bwx then bytesFrom ea 1 else quadBytes ea 1 := by
  cases bwx <;> rfl

theorem AccessForm.wordAccess_touched (bwx : Bool) (ea : Word) :
    (AccessForm.wordAccess !bwx).touched ea = if bwx then bytesFrom ea 2 else quadBytes ea 2 := by
  cases bwx <;> rfl

/-- Every store writes. -/
theorem AccessForm.write_mem_storeKinds (f : AccessForm) : AccessKind.write ∈ f.storeKinds := by
  unfold AccessForm.storeKinds
  split <;> simp

/-- `ldq_u` is an access but for the form that is `unop` (R302; log 13). -/
theorem accesses_ldqU {d : Reg} {a : Address} {s : State} (h : ¬ (d = 31 ∧ a = .base 0 30)) :
    Accesses (.ldqU d a) s a .quadAround [.read] :=
  ⟨_, if_neg (by simpa [isUnop] using h)⟩

/-- Settles O36: every mnemonic by its access form. -/
theorem unmappedAccessRaises : Obligations.UnmappedAccessRaises := by
  refine ⟨fun mk hmk => ?ldl, fun mk hmk => ?ldq, fun mk hmk => ?stl, fun mk hmk => ?stq, ?stqU, ?ldb, ?ldw, ?ldbu, ?ldwu,
    ?stb, ?stw, fun p hp => ?uld, fun p hp => ?ust, fun p hp => ?quadStore, fun d a s hne hwf hmap => ?ldqU⟩
  case ldl | ldq | stl | stq => fin_cases hmk <;> exact .natural fun _ _ _ => ⟨_, rfl⟩
  case uld | ust => fin_cases hp <;> exact .unaligned fun _ _ _ => ⟨_, rfl⟩
  case stqU =>
    exact .of_accesses (fun _ => .quadAround) (fun _ => [.write]) (fun _ _ _ => ⟨_, rfl⟩) (fun _ => List.Subset.refl _)
      (by simp [AccessForm.quadAround]) fun _ _ => rfl
  case ldb =>
    exact .of_accesses (fun _ => .byteAccess true) (fun _ => [.read]) (fun _ _ _ => ⟨_, rfl⟩)
      (fun _ => List.Subset.refl _) (by simp [AccessForm.byteAccess]) fun _ _ => rfl
  case ldw =>
    exact .of_accesses (fun _ => .wordAccess true) (fun _ => [.read]) (fun _ _ _ => ⟨_, rfl⟩)
      (fun _ => List.Subset.refl _) (fun _ _ h _ => h) fun _ _ => rfl
  case ldbu =>
    exact .of_accesses (fun bwx => .byteAccess !bwx) (fun _ => [.read]) (fun _ _ _ => ⟨_, rfl⟩)
      (fun _ => List.Subset.refl _) (by simp [AccessForm.byteAccess]) fun _ => AccessForm.byteAccess_touched _
  case ldwu =>
    exact .of_accesses (fun bwx => .wordAccess !bwx) (fun _ => [.read]) (fun _ _ _ => ⟨_, rfl⟩)
      (fun _ => List.Subset.refl _) (fun _ _ h _ => h) fun _ => AccessForm.wordAccess_touched _
  case stb =>
    exact .of_accesses (fun bwx => .byteAccess !bwx) (fun bwx => (AccessForm.byteAccess !bwx).storeKinds)
      (fun _ _ _ => ⟨_, rfl⟩) (fun _ => by simp [AccessForm.write_mem_storeKinds])
      (by simp [AccessForm.byteAccess]) fun _ => AccessForm.byteAccess_touched _
  case stw =>
    exact .of_accesses (fun bwx => .wordAccess !bwx) (fun bwx => (AccessForm.wordAccess !bwx).storeKinds)
      (fun _ _ _ => ⟨_, rfl⟩) (fun _ => by simp [AccessForm.write_mem_storeKinds])
      (fun _ _ h _ => h) fun _ => AccessForm.wordAccess_touched _
  case quadStore =>
    intro r a s hbwx hwf haligned hmap
    fin_cases hp
    · refine Accesses.violates (f := .byteAccess !s.launch.bwx) (kind := .read) ⟨_, rfl⟩ hwf (fun _ => haligned) ?_ ?_
      · simp [AccessForm.storeKinds, AccessForm.byteAccess, hbwx]
      · rwa [AccessForm.byteAccess_touched, hbwx]
    · refine Accesses.violates (f := .wordAccess !s.launch.bwx) (kind := .read) ⟨_, rfl⟩ hwf (fun _ => haligned) ?_ ?_
      · simp [AccessForm.storeKinds, AccessForm.wordAccess, hbwx]
      · rwa [AccessForm.wordAccess_touched, hbwx]
  case ldqU =>
    exact (accesses_ldqU hne).violates hwf (by simp [AccessForm.quadAround]) (List.mem_singleton_self _) hmap

end Sys2Proof.Machine
end

section
/-! The temporaries of every statement (spec/30_encoding.md R73, R75, R81; log 17). -/

namespace Sys2Proof

/-- The temporaries are those of the statement's own expansion, and `AT` where an operand needs it (R73, R75). -/
theorem Instr.temporaries_of_own_nil {bwx : Bool} {i : Instr} (h : i.ownTemporaries bwx = []) :
    i.temporaries bwx = if i.operandNeedsAT then [regAT] else [] := by
  cases hAT : i.operandNeedsAT <;> simp [Instr.temporaries, hAT, h]

/-- An expansion that destroys `AT` anyway destroys the same for every operand (R81). -/
theorem Instr.temporaries_of_own_cons {bwx : Bool} {i : Instr} {l : List Reg} (h : i.ownTemporaries bwx = regAT :: l) :
    i.temporaries bwx = regAT :: l := by
  simp [Instr.temporaries, h]

/-- The immediate that needs `AT` (R75). -/
theorem ite_wide_imm (v : Int) :
    (if (RegImm.imm v).wide then [regAT] else []) = if 0 ≤ v ∧ v ≤ 255 then [] else [28] := by
  by_cases h : 0 ≤ v ∧ v ≤ 255
  · rw [if_pos h, if_neg]
    simp only [RegImm.wide, decide_eq_true_eq]
    omega
  · rw [if_neg h, if_pos]
    · rfl
    · simp only [RegImm.wide, decide_eq_true_eq]
      omega

/-- Settles O17: a case per row of the table; `AT` comes of the operand, and of the expansion. -/
theorem temporariesAreThoseOfTheTable : Obligations.TemporariesAreThoseOfTheTable := by
  intro bwx d b o e a
  refine ⟨Instr.temporaries_of_own_cons rfl, Instr.temporaries_of_own_cons rfl, fun p hp => ?kindB, fun mk hmk => ?uld,
    fun mk hmk => ?ust, fun mk hmk v => ?divide, fun mk hmk v => ?absolute, fun mk hmk => ?memory, fun mk hmk => ?jump,
    fun mk hmk => ?three, fun mk hmk => ?two, fun v n p t h i hi => ?none⟩
  case kindB => fin_cases hp <;> cases bwx <;> exact ⟨rfl, rfl⟩
  case uld | ust | divide | absolute => fin_cases hmk <;> exact Instr.temporaries_of_own_cons rfl
  case memory => fin_cases hmk <;> exact ⟨rfl, rfl⟩
  case jump => fin_cases hmk <;> exact ⟨fun _ => rfl, rfl⟩
  case three | two =>
    fin_cases hmk <;> exact ⟨fun _ => rfl, fun v => (Instr.temporaries_of_own_nil rfl).trans (ite_wide_imm v)⟩
  case none => fin_cases hi <;> rfl

end Sys2Proof
end

section
/-! Loads and stores that complete (spec/40_load_store.md sections 1 and 2): the bytes of R44 move where alignment and
admission (R45 to R49) allow it, and nothing else changes. -/

namespace Sys2Proof.Machine

/-! What each form of load asks of an address -/

theorem AccessForm.unaligned_allowed_load {n : Nat} {s : State} {ea : Word} :
    (AccessForm.unaligned n).Allowed [.read] s ea ↔ s.MapsAll .read (quadBytes ea n) := by
  simp [AccessForm.Allowed, AccessForm.unaligned, AccessForm.touched]

theorem AccessForm.byteAccess_allowed_load {bwx : Bool} {s : State} {ea : Word} :
    (AccessForm.byteAccess !bwx).Allowed [.read] s ea ↔
      s.MapsAll .read (if bwx then bytesFrom ea 1 else quadBytes ea 1) := by
  rw [← AccessForm.byteAccess_touched]
  simp [AccessForm.Allowed, AccessForm.byteAccess]

theorem AccessForm.wordAccess_allowed_load {bwx : Bool} {s : State} {ea : Word} :
    (AccessForm.wordAccess !bwx).Allowed [.read] s ea ↔
      ea.toNat % 2 = 0 ∧ s.MapsAll .read (if bwx then bytesFrom ea 2 else quadBytes ea 2) := by
  rw [← AccessForm.wordAccess_touched]
  simp [AccessForm.Allowed, AccessForm.wordAccess]

/-! What an allowed access passes -/

section
variable {f : AccessForm} {kinds : List AccessKind} {s : State} {ea : Word}

theorem AccessForm.Allowed.misaligned_eq_false (h : f.Allowed kinds s ea) : f.misaligned ea = false := by
  simpa [AccessForm.misaligned] using h.1

theorem AccessForm.Allowed.admits (h : f.Allowed kinds s ea) {kind : AccessKind} (hk : kind ∈ kinds) :
    s.admits kind f ea = true :=
  List.all_eq_true.mpr (h.2 kind hk)

end

/-! Loads -/

/-- The mnemonic loads by a form which may depend on `BWX`, into the register it names first. -/
def LoadsBy (mk : Reg → Address → Instr) (form : Bool → AccessForm) (ext : Extension) : Prop :=
  ∀ (d : Reg) (a : Address) (s : State), d ∈ (mk d a).registers ∧
    exec (mk d a) s = s.load (mk d a) (form s.launch.bwx) ext d a

/-- An allowed load completes with the value its form delivers (spec/20_memory.md R44). -/
theorem State.load_of_allowed {s : State} {i : Instr} {f : AccessForm} {d : Reg} {a : Address} (ext : Extension)
    (h : i.WellFormed s.launch.bwx) (hd : d ∈ i.registers) (ha : f.Allowed [.read] s (s.ea a)) :
    ∃ t, s.load i f ext d a = .next t ∧ t.pc = s.npc i ∧ WroteReg i d (s.loaded f ext (s.ea a)) s t :=
  State.load_spec f ext d a h hd ha.misaligned_eq_false (ha.admits (List.mem_singleton_self _))

/-- A mnemonic that loads by its form, at addresses that are good for the form. -/
theorem LoadsBy.loads {mk : Reg → Address → Instr} {form : Bool → AccessForm} {ext : Extension}
    {good : State → Word → Prop} {value : State → Word → Word} (h : LoadsBy mk form ext)
    (hgood : ∀ s ea, good s ea → (form s.launch.bwx).Allowed [.read] s ea)
    (hvalue : ∀ s ea, s.loaded (form s.launch.bwx) ext ea = value s ea) : Loads mk good value := by
  intro d a s hwf hg
  obtain ⟨hd, hexec⟩ := h d a s
  rw [Writes, hexec, ← hvalue]
  exact State.load_of_allowed ext hwf hd (hgood s _ hg)

/-- The form of `ldq_u` that is `unop` (log 13) writes to `$31`, which changes nothing whatever the value (R21). -/
theorem writes_ldqU_unop (s : State) (v : Word) : Writes (.ldqU 31 (.base 0 30)) s 31 v :=
  s.finish_setX_spec (.ldqU 31 (.base 0 30)) 31 v
    (Instr.notMem_temporaries (Instr.wellFormed_of_one rfl) List.mem_cons_self)

/-- `ldq_u` reads the aligned quadword around any address (R48, R110). -/
theorem loads_ldqU : Loads .ldqU (fun s ea => s.MapsAll .read (bytesFrom (ea &&& ~~~7#64) 8))
    fun s ea => s.memRead (ea &&& ~~~7#64) 8 := by
  intro d a s hwf hmapped
  by_cases hunop : d = 31 ∧ a = .base 0 30
  · obtain ⟨rfl, rfl⟩ := hunop
    exact writes_ldqU_unop s _
  · have hexec : exec (.ldqU d a) s = s.load (.ldqU d a) .quadAround .unsigned d a :=
      if_neg (by simpa [isUnop] using hunop)
    rw [Writes, hexec]
    exact State.load_of_allowed .unsigned hwf List.mem_cons_self (AccessForm.quadAround_allowed.mpr hmapped)

/-- Settles O28: `ldl` and `ldq` by their natural form, `ldq_u` with its form that is `unop`. -/
theorem machineLoads : Obligations.MachineLoads := by
  refine ⟨?ldl, ?ldq, loads_ldqU⟩
  case ldl =>
    have hload : LoadsBy .ldl (fun _ => .natural 4) .signed := fun _ _ _ => ⟨List.mem_cons_self, rfl⟩
    exact hload.loads (fun _ _ => AccessForm.natural_allowed.mpr) fun _ _ => rfl
  case ldq =>
    have hload : LoadsBy .ldq (fun _ => .natural 8) .unsigned := fun _ _ _ => ⟨List.mem_cons_self, rfl⟩
    exact hload.loads (fun _ _ => AccessForm.natural_allowed.mpr) fun _ _ => rfl

/-- An unaligned load completes at any address whose aligned quadwords are mapped (R48, R49). -/
theorem LoadsBy.loads_unaligned {mk : Reg → Address → Instr} {n : Nat} {ext : Extension}
    (h : LoadsBy mk (fun _ => .unaligned n) ext) :
    Loads mk (fun s ea => s.MapsAll .read (quadBytes ea n)) fun s ea => ext.apply n (s.memRead ea n) :=
  h.loads (fun _ _ => AccessForm.unaligned_allowed_load.mpr) fun _ _ => rfl

/-- Settles O30: `ldb` and `ldw` are macros for both settings of `BWX`, `ldbu` and `ldwu` without it. -/
theorem byteWordAndUnalignedLoads : Obligations.ByteWordAndUnalignedLoads := by
  refine ⟨?ldb, ?ldbu, ?ldw, ?ldwu, ?uldw, ?uldwu, ?uldl, ?uldq⟩
  case ldb =>
    have hload : LoadsBy .ldb (fun _ => .byteAccess true) .signed := fun _ _ _ => ⟨List.mem_cons_self, rfl⟩
    exact hload.loads (fun _ _ => (AccessForm.byteAccess_allowed_load (bwx := false)).mpr) fun _ _ => rfl
  case ldbu =>
    have hload : LoadsBy .ldbu (fun bwx => .byteAccess !bwx) .unsigned := fun _ _ _ => ⟨List.mem_cons_self, rfl⟩
    exact hload.loads (fun _ _ => AccessForm.byteAccess_allowed_load.mpr) fun _ _ => rfl
  case ldw =>
    have hload : LoadsBy .ldw (fun _ => .wordAccess true) .signed := fun _ _ _ => ⟨List.mem_cons_self, rfl⟩
    exact hload.loads (fun _ _ => (AccessForm.wordAccess_allowed_load (bwx := false)).mpr) fun _ _ => rfl
  case ldwu =>
    have hload : LoadsBy .ldwu (fun bwx => .wordAccess !bwx) .unsigned := fun _ _ _ => ⟨List.mem_cons_self, rfl⟩
    exact hload.loads (fun _ _ => AccessForm.wordAccess_allowed_load.mpr) fun _ _ => rfl
  case uldw | uldl => exact LoadsBy.loads_unaligned (ext := .signed) fun _ _ _ => ⟨List.mem_cons_self, rfl⟩
  case uldwu | uldq => exact LoadsBy.loads_unaligned (ext := .unsigned) fun _ _ _ => ⟨List.mem_cons_self, rfl⟩

/-! Addresses, immediates and the global pointer -/

/-- A statement that destroys no temporary is well-formed where its offset is in range (R74, R81). -/
theorem Instr.wellFormed_of_no_temporaries {bwx : Bool} {i : Instr} (htemps : i.temporaries bwx = [] := by rfl)
    (hoffset : i.offsetsInRange = true := by rfl) (hpalcode : i.palcodeInRange = true := by rfl)
    (hfetch : i.fetchOffsetZero = true := by rfl) : i.WellFormed bwx :=
  Instr.wellFormed_iff.mpr ⟨hoffset, hpalcode, hfetch, by simp [Instr.avoidsTemporaries, htemps]⟩

/-- The offset of `ldah` counts 65536 bytes each (R115), on the exact integers. -/
theorem ldah_value {o : Int} (hl : -32768 ≤ o) (hu : o ≤ 32767) (w : Word) :
    w + offsetValue o * 65536#64 = BitVec.ofInt 64 (w.toInt + o * 65536) := by
  rw [offsetValue_eq_ofInt hl hu, BitVec.ofInt_add, BitVec.ofInt_mul, BitVec.ofInt_toInt]
  rfl

/-- Settles O31: all four write a value they compute from their operands. -/
theorem addressAndImmediateLoads : Obligations.AddressAndImmediateLoads := by
  refine fun d b a o v s => ⟨fun hwf => ?lda, fun hl hu => ?ldah, ?ldil, ?ldiq⟩
  case lda => exact State.put_spec d _ hwf List.mem_cons_self
  case ldah =>
    have hwf : (Instr.ldah d o b).WellFormed s.launch.bwx :=
      Instr.wellFormed_of_no_temporaries (hoffset := decide_eq_true ⟨hl, hu⟩)
    rw [← ldah_value hl hu]
    exact State.put_spec d _ hwf List.mem_cons_self
  case ldil => exact State.put_spec (i := .ldil d v) d _ Instr.wellFormed_of_no_temporaries List.mem_cons_self
  case ldiq => exact State.put_spec (i := .ldiq d v) d _ Instr.wellFormed_of_no_temporaries List.mem_cons_self

/-- Settles O32: a well-formed `ldgp` tests where it stands before it writes (R116). -/
theorem loadGlobalPointer : Obligations.LoadGlobalPointer := by
  intro d b o s hl hu
  have hwf : (Instr.ldgp d o b).WellFormed s.launch.bwx :=
    Instr.wellFormed_of_no_temporaries (hoffset := decide_eq_true ⟨hl, hu⟩)
  have hexec : exec (.ldgp d o b) s = if s.ea (.base o b) = s.pc
      then (s.setX d (Config.gpOf s.pc)).finish (.ldgp d o b) else .refused .ldgpNotOwnAddress :=
    State.guarded_of_wf hwf _
  refine ⟨fun hown => ?_, fun hother => ?_⟩
  · rw [Writes, hexec, if_pos hown]
    exact s.finish_setX_spec _ d _ (Instr.notMem_temporaries hwf List.mem_cons_self)
  · rw [hexec, if_neg hother]

/-! Stores -/

/-- The mnemonic stores by a form which may depend on `BWX`. -/
def StoresBy (mk : Reg → Address → Instr) (form : Bool → AccessForm) : Prop :=
  ∀ (r : Reg) (a : Address) (s : State), exec (mk r a) s = s.store (mk r a) (form s.launch.bwx) r a

/-- An allowed store off the program text stores its bytes and does nothing else (spec/20_memory.md R44). -/
theorem State.store_of_allowed {s : State} {i : Instr} {f : AccessForm} {r : Reg} {a : Address}
    (h : i.WellFormed s.launch.bwx) (hmem : s.mem.wf = true) (hn : f.size ≤ 8)
    (ha : f.Allowed f.storeKinds s (s.ea a)) (ht : s.OffText (bytesFrom (f.start (s.ea a)) f.size)) :
    ∃ t, s.store i f r a = .next t ∧ t.pc = s.npc i ∧ Stored i (f.start (s.ea a)) (s.x r) f.size s t :=
  State.store_spec f r a h hmem hn ha.misaligned_eq_false (List.all_eq_true.mpr fun _ hk => ha.admits hk)
    (State.overlapsText_eq_false_iff.mpr ht)

/-- A mnemonic that stores by its form, at addresses that are good for the form. -/
theorem StoresBy.stores {mk : Reg → Address → Instr} {form : Bool → AccessForm} {good : State → Word → Prop}
    {start : Word → Word} {n : Nat} (h : StoresBy mk form)
    (hgood : ∀ s ea, good s ea → (form s.launch.bwx).Allowed (form s.launch.bwx).storeKinds s ea)
    (hstart : ∀ bwx, (form bwx).start = start) (hsize : ∀ bwx, (form bwx).size = n) (hn : n ≤ 8) :
    Stores mk good start n := by
  intro r a s hwf hmem hg htext
  rw [h r a s]
  simp only [← hstart s.launch.bwx, ← hsize s.launch.bwx] at htext hn ⊢
  exact State.store_of_allowed hwf hmem hn (hgood s _ hg) htext

/-- A store at a multiple of its size (R45). -/
theorem StoresBy.stores_natural {mk : Reg → Address → Instr} {n : Nat} (h : StoresBy mk fun _ => .natural n)
    (hn : n ≤ 8) : Stores mk (fun s ea => ea.toNat % n = 0 ∧ s.MapsAll .write (bytesFrom ea n)) id n :=
  h.stores (fun _ _ => AccessForm.natural_allowed.mpr) (fun _ => rfl) (fun _ => rfl) hn

/-- An unaligned store reads and writes whole quadwords and changes the bytes it names (R49). -/
theorem StoresBy.stores_unaligned {mk : Reg → Address → Instr} {n : Nat} (h : StoresBy mk fun _ => .unaligned n)
    (hn : n ≤ 8) :
    Stores mk (fun s ea => s.MapsAll .read (quadBytes ea n) ∧ s.MapsAll .write (quadBytes ea n)) id n :=
  h.stores (fun _ _ => AccessForm.unaligned_allowed_store.mpr) (fun _ => rfl) (fun _ => rfl) hn

/-- Settles O33: every mnemonic by its access form. -/
theorem storeStatements : Obligations.StoreStatements := by
  refine ⟨?stl, ?stq, ?stqU, ?stb, ?stw, ?ustw, ?ustl, ?ustq⟩
  case stl | stq => exact StoresBy.stores_natural (fun _ _ _ => rfl) (by decide)
  case ustw | ustl | ustq => exact StoresBy.stores_unaligned (fun _ _ _ => rfl) (by decide)
  case stqU =>
    have hstore : StoresBy .stqU fun _ => .quadAround := fun _ _ _ => rfl
    exact hstore.stores (fun _ _ => AccessForm.quadAround_allowed.mpr) (fun _ => rfl) (fun _ => rfl) (by decide)
  case stb =>
    have hstore : StoresBy .stb fun bwx => .byteAccess !bwx := fun _ _ _ => rfl
    exact hstore.stores (fun _ _ => AccessForm.byteAccess_allowed_store.mpr) (fun _ => rfl) (fun _ => rfl) (by decide)
  case stw =>
    have hstore : StoresBy .stw fun bwx => .wordAccess !bwx := fun _ _ _ => rfl
    exact hstore.stores (fun _ _ => AccessForm.wordAccess_allowed_store.mpr) (fun _ => rfl) (fun _ => rfl) (by decide)

end Sys2Proof.Machine
end

section
/-! Arithmetic on exact integers (spec/41_arithmetic.md sections 1 to 3, 5): the operations of the machine words are
those of the integers modulo 2^32 and 2^64, and an overflow of addition or subtraction shows in the sign bits (R181). -/

namespace Sys2Proof.Machine

/-! Words and the integers they stand for -/

theorem ofInt_sub {w : Nat} (i j : Int) : BitVec.ofInt w (i - j) = BitVec.ofInt w i - BitVec.ofInt w j := by
  rw [Int.sub_eq_add_neg, BitVec.ofInt_add, BitVec.ofInt_neg, ← BitVec.sub_eq_add_neg]

@[simp] theorem ofInt_s32 (v : Word) : BitVec.ofInt 32 (s32 v) = low32 v := BitVec.ofInt_toInt

theorem longword_eq_fromLow32 (t : Int) : longword t = fromLow32 (BitVec.ofInt 32 t) := rfl

/-- A signed 32-bit number is its own longword form (spec/00_scope.md R15). -/
theorem longword_of_fits {t : Int} (hlow : -2147483648 ≤ t) (hhigh : t ≤ 2147483647) :
    longword t = BitVec.ofInt 64 t := by
  have hself : (BitVec.ofInt 32 t).toInt = t := BitVec.toInt_ofInt_eq_self (by decide) hlow (by omega)
  rw [longword, BitVec.signExtend, hself]

theorem le_s32 (v : Word) : -2147483648 ≤ s32 v := BitVec.le_toInt (low32 v)

theorem s32_le (v : Word) : s32 v ≤ 2147483647 := Int.le_of_lt_add_one (BitVec.toInt_lt (x := low32 v))

/-! The longword operations (R140) -/

theorem fromLow32_add (x y : Word) : fromLow32 (low32 x + low32 y) = longword (s32 x + s32 y) := by
  rw [longword_eq_fromLow32, BitVec.ofInt_add, ofInt_s32, ofInt_s32]

theorem fromLow32_sub (x y : Word) : fromLow32 (low32 x - low32 y) = longword (s32 x - s32 y) := by
  rw [longword_eq_fromLow32, ofInt_sub, ofInt_s32, ofInt_s32]

theorem fromLow32_mul (x y : Word) : fromLow32 (low32 x * low32 y) = longword (s32 x * s32 y) := by
  rw [longword_eq_fromLow32, BitVec.ofInt_mul, ofInt_s32, ofInt_s32]

theorem fromLow32_scaledAdd (k : Int) (x y : Word) :
    fromLow32 (BitVec.ofInt 32 k * low32 x + low32 y) = longword (k * s32 x + s32 y) := by
  rw [longword_eq_fromLow32, BitVec.ofInt_add, BitVec.ofInt_mul, ofInt_s32, ofInt_s32]

theorem fromLow32_scaledSub (k : Int) (x y : Word) :
    fromLow32 (BitVec.ofInt 32 k * low32 x - low32 y) = longword (k * s32 x - s32 y) := by
  rw [longword_eq_fromLow32, ofInt_sub, BitVec.ofInt_mul, ofInt_s32, ofInt_s32]

theorem fromLow32_neg (y : Word) : fromLow32 (0#32 - low32 y) = longword (-s32 y) := by
  rw [longword_eq_fromLow32, BitVec.ofInt_neg, ofInt_s32, BitVec.zero_sub]

/-! The quadword operations -/

theorem add_eq_quadword (x y : Word) : x + y = quadword (x.toInt + y.toInt) := by
  rw [quadword, BitVec.ofInt_add, BitVec.ofInt_toInt, BitVec.ofInt_toInt]

theorem sub_eq_quadword (x y : Word) : x - y = quadword (x.toInt - y.toInt) := by
  rw [quadword, ofInt_sub, BitVec.ofInt_toInt, BitVec.ofInt_toInt]

theorem mul_eq_quadword (x y : Word) : x * y = quadword (x.toInt * y.toInt) := by
  rw [quadword, BitVec.ofInt_mul, BitVec.ofInt_toInt, BitVec.ofInt_toInt]

theorem scaledAdd_eq_quadword (k : Int) (x y : Word) :
    BitVec.ofInt 64 k * x + y = quadword (k * x.toInt + y.toInt) := by
  rw [quadword, BitVec.ofInt_add, BitVec.ofInt_mul, BitVec.ofInt_toInt, BitVec.ofInt_toInt]

theorem scaledSub_eq_quadword (k : Int) (x y : Word) :
    BitVec.ofInt 64 k * x - y = quadword (k * x.toInt - y.toInt) := by
  rw [quadword, ofInt_sub, BitVec.ofInt_mul, BitVec.ofInt_toInt, BitVec.ofInt_toInt]

theorem neg_eq_quadword (y : Word) : 0#64 - y = quadword (-y.toInt) := by
  rw [quadword, BitVec.ofInt_neg, BitVec.ofInt_toInt, BitVec.zero_sub]

/-- The exact product of two quadwords has 128 bits; its high half (R171). -/
theorem productHigh_eq (x y : Word) : BitVec.ofNat 64 (x.toNat * y.toNat / 2 ^ 64) =
    ((x.setWidth 128 * y.setWidth 128) >>> 64).setWidth 64 := by
  have hproduct : x.toNat * y.toNat < 2 ^ 128 :=
    calc x.toNat * y.toNat < 2 ^ 64 * 2 ^ 64 := Nat.mul_lt_mul'' x.isLt y.isLt
      _ = 2 ^ 128 := by norm_num
  have hexact : (x.setWidth 128 * y.setWidth 128).toNat = x.toNat * y.toNat := by
    rw [BitVec.toNat_mul, BitVec.toNat_setWidth_of_le (by decide), BitVec.toNat_setWidth_of_le (by decide),
      Nat.mod_eq_of_lt hproduct]
  apply BitVec.eq_of_toNat_eq
  rw [BitVec.toNat_ofNat, BitVec.toNat_setWidth, BitVec.toNat_ushiftRight, hexact, Nat.shiftRight_eq_div_pow]

/-! Statements that write a result and raise nothing -/

/-- A mnemonic of two sources that operates by `f` completes with any `g` that is the same function. -/
theorem WritesThree.of_operate {mk : Reg → RegImm → Reg → Instr} {f g : Word → Word → Word}
    (hfg : ∀ x y, f x y = g x y)
    (hexec : ∀ a b c s, exec (mk a b c) s = s.operate (mk a b c) a b c f := by intros; rfl)
    (hdest : ∀ a b c, c ∈ (mk a b c).registers := by intros; simp [Instr.registers]) : WritesThree mk g := by
  intro a b c s hwf
  rw [Writes, hexec, ← hfg]
  exact State.put_spec c _ hwf (hdest a b c)

/-- A mnemonic of one source that operates by `f` completes with any `g` that is the same function. -/
theorem WritesTwo.of_operate1 {mk : RegImm → Reg → Instr} {f g : Word → Word} (hfg : ∀ y, f y = g y)
    (hexec : ∀ b d s, exec (mk b d) s = s.operate1 (mk b d) b d f := by intros; rfl)
    (hdest : ∀ b d, d ∈ (mk b d).registers := by intros; simp [Instr.registers]) : WritesTwo mk g := by
  intro b d s hwf
  rw [Writes, hexec, ← hfg]
  exact State.put_spec d _ hwf (hdest b d)

/-- Settles O38: the low longwords are the integers modulo 2^32, operation by operation. -/
theorem longwordArithmetic : Obligations.LongwordArithmetic := by
  refine ⟨?addl, ?subl, ?mull, ?s4addl, ?s8addl, ?s4subl, ?s8subl, ?negl, ?sextb, ?sextw, ?sextl⟩
  case addl => exact .of_operate fromLow32_add
  case subl => exact .of_operate fromLow32_sub
  case mull => exact .of_operate fromLow32_mul
  case s4addl => exact .of_operate (fromLow32_scaledAdd 4)
  case s8addl => exact .of_operate (fromLow32_scaledAdd 8)
  case s4subl => exact .of_operate (fromLow32_scaledSub 4)
  case s8subl => exact .of_operate (fromLow32_scaledSub 8)
  case negl => exact .of_operate1 fromLow32_neg
  case sextb | sextw | sextl => exact .of_operate1 fun _ => rfl

/-- Settles O39: the quadwords are the integers modulo 2^64, operation by operation. -/
theorem quadwordArithmetic : Obligations.QuadwordArithmetic := by
  refine ⟨?addq, ?subq, ?mulq, ?s4addq, ?s8addq, ?s4subq, ?s8subq, ?umulh, ?negq, fun d s => ?clr⟩
  case addq => exact .of_operate add_eq_quadword
  case subq => exact .of_operate sub_eq_quadword
  case mulq => exact .of_operate mul_eq_quadword
  case s4addq => exact .of_operate (scaledAdd_eq_quadword 4)
  case s8addq => exact .of_operate (scaledAdd_eq_quadword 8)
  case s4subq => exact .of_operate (scaledSub_eq_quadword 4)
  case s8subq => exact .of_operate (scaledSub_eq_quadword 8)
  case umulh => exact .of_operate productHigh_eq
  case negq => exact .of_operate1 neg_eq_quadword
  case clr => exact State.put_spec (i := .clr d) d _ Instr.wellFormed_of_no_temporaries List.mem_cons_self

/-! Absolute values (R142, R143) -/

/-- Free values change registers of their list and nothing else but the model's own counter of draws. -/
theorem State.clobber_frame (s : State) (l : List Reg) : (s.clobber l).pc = s.pc ∧ SameRegsExcept l s (s.clobber l) ∧
    SameMemory s (s.clobber l) ∧ SameLock s (s.clobber l) ∧ SameCounter s (s.clobber l) :=
  ⟨by simp, fun r hr => s.x_clobber_of_notMem l r hr, fun a => by simp, by simp [SameLock], by simp [SameCounter]⟩

/-- The mnemonic takes the absolute value of its operand as `val` reads it, and destroys `AT`. -/
structure TakesAbsolute (mk : RegImm → Reg → Instr) (val : Word → Int) (wrap : Int → Word) (least : Int) : Prop where
  exec_eq : ∀ b d s, exec (mk b d) s = s.absolute (mk b d) d wrap least (val (s.rbv b))
  dest : ∀ b d, d ∈ (mk b d).registers
  temporaries : ∀ b d bwx, (mk b d).temporaries bwx = [28]

section
variable {mk : RegImm → Reg → Instr} {val : Word → Int} {wrap : Int → Word} {least : Int} {b : RegImm} {d : Reg}
  {s : State}

theorem TakesAbsolute.writes (h : TakesAbsolute mk val wrap least) (hwf : (mk b d).WellFormed s.launch.bwx)
    (hval : val (s.rbv b) ≠ least) : Writes (mk b d) s d (wrap |val (s.rbv b)|) := by
  rw [Writes, h.exec_eq]
  exact State.absolute_spec d wrap hwf (h.dest b d) hval

/-- The most negative value raises after the destination and `AT` are destroyed (spec/60_exceptions.md R322). -/
theorem TakesAbsolute.overflows (h : TakesAbsolute mk val wrap least) (hwf : (mk b d).WellFormed s.launch.bwx)
    (hval : val (s.rbv b) = least) : ∃ u, exec (mk b d) s = .fault (.integerOverflow u) ∧ u.pc = s.pc ∧
      SameRegsExcept [d, 28] s u ∧ SameMemory s u ∧ SameLock s u ∧ SameCounter s u := by
  refine ⟨s.clobber [d, 28], ?_, s.clobber_frame _⟩
  rw [h.exec_eq, State.absolute, State.guarded_of_wf hwf, if_pos hval, h.temporaries, State.raise]

end

theorem takesAbsolute_absl : TakesAbsolute .absl s32 longword (-2147483648) :=
  ⟨fun _ _ _ => rfl, fun _ _ => List.mem_cons_self, fun _ _ _ => Instr.temporaries_of_own_cons rfl⟩

theorem takesAbsolute_absq : TakesAbsolute .absq BitVec.toInt quadword (-9223372036854775808) :=
  ⟨fun _ _ _ => rfl, fun _ _ => List.mem_cons_self, fun _ _ _ => Instr.temporaries_of_own_cons rfl⟩

/-- But for the most negative value, the absolute value of a longword is a longword. -/
theorem longword_abs {v : Word} (hv : s32 v ≠ -2147483648) : longword |s32 v| = BitVec.ofInt 64 |s32 v| := by
  have hlow := le_s32 v
  have hhigh := s32_le v
  exact longword_of_fits (le_trans (by decide) (abs_nonneg _)) (abs_le.mpr ⟨by omega, hhigh⟩)

theorem toInt_eq_least_iff (v : Word) : v.toInt = -9223372036854775808 ↔ v = 0x8000000000000000#64 :=
  BitVec.toInt_inj (y := 0x8000000000000000#64)

/-- Settles O41: the two absolute values by their common form. -/
theorem absoluteValue : Obligations.AbsoluteValue := by
  intro b d s
  refine ⟨fun hwf => ⟨fun hval => ?_, takesAbsolute_absl.overflows hwf⟩, fun hwf => ⟨fun hval => ?_, fun hval => ?_⟩⟩
  · rw [← longword_abs hval]
    exact takesAbsolute_absl.writes hwf hval
  · exact takesAbsolute_absq.writes hwf (mt (toInt_eq_least_iff _).mp hval)
  · exact takesAbsolute_absq.overflows hwf ((toInt_eq_least_iff _).mpr hval)

/-! Overflow in the sign bits (R181) -/

/-- Where a statement computes its exact result, it raises exactly where the result overflows. -/
theorem State.putTrap_overflow_iff {s : State} {i : Instr} (d : Reg) (wrap : Int → Word) (overflows : Int → Bool)
    (t : Int) (hwf : i.WellFormed s.launch.bwx) :
    (∃ u, s.putTrap i d wrap overflows t = .fault (.integerOverflow u)) ↔ overflows t = true := by
  constructor
  · rintro ⟨u, hu⟩
    exact (State.putTrap_fault hu).1
  · intro ho
    exact ⟨_, by rw [State.putTrap, State.guarded_of_wf hwf, if_pos ho, State.raise]⟩

theorem saddOverflow_iff {w : Nat} (x y : BitVec w) :
    x.saddOverflow y = true ↔ x.msb = y.msb ∧ (x + y).msb ≠ x.msb := by
  simp [BitVec.saddOverflow_eq]

theorem ssubOverflow_iff {w : Nat} (x y : BitVec w) :
    x.ssubOverflow y = true ↔ x.msb ≠ y.msb ∧ (x - y).msb ≠ x.msb := by
  rw [BitVec.ssubOverflow_eq]
  cases x.msb <;> cases y.msb <;> simp

/-- The signed range of a longword, in the library's terms. -/
theorem overflows32_iff (t : Int) : overflows32 t = true ↔ 2 ^ (32 - 1) ≤ t ∨ t < -2 ^ (32 - 1) := by
  simp only [overflows32, decide_eq_true_eq]
  omega

/-- The signed range of a quadword, in the library's terms. -/
theorem overflows64_iff (t : Int) : overflows64 t = true ↔ 2 ^ (64 - 1) ≤ t ∨ t < -2 ^ (64 - 1) := by
  simp only [overflows64, decide_eq_true_eq]
  omega

theorem overflows32_add_iff (x y : Word) : overflows32 (s32 x + s32 y) = true ↔
    (low32 x).saddOverflow (low32 y) = true := by
  simp [overflows32_iff, BitVec.saddOverflow, s32, low32]

theorem overflows32_sub_iff (x y : Word) : overflows32 (s32 x - s32 y) = true ↔
    (low32 x).ssubOverflow (low32 y) = true := by
  simp [overflows32_iff, BitVec.ssubOverflow, s32, low32]

theorem overflows64_add_iff (x y : Word) : overflows64 (x.toInt + y.toInt) = true ↔ x.saddOverflow y = true := by
  simp [overflows64_iff, BitVec.saddOverflow]

theorem overflows64_sub_iff (x y : Word) : overflows64 (x.toInt - y.toInt) = true ↔ x.ssubOverflow y = true := by
  simp [overflows64_iff, BitVec.ssubOverflow]

theorem msb_low32 (v : Word) : (low32 v).msb = v.getLsbD 31 := by
  simp [BitVec.msb_eq_getLsbD_last, low32]

theorem msb_word (v : Word) : v.msb = v.getLsbD 63 := BitVec.msb_eq_getLsbD_last v

theorem low32_add (x y : Word) : low32 (x + y) = low32 x + low32 y := BitVec.setWidth_add x y (by decide)

theorem low32_sub (x y : Word) : low32 (x - y) = low32 x - low32 y := by
  rw [BitVec.sub_eq_add_neg, low32_add, BitVec.sub_eq_add_neg]
  congr 1
  exact BitVec.setWidth_neg_of_le (by decide)

/-- Settles O42: each statement raises where its exact result overflows, which the library says by the sign bits. -/
theorem overflowInBitTerms : Obligations.OverflowInBitTerms := by
  intro a b c s
  refine ⟨fun hwf => ?addlv, fun hwf => ?addqv, fun hwf => ?sublv, fun hwf => ?subqv⟩
  case addlv =>
    simp only [← msb_low32, low32_add, ← saddOverflow_iff, ← overflows32_add_iff]
    exact State.putTrap_overflow_iff c longword overflows32 _ hwf
  case addqv =>
    simp only [← msb_word, ← saddOverflow_iff, ← overflows64_add_iff]
    exact State.putTrap_overflow_iff c quadword overflows64 _ hwf
  case sublv =>
    simp only [← msb_low32, low32_sub, ← ssubOverflow_iff, ← overflows32_sub_iff]
    exact State.putTrap_overflow_iff c longword overflows32 _ hwf
  case subqv =>
    simp only [← msb_word, ← ssubOverflow_iff, ← overflows64_sub_iff]
    exact State.putTrap_overflow_iff c quadword overflows64 _ hwf

end Sys2Proof.Machine
end

section
/-! Division and remainder, rounded toward zero (spec/41_arithmetic.md sections 4 and 5, R172 to R179, R182). The
unsigned forms are the same division of integers that are not negative, for which -1 is no divisor. -/

namespace Sys2Proof.Machine

/-! Truncated division of integers -/

theorem abs_tmod_lt (x : Int) {y : Int} (hy : y ≠ 0) : |x.tmod y| < |y| := by
  rw [Int.abs_eq_natAbs, Int.abs_eq_natAbs, Int.natAbs_tmod, Int.ofNat_lt]
  exact Nat.mod_lt _ (Int.natAbs_pos.mpr hy)

theorem tmod_eq_zero_or_sign_eq (x y : Int) : x.tmod y = 0 ∨ (x.tmod y).sign = x.sign := by
  by_cases hdvd : y ∣ x
  · exact .inl (Int.tmod_eq_zero_of_dvd hdvd)
  · exact .inr (by rw [Int.sign_tmod, if_neg hdvd])

/-! The common form of the eight statements -/

/-- The mnemonic divides its operands as `val` reads them and completes with what `op` makes of them; `least` by -1
is the case the spec leaves open (log 6). -/
structure DividesBy (mk : Reg → RegImm → Reg → Instr) (val : Word → Int) (wrap : Int → Word) (least : Int)
    (op : Int → Int → Int) : Prop where
  exec_eq : ∀ a b c s, exec (mk a b c) s = s.divide (mk a b c) c (decide (val (s.rbv b) = 0))
    (signedResult least (val (s.x a)) (val (s.rbv b)) (wrap (op (val (s.x a)) (val (s.rbv b)))))
  dest : ∀ a b c, c ∈ (mk a b c).registers

section
variable {mk : Reg → RegImm → Reg → Instr} {val : Word → Int} {wrap : Int → Word} {least : Int}
  {op : Int → Int → Int} {a c : Reg} {b : RegImm} {s : State}

theorem DividesBy.writes (h : DividesBy mk val wrap least op) (hwf : (mk a b c).WellFormed s.launch.bwx)
    (hdivisor : val (s.rbv b) ≠ 0) (hfits : ¬ (val (s.x a) = least ∧ val (s.rbv b) = -1)) :
    Writes (mk a b c) s c (wrap (op (val (s.x a)) (val (s.rbv b)))) := by
  rw [Writes, h.exec_eq, decide_eq_false hdivisor, signedResult, if_neg hfits]
  exact State.divide_spec c _ hwf (h.dest a b c)

/-- The quotient that cannot be represented leaves a free value in the destination (log 6). -/
theorem DividesBy.writes_free (h : DividesBy mk val wrap least op) (hwf : (mk a b c).WellFormed s.launch.bwx)
    (hdividend : val (s.x a) = least) (hdivisor : val (s.rbv b) = -1) :
    Writes (mk a b c) s c (Config.freeWord s.draws) := by
  have hzero : val (s.rbv b) ≠ 0 := by rw [hdivisor]; decide
  rw [Writes, h.exec_eq, decide_eq_false hzero, signedResult, if_pos ⟨hdividend, hdivisor⟩]
  exact State.divide_none_spec c hwf (h.dest a b c)

/-- A quotient and a remainder rounded toward zero satisfy the division law (R182). -/
theorem Divides.of_truncated {mkDiv mkRem : Reg → RegImm → Reg → Instr} (hdiv : DividesBy mkDiv val wrap least Int.tdiv)
    (hrem : DividesBy mkRem val wrap least Int.tmod) : Divides mkDiv mkRem val wrap least :=
  fun a b _ s hdivisor hfits =>
    ⟨(val (s.x a)).tdiv (val (s.rbv b)), (val (s.x a)).tmod (val (s.rbv b)), (Int.mul_tdiv_add_tmod _ _).symm,
      abs_tmod_lt _ hdivisor, tmod_eq_zero_or_sign_eq _ _, fun hwf => hdiv.writes hwf hdivisor hfits,
      fun hwf => hrem.writes hwf hdivisor hfits⟩

end

/-! The signed statements -/

theorem decide_toInt_eq_zero (v : Word) : decide (v.toInt = 0) = decide (v = 0#64) :=
  decide_eq_decide.mpr (BitVec.toInt_inj (y := 0#64))

theorem dividesBy_divl : DividesBy .divl s32 longword (-2147483648) Int.tdiv where
  exec_eq _ _ _ _ := rfl
  dest _ _ _ := by simp [Instr.registers]

theorem dividesBy_reml : DividesBy .reml s32 longword (-2147483648) Int.tmod where
  exec_eq _ _ _ _ := by rw [Int.tmod_def]; rfl
  dest _ _ _ := by simp [Instr.registers]

theorem dividesBy_divq : DividesBy .divq BitVec.toInt quadword (-9223372036854775808) Int.tdiv where
  exec_eq _ _ _ _ := by rw [decide_toInt_eq_zero]; rfl
  dest _ _ _ := by simp [Instr.registers]

theorem dividesBy_remq : DividesBy .remq BitVec.toInt quadword (-9223372036854775808) Int.tmod where
  exec_eq _ _ _ _ := by rw [decide_toInt_eq_zero, Int.tmod_def]; rfl
  dest _ _ _ := by simp [Instr.registers]

/-! The unsigned statements -/

/-- A divisor that is not negative is not -1. -/
theorem signedResult_natCast (least : Int) (m n : Nat) (v : Word) : signedResult least m n v = some v :=
  if_neg fun h => by omega

theorem decide_natCast_eq_zero (n : Nat) : decide ((n : Int) = 0) = decide (n = 0) :=
  decide_eq_decide.mpr Int.natCast_eq_zero

theorem decide_toNat_eq_zero (v : Word) : decide (v.toNat = 0) = decide (v = 0#64) :=
  decide_eq_decide.mpr (BitVec.toNat_inj (y := 0#64))

theorem dividesBy_divlu (least : Int) : DividesBy .divlu (fun v => (u32 v : Int)) longword least Int.tdiv where
  exec_eq _ _ _ _ := by rw [signedResult_natCast, decide_natCast_eq_zero, ← Int.ofNat_tdiv]; rfl
  dest _ _ _ := by simp [Instr.registers]

theorem dividesBy_remlu (least : Int) : DividesBy .remlu (fun v => (u32 v : Int)) longword least Int.tmod where
  exec_eq _ _ _ _ := by
    rw [signedResult_natCast, decide_natCast_eq_zero, ← Int.ofNat_tmod, Nat.mod_eq_sub_mul_div]; rfl
  dest _ _ _ := by simp [Instr.registers]

theorem dividesBy_divqu (least : Int) : DividesBy .divqu (fun v => (v.toNat : Int)) quadword least Int.tdiv where
  exec_eq _ _ _ _ := by
    rw [signedResult_natCast, decide_natCast_eq_zero, decide_toNat_eq_zero, ← Int.ofNat_tdiv]; rfl
  dest _ _ _ := by simp [Instr.registers]

theorem dividesBy_remqu (least : Int) : DividesBy .remqu (fun v => (v.toNat : Int)) quadword least Int.tmod where
  exec_eq _ _ _ _ := by
    rw [signedResult_natCast, decide_natCast_eq_zero, decide_toNat_eq_zero, ← Int.ofNat_tmod, Nat.mod_eq_sub_mul_div]
    rfl
  dest _ _ _ := by simp [Instr.registers]

/-- Settles O43: the four pairs by truncated division, and the free value of the signed four. -/
theorem divisionLaw : Obligations.DivisionLaw := by
  refine ⟨.of_truncated dividesBy_divl dividesBy_reml, .of_truncated dividesBy_divq dividesBy_remq,
    .of_truncated (dividesBy_divlu _) (dividesBy_remlu _), .of_truncated (dividesBy_divqu _) (dividesBy_remqu _),
    fun a b c s => ⟨fun mk hmk hwf hdividend hdivisor => ?longwords, fun mk hmk hwf hdividend hdivisor => ?quadwords⟩⟩
  case longwords =>
    fin_cases hmk
    · exact dividesBy_divl.writes_free hwf hdividend hdivisor
    · exact dividesBy_reml.writes_free hwf hdividend hdivisor
  case quadwords =>
    have hleast : (s.x a).toInt = -9223372036854775808 := (toInt_eq_least_iff _).mpr hdividend
    have hminusOne : (s.rbv b).toInt = -1 := by rw [hdivisor]; rfl
    fin_cases hmk
    · exact dividesBy_divq.writes_free hwf hleast hminusOne
    · exact dividesBy_remq.writes_free hwf hleast hminusOne

end Sys2Proof.Machine
end

section
/-! Logical and shift statements (spec/42_logical_shift.md): a logical statement acts on each bit alone (R191 to R200),
and a shift multiplies or divides by a power of two, the count read modulo 64 (R201 to R203). -/

namespace Sys2Proof.Machine

/-! The logical statements -/

/-- A well-formed statement of the mnemonic always completes with the word whose bits are those `op` makes of the bits
of its operands. -/
def WritesBitwise (mk : Reg → RegImm → Reg → Instr) (op : Bool → Bool → Bool) : Prop :=
  ∀ (a : Reg) (b : RegImm) (c : Reg) (s : State), (mk a b c).WellFormed s.launch.bwx →
    ∃ v, Writes (mk a b c) s c v ∧ ∀ k, k < 64 → v.getLsbD k = op ((s.x a).getLsbD k) ((s.rbv b).getLsbD k)

/-- A mnemonic that operates by `f` acts bit by bit where `f` does. -/
theorem WritesBitwise.of_operate {mk : Reg → RegImm → Reg → Instr} {f : Word → Word → Word} {op : Bool → Bool → Bool}
    (hbit : ∀ x y k, k < 64 → (f x y).getLsbD k = op (x.getLsbD k) (y.getLsbD k))
    (hexec : ∀ a b c s, exec (mk a b c) s = s.operate (mk a b c) a b c f := by intros; rfl)
    (hdest : ∀ a b c, c ∈ (mk a b c).registers := by intros; simp [Instr.registers]) : WritesBitwise mk op :=
  fun a b c s hwf => ⟨f (s.x a) (s.rbv b), WritesThree.of_operate (fun _ _ => rfl) hexec hdest a b c s hwf, hbit _ _⟩

/-- A bit of a complement, within the word. -/
theorem getLsbD_complement (y : Word) {k : Nat} (hk : k < 64) : (~~~y).getLsbD k = !y.getLsbD k := by
  rw [BitVec.getLsbD_not, decide_eq_true hk, Bool.true_and]

theorem getLsbD_and_complement (x y : Word) (k : Nat) (hk : k < 64) :
    (x &&& ~~~y).getLsbD k = (x.getLsbD k && !y.getLsbD k) := by
  rw [BitVec.getLsbD_and, getLsbD_complement y hk]

theorem getLsbD_or_complement (x y : Word) (k : Nat) (hk : k < 64) :
    (x ||| ~~~y).getLsbD k = (x.getLsbD k || !y.getLsbD k) := by
  rw [BitVec.getLsbD_or, getLsbD_complement y hk]

/-- The difference from the complement is the agreement of the bits. -/
theorem getLsbD_xor_complement (x y : Word) (k : Nat) (hk : k < 64) :
    (x ^^^ ~~~y).getLsbD k = (x.getLsbD k == y.getLsbD k) := by
  rw [BitVec.getLsbD_xor, getLsbD_complement y hk, Bool.xor_not]
  exact Bool.not_not _

/-- Settles O45: each mnemonic by the bits of its operation; `not` as one that does not look at its first operand. -/
theorem logicalStatements : Obligations.LogicalStatements := by
  change ∀ p : (Reg → RegImm → Reg → Instr) × (Bool → Bool → Bool), p ∈ _ → WritesBitwise p.1 p.2
  simp only [List.forall_mem_cons]
  refine ⟨?and, ?bis, ?or, ?xor, ?bic, ?andnot, ?ornot, ?eqv, ?xornot, ?not, List.forall_mem_nil _⟩
  case and => exact .of_operate fun _ _ _ _ => BitVec.getLsbD_and
  case bis | or => exact .of_operate fun _ _ _ _ => BitVec.getLsbD_or
  case xor => exact .of_operate fun _ _ _ _ => BitVec.getLsbD_xor
  case bic | andnot => exact .of_operate getLsbD_and_complement
  case ornot => exact .of_operate getLsbD_or_complement
  case eqv | xornot => exact .of_operate getLsbD_xor_complement
  case not => exact .of_operate (f := fun _ y => ~~~y) fun _ y _ hk => getLsbD_complement y hk

/-! The shifts -/

theorem shiftCount_eq (y : Word) : shiftCount y = y.toNat % 64 := BitVec.toNat_setWidth 6 y

theorem shiftLeft_shiftCount (x y : Word) : x <<< shiftCount y = BitVec.ofNat 64 (x.toNat * 2 ^ (y.toNat % 64)) := by
  apply BitVec.eq_of_toNat_eq
  rw [BitVec.toNat_shiftLeft, BitVec.toNat_ofNat, Nat.shiftLeft_eq, shiftCount_eq]

/-- The quotient is no larger than the word. -/
theorem ushiftRight_shiftCount (x y : Word) : x >>> shiftCount y = BitVec.ofNat 64 (x.toNat / 2 ^ (y.toNat % 64)) := by
  have hquotient : x.toNat / 2 ^ (y.toNat % 64) < 2 ^ 64 := (Nat.div_le_self _ _).trans_lt x.isLt
  apply BitVec.eq_of_toNat_eq
  rw [BitVec.toNat_ushiftRight, BitVec.toNat_ofNat, Nat.mod_eq_of_lt hquotient, Nat.shiftRight_eq_div_pow,
    shiftCount_eq]

/-- The division by a positive number rounds down, as the shift does. -/
theorem sshiftRight_shiftCount (x y : Word) :
    x.sshiftRight (shiftCount y) = BitVec.ofInt 64 (x.toInt / 2 ^ (y.toNat % 64)) := by
  rw [BitVec.sshiftRight, Int.shiftRight_eq_div_pow, shiftCount_eq, Nat.cast_pow, Nat.cast_two]

/-- Settles O46: the three shifts as arithmetic on the operands. -/
theorem shiftStatements : Obligations.ShiftStatements :=
  ⟨.of_operate shiftLeft_shiftCount, .of_operate ushiftRight_shiftCount, .of_operate sshiftRight_shiftCount⟩

end Sys2Proof.Machine
end

section
/-! Relational statements (spec/43_relational.md): the result is 1 where the comparison of the two operands holds and 0
where not (R210 to R215). The model compares the integers the operands stand for, the statement the words. -/

namespace Sys2Proof.Machine

/-- The word of a test that decides a comparison. -/
theorem truth_eq_ite {b : Bool} {p : Prop} [Decidable p] (hdecides : b = true ↔ p) :
    truth b = if p then 1#64 else 0#64 := if_congr hdecides rfl rfl

/-- A relational mnemonic whose test decides `p` completes with 1 where `p` holds of its operands and with 0 where not. -/
theorem WritesThree.of_test {mk : Reg → RegImm → Reg → Instr} {test : Word → Word → Bool} {p : Word → Word → Prop}
    [∀ x y, Decidable (p x y)] (hdecides : ∀ x y, test x y = true ↔ p x y)
    (hexec : ∀ a b c s, exec (mk a b c) s = s.operate (mk a b c) a b c fun x y => truth (test x y) := by intros; rfl)
    (hdest : ∀ a b c, c ∈ (mk a b c).registers := by intros; simp [Instr.registers]) :
    WritesThree mk fun x y => if p x y then 1#64 else 0#64 :=
  .of_operate (fun x y => truth_eq_ite (hdecides x y)) hexec hdest

/-- Settles O47: the signed comparisons are those of the signed integers, the unsigned ones those of the naturals. -/
theorem relationalStatements : Obligations.RelationalStatements := by
  refine ⟨?cmpeq, ?cmplt, ?cmple, ?cmpult, ?cmpule⟩
  case cmpeq => exact .of_test fun _ _ => beq_iff_eq
  case cmplt => exact .of_test fun _ _ => decide_eq_true_iff.trans BitVec.slt_iff_toInt_lt.symm
  case cmple => exact .of_test fun _ _ => decide_eq_true_iff.trans BitVec.sle_iff_toInt_le.symm
  case cmpult => exact .of_test fun _ _ => decide_eq_true_iff.trans BitVec.lt_def.symm
  case cmpule => exact .of_test fun _ _ => decide_eq_true_iff.trans BitVec.le_def.symm

end Sys2Proof.Machine
end

section
/-! Move statements (spec/44_move.md): `mov` (R221), and the conditional moves, which keep the destination where their
test fails (R220, R222 to R229). The model tests the signed integer and the low bit, the statement the sign bit and the
remainder by 2. -/

namespace Sys2Proof.Machine

/-! The tests of a register, which the conditional moves and the conditional branches share -/

theorem testEq_iff (v : Word) : testEq v = true ↔ v = 0#64 := beq_iff_eq

theorem testNe_iff (v : Word) : testNe v = true ↔ v ≠ 0#64 := bne_iff_ne

theorem toInt_eq_zero_iff (v : Word) : v.toInt = 0 ↔ v = 0#64 := BitVec.toInt_inj (y := 0#64)

theorem toInt_lt_zero_iff (v : Word) : v.toInt < 0 ↔ v.msb = true := by
  rw [BitVec.msb_eq_toInt, decide_eq_true_iff]

theorem testLt_iff (v : Word) : testLt v = true ↔ v.msb = true := decide_eq_true_iff.trans (toInt_lt_zero_iff v)

theorem testLe_iff (v : Word) : testLe v = true ↔ v = 0#64 ∨ v.msb = true :=
  calc testLe v = true ↔ v.toInt ≤ 0 := decide_eq_true_iff
    _ ↔ v.toInt = 0 ∨ v.toInt < 0 := Int.le_iff_eq_or_lt
    _ ↔ v = 0#64 ∨ v.msb = true := or_congr (toInt_eq_zero_iff v) (toInt_lt_zero_iff v)

theorem testGt_eq_not (v : Word) : testGt v = !testLe v := by
  rw [testLe, ← decide_not]
  exact decide_eq_decide.mpr Int.not_le.symm

theorem testGt_iff (v : Word) : testGt v = true ↔ v ≠ 0#64 ∧ v.msb = false := by
  rw [testGt_eq_not, Bool.not_eq_true', ← Bool.not_eq_true, testLe_iff, not_or, Bool.not_eq_true]

theorem testGe_eq_not (v : Word) : testGe v = !testLt v := by
  rw [testLt, ← decide_not]
  exact decide_eq_decide.mpr Int.not_lt.symm

theorem testGe_iff (v : Word) : testGe v = true ↔ v.msb = false := by
  rw [testGe_eq_not, Bool.not_eq_true', ← Bool.not_eq_true, testLt_iff, Bool.not_eq_true]

/-- The low bit is the remainder by 2. -/
theorem testLbs_iff (v : Word) : testLbs v = true ↔ v.toNat % 2 = 1 := by
  rw [testLbs, ← BitVec.testBit_toNat, Nat.testBit_zero, decide_eq_true_iff]

theorem testLbc_iff (v : Word) : testLbc v = true ↔ v.toNat % 2 = 0 := by
  rw [testLbc, ← testLbs, Bool.not_eq_true', ← Bool.not_eq_true, testLbs_iff, Nat.mod_two_not_eq_one]

/-! The conditional moves -/

/-- A statement that wrote nothing has left any register but its temporaries with the value it had; register 31 with
zero. -/
theorem WroteNothing.keeps {i : Instr} {s t : State} (h : WroteNothing i s t) {d : Reg}
    (hd : d ∉ i.temporaries s.launch.bwx) : WroteReg i d (s.x d) s t where
  value := by
    rw [RegHolds, h.others d hd]
    split
    case isTrue hzero => rw [hzero, State.x_31]
    case isFalse => rfl
  others r hr := h.others r fun hmem => hr (List.mem_cons_of_mem d hmem)
  memory := h.memory
  lock := h.lock
  counter := h.counter

/-- A conditional move completes with its operand where its test holds. -/
theorem State.condMove_spec_of_test {s : State} {i : Instr} {test : Word → Bool} {a c : Reg} (b : RegImm)
    (hwf : i.WellFormed s.launch.bwx) (hc : c ∈ i.registers) (htest : test (s.x a) = true) :
    ∃ t, s.condMove i test a b c = .next t ∧ t.pc = s.npc i ∧ WroteReg i c (s.rbv b) s t := by
  rw [State.condMove, State.guarded_of_wf hwf, if_pos htest]
  exact s.finish_setX_spec i c _ (Instr.notMem_temporaries hwf hc)

/-- A conditional move keeps its destination where its test fails. -/
theorem State.condMove_spec_of_not_test {s : State} {i : Instr} {test : Word → Bool} {a c : Reg} (b : RegImm)
    (hwf : i.WellFormed s.launch.bwx) (hc : c ∈ i.registers) (htest : ¬ test (s.x a) = true) :
    ∃ t, s.condMove i test a b c = .next t ∧ t.pc = s.npc i ∧ WroteReg i c (s.x c) s t := by
  rw [State.condMove, State.guarded_of_wf hwf, if_neg htest]
  obtain ⟨t, hfinish, hpc, hnothing, -⟩ := s.finish_spec i
  exact ⟨t, hfinish, hpc, hnothing.keeps (Instr.notMem_temporaries hwf hc)⟩

/-- A well-formed statement of the mnemonic always completes: with its operand where `p` holds of the first register,
and with the destination's old value where not. -/
def MovesWhere (mk : Reg → RegImm → Reg → Instr) (p : Word → Prop) : Prop :=
  ∀ (a : Reg) (b : RegImm) (c : Reg) (s : State), (mk a b c).WellFormed s.launch.bwx →
    (p (s.x a) → Writes (mk a b c) s c (s.rbv b)) ∧ (¬ p (s.x a) → Writes (mk a b c) s c (s.x c))

/-- A mnemonic that moves by a test moves where what the test decides holds. -/
theorem MovesWhere.of_test {mk : Reg → RegImm → Reg → Instr} {test : Word → Bool} {p : Word → Prop}
    (hdecides : ∀ v, test v = true ↔ p v)
    (hexec : ∀ a b c s, exec (mk a b c) s = s.condMove (mk a b c) test a b c := by intros; rfl)
    (hdest : ∀ a b c, c ∈ (mk a b c).registers := by intros; simp [Instr.registers]) : MovesWhere mk p := by
  intro a b c s hwf
  rw [← hdecides, Writes, Writes, hexec]
  exact ⟨State.condMove_spec_of_test b hwf (hdest a b c), State.condMove_spec_of_not_test b hwf (hdest a b c)⟩

/-- Settles O48: `mov` as an operation that returns its operand, each conditional move by what its test decides. -/
theorem moveStatements : Obligations.MoveStatements := by
  refine ⟨.of_operate1 fun _ => rfl, ?_⟩
  change ∀ p : (Reg → RegImm → Reg → Instr) × (Word → Prop), p ∈ _ → MovesWhere p.1 p.2
  simp only [List.forall_mem_cons]
  refine ⟨?cmoveq, ?cmovne, ?cmovlt, ?cmovle, ?cmovgt, ?cmovge, ?cmovlbc, ?cmovlbs, List.forall_mem_nil _⟩
  case cmoveq => exact .of_test testEq_iff
  case cmovne => exact .of_test testNe_iff
  case cmovlt => exact .of_test testLt_iff
  case cmovle => exact .of_test testLe_iff
  case cmovgt => exact .of_test testGt_iff
  case cmovge => exact .of_test testGe_iff
  case cmovlbc => exact .of_test testLbc_iff
  case cmovlbs => exact .of_test testLbs_iff

end Sys2Proof.Machine
end

section
/-! Control statements (spec/45_control.md): a conditional branch tests its register and writes nothing (R235); `br`,
`bsr` and the jumps write the return address and go on at their target (R236, R245, R246); a symbolic jump does so
after `$27` has received the address (R247, R248). -/

namespace Sys2Proof.Machine

/-! A transfer of control -/

/-- A direct branch is one machine instruction (R79). -/
theorem Instr.isMacro_eq_false_of_target {bwx : Bool} {i : Instr} {t : Target} (hi : i.target? = some t) :
    i.isMacro bwx = false := by
  cases i with
  | beq | bne | blt | ble | bgt | bge | blbc | blbs | br | bsr => rfl
  | _ => cases hi

theorem State.setPc_wroteNothing (s : State) (i : Instr) (address : Word) : WroteNothing i s (s.setPc address) where
  others _ _ := rfl
  memory _ := rfl
  lock := ⟨rfl, rfl⟩
  counter := ⟨rfl, rfl⟩

/-- The statement completes at the address, with the return address in `d`, and does nothing else. -/
def TransfersWithLink (o : Outcome) (s : State) (d : Reg) (link address : Word) : Prop :=
  ∃ u, o = .next u ∧ u.pc = address ∧ RegHolds u d link ∧ SameRegsExcept [d] s u ∧ SameMemory s u ∧ SameLock s u ∧
    SameCounter s u

theorem transfersWithLink_of_setX_setPc (s : State) (d : Reg) (link address : Word) :
    TransfersWithLink (.next ((s.setX d link).setPc address)) s d link address :=
  ⟨_, rfl, rfl, s.x_setX_self d link, fun _ hr => s.x_setX_of_ne link (List.ne_of_not_mem_cons hr),
    by simp [SameMemory], by simp [SameLock], by simp [SameCounter]⟩

/-! Conditional branches -/

/-- A conditional branch whose test holds goes to an address that is not the middle of a placed statement (R360). -/
theorem State.condBranch_of_test {s : State} {i : Instr} {test : Word → Bool} {r : Reg} {t : Target}
    {address : Word} (hi : i.target? = some t) (ht : s.target t = some address)
    (hinside : s.launch.insideStatement address = false) (htest : test (s.x r) = true) :
    s.condBranch i test r t = .next (s.setPc address) := by
  rw [State.condBranch, State.guarded_of_wf (Instr.wellFormed_of_target hi), State.toTarget_of ht, if_pos htest,
    State.branchTo_of hinside]

/-- A conditional branch whose test fails goes on to the next instruction, wherever its target is. -/
theorem State.condBranch_of_not_test {s : State} {i : Instr} {test : Word → Bool} {r : Reg} {t : Target}
    {address : Word} (hi : i.target? = some t) (ht : s.target t = some address) (htest : ¬ test (s.x r) = true) :
    s.condBranch i test r t = .next (s.setPc (s.pc + 4#64)) := by
  rw [State.condBranch, State.guarded_of_wf (Instr.wellFormed_of_target hi), State.toTarget_of ht, if_neg htest,
    State.finish_of_one (Instr.isMacro_eq_false_of_target hi)]

/-- A mnemonic that branches by a test branches where what the test decides holds. -/
theorem Branches.of_test {mk : Reg → Target → Instr} {test : Word → Bool} {p : Word → Prop}
    (hdecides : ∀ v, test v = true ↔ p v)
    (hexec : ∀ r t s, exec (mk r t) s = s.condBranch (mk r t) test r t := by intros; rfl)
    (htarget : ∀ r t, (mk r t).target? = some t := by intros; rfl) : Branches mk p := by
  intro r t s address ht
  rw [← hdecides, hexec]
  constructor
  · intro htest hinside
    exact ⟨_, State.condBranch_of_test (htarget r t) ht hinside htest, rfl, s.setPc_wroteNothing _ _⟩
  · intro htest
    exact ⟨_, State.condBranch_of_not_test (htarget r t) ht htest, rfl, s.setPc_wroteNothing _ _⟩

/-! Branches and jumps that link -/

/-- `br` and `bsr` link and go to an address that is not the middle of a placed statement (R245, R246, R360). -/
theorem State.branch_spec {s : State} {i : Instr} {t : Target} {address : Word} (d : Reg) (hi : i.target? = some t)
    (ht : s.target t = some address) (hinside : s.launch.insideStatement address = false) :
    TransfersWithLink (s.branch i d t) s d (s.pc + 4#64) address := by
  have hinside' : (s.setX d (s.pc + 4#64)).launch.insideStatement address = false := by rwa [State.setX_launch]
  rw [State.branch, State.guarded_of_wf (Instr.wellFormed_of_target hi), State.toTarget_of ht,
    s.npc_of_one i (Instr.isMacro_eq_false_of_target hi), State.branchTo_of hinside']
  exact transfersWithLink_of_setX_setPc s d _ address

/-- The one operation of the jumps: the target is the source register as it was before the link (R236). -/
theorem State.jump_spec {s : State} {i : Instr} (d r : Reg) (hone : i.isMacro s.launch.bwx = false)
    (hwf : i.WellFormed s.launch.bwx) :
    TransfersWithLink (s.jump i d r) s d (s.pc + 4#64) (jumpTarget (s.x r)) := by
  rw [State.jump, State.guarded_of_wf hwf, s.npc_of_one i hone]
  exact transfersWithLink_of_setX_setPc s d _ _

/-- Settles O49: each conditional branch by what its test decides, `br` and `bsr` by their one form. -/
theorem branchStatements : Obligations.BranchStatements := by
  refine ⟨?beq, ?bne, ?blt, ?ble, ?bgt, ?bge, ?blbc, ?blbs, fun mk hmk d t s address ht hinside => ?link⟩
  case beq => exact .of_test testEq_iff
  case bne => exact .of_test testNe_iff
  case blt => exact .of_test testLt_iff
  case ble => exact .of_test testLe_iff
  case bgt => exact .of_test testGt_iff
  case bge => exact .of_test testGe_iff
  case blbc => exact .of_test testLbc_iff
  case blbs => exact .of_test testLbs_iff
  case link =>
    suffices hform : exec (mk d t) s = s.branch (mk d t) d t ∧ (mk d t).target? = some t by
      obtain ⟨hexec, htarget⟩ := hform
      rw [hexec]
      exact State.branch_spec d htarget ht hinside
    fin_cases hmk <;> exact ⟨rfl, rfl⟩

/-- Settles O51: all four are the one operation, which does not read the hint. -/
theorem registerJumps : Obligations.RegisterJumps := by
  intro d r hint h s i hi
  suffices hform : exec i s = s.jump i d r ∧ i.isMacro s.launch.bwx = false ∧ i.WellFormed s.launch.bwx by
    obtain ⟨hexec, hone, hwf⟩ := hform
    rw [hexec]
    exact State.jump_spec d r hone hwf
  fin_cases hi <;> exact ⟨rfl, rfl, Instr.wellFormed_of_one rfl⟩

/-! Symbolic jumps -/

/-- A statement that names none of its temporaries is well-formed where its operands are in range (R81). -/
theorem Instr.wellFormed_of_notMem_temporaries {bwx : Bool} {i : Instr}
    (h : ∀ r ∈ i.registers, r ∉ i.temporaries bwx) (hoffset : i.offsetsInRange = true := by rfl)
    (hpalcode : i.palcodeInRange = true := by rfl) (hfetch : i.fetchOffsetZero = true := by rfl) : i.WellFormed bwx :=
  Instr.wellFormed_iff.mpr ⟨hoffset, hpalcode, hfetch, by simpa [Instr.avoidsTemporaries] using h⟩

/-- A statement of several machine instructions is followed by the one after its whole expansion (R25). -/
theorem State.npc_of_macro (s : State) (i : Instr) (h : i.isMacro s.launch.bwx = true) :
    s.npc i = s.pc + 4#64 * BitVec.ofNat 64 (Config.macroLen i) := by
  rw [State.npc, Instr.length, if_pos h]

/-- A symbolic jump writes `$27`, then destroys `AT`, then links: the link prevails where the destination is `$27`
(R247, R248; log 23). -/
theorem State.jumpSymbolic_spec {s : State} {i : Instr} {d : Reg} (e : SymExpr) (hwf : i.WellFormed s.launch.bwx)
    (htemps : i.temporaries s.launch.bwx = [28]) :
    ∃ u, s.jumpSymbolic i d e = .next u ∧ u.pc = jumpTarget (Config.symbolAddr e) ∧ RegHolds u d (s.npc i) ∧
      (d ≠ 27 → u.x 27 = Config.symbolAddr e) ∧ SameRegsExcept [d, 27, 28] s u ∧ SameMemory s u ∧ SameLock s u ∧
      SameCounter s u := by
  have x_clobbered (r : Reg) (hr : r ≠ 28) : ((s.setX 27 (Config.symbolAddr e)).clobberTemps i).x r =
      (s.setX 27 (Config.symbolAddr e)).x r :=
    State.x_clobberTemps_of_notMem _ i r (by simpa [htemps] using hr)
  rw [State.jumpSymbolic, State.guarded_of_wf hwf]
  refine ⟨_, rfl, rfl, State.x_setX_self _ d _, fun hd => ?linkage, fun r hr => ?others, by simp [SameMemory],
    by simp [SameLock], by simp [SameCounter]⟩
  case linkage =>
    exact (State.x_setX_of_ne _ _ hd.symm).trans ((x_clobbered 27 (by decide)).trans (s.x_setX_self 27 _))
  case others =>
    obtain ⟨hd, h27, h28⟩ : r ≠ d ∧ r ≠ 27 ∧ r ≠ 28 := by simpa using hr
    exact (State.x_setX_of_ne _ _ hd).trans ((x_clobbered r h28).trans (s.x_setX_of_ne _ h27))

/-- Settles O52: both destroy `AT` alone, and have the length of their expansion. -/
theorem symbolicJumps : Obligations.SymbolicJumps := by
  intro mk hmk d e s hd
  have hnamed : ∀ r ∈ [d], r ∉ ([28] : List Reg) := by simpa using hd
  suffices hform : exec (mk d (.symbolic e)) s = s.jumpSymbolic (mk d (.symbolic e)) d e ∧
      (mk d (.symbolic e)).isMacro s.launch.bwx = true ∧ (mk d (.symbolic e)).WellFormed s.launch.bwx ∧
      (mk d (.symbolic e)).temporaries s.launch.bwx = [28] by
    obtain ⟨hexec, hmacro, hwf, htemps⟩ := hform
    rw [hexec, ← s.npc_of_macro _ hmacro]
    exact State.jumpSymbolic_spec e hwf htemps
  fin_cases hmk <;> exact ⟨rfl, rfl, Instr.wellFormed_of_notMem_temporaries hnamed, rfl⟩

end Sys2Proof.Machine
end

section
/-! The bytes of a quadword (spec/00_scope.md R9): each operation of the byte-manipulation statements, said byte by
byte. -/

namespace Sys2Proof.Machine

/-- Bit `j` of byte `k` is bit `8 k + j` of the quadword. -/
@[simp] theorem getElem_nthByte (v : Word) (k : Nat) {j : Nat} (hj : j < 8) :
    (nthByte v k)[j] = v.getLsbD (8 * k + j) := BitVec.getElem_extractLsb' hj

/-- A quadword has no byte beyond the eighth. -/
theorem nthByte_of_ge (v : Word) {k : Nat} (hk : 8 ≤ k) : nthByte v k = 0#8 := by
  ext j hj
  simpa using BitVec.getLsbD_of_ge v (8 * k + j) (by omega)

/-- A quadword is its eight bytes. -/
theorem eq_of_nthByte {v w : Word} (h : ∀ k, k < 8 → nthByte v k = nthByte w k) : v = w := by
  apply BitVec.eq_of_getLsbD_eq
  intro i hi
  have hbyte := h (i / 8) (by omega)
  have hbit := congrArg (BitVec.getLsbD · (i % 8)) hbyte
  have hlt : i % 8 < 8 := Nat.mod_lt i (by decide)
  simpa [nthByte, hlt, Nat.div_add_mod] using hbit

/-! Logical operations and shifts by whole bytes -/

@[simp] theorem nthByte_zero (k : Nat) : nthByte 0#64 k = 0#8 := BitVec.extractLsb'_zero

@[simp] theorem nthByte_or (v w : Word) (k : Nat) : nthByte (v ||| w) k = nthByte v k ||| nthByte w k :=
  BitVec.extractLsb'_or

@[simp] theorem nthByte_and (v w : Word) (k : Nat) : nthByte (v &&& w) k = nthByte v k &&& nthByte w k :=
  BitVec.extractLsb'_and

theorem nthByte_not (v : Word) {k : Nat} (hk : k < 8) : nthByte (~~~v) k = ~~~nthByte v k := by
  ext j hj
  simp [show 8 * k + j < 64 by omega]

/-- A shift to the right by whole bytes; what it shifts in are the zero bytes beyond the eighth. -/
theorem nthByte_ushiftRight (v : Word) (n k : Nat) : nthByte (v >>> (8 * n)) k = nthByte v (k + n) := by
  ext j hj
  rw [getElem_nthByte, getElem_nthByte, BitVec.getLsbD_ushiftRight]
  congr 1
  omega

theorem nthByte_shiftLeft (v : Word) (n : Nat) {k : Nat} (hk : k < 8) :
    nthByte (v <<< (8 * n)) k = if n ≤ k then nthByte v (k - n) else 0#8 := by
  ext j hj
  rw [getElem_nthByte, BitVec.getLsbD_shiftLeft]
  split
  · simp [show 8 * k + j < 64 by omega, show ¬ 8 * k + j < 8 * n by omega,
      show 8 * k + j - 8 * n = 8 * (k - n) + j by omega]
  · simp [show 8 * k + j < 8 * n by omega]

/-- The upper quadword holds the bytes that a shift to the left by whole bytes pushes out (R273, R280). -/
theorem nthByte_upperQuad (v : Word) {n : Nat} (hn : n ≤ 8) {k : Nat} (hk : k < 8) :
    nthByte (upperQuad v n) k = nthByte v (k + 8 - n) := by
  ext j hj
  simp only [getElem_nthByte, upperQuad, BitVec.getLsbD_extractLsb', BitVec.getLsbD_shiftLeft, BitVec.getLsbD_setWidth]
  simp [show 8 * k + j < 64 by omega, show 64 + (8 * k + j) < 128 by omega,
    show ¬ 64 + (8 * k + j) < 8 * n by omega, show 64 + (8 * k + j) - 8 * n = 8 * (k + 8 - n) + j by omega,
    show 8 * (k + 8 - n) + j < 128 by omega]

/-! The mask of the low bytes -/

theorem nthByte_sizeMask (n : Nat) {k : Nat} (hk : k < 8) :
    nthByte (sizeMask n) k = if k < n then BitVec.allOnes 8 else 0#8 := by
  ext j hj
  rw [getElem_nthByte, sizeMask, BitVec.getLsbD_ofNat, Nat.testBit_two_pow_sub_one]
  split
  · simp [-BitVec.reduceAllOnes, show 8 * k + j < 64 by omega, show 8 * k + j < 8 * n by omega]
  · simp [show ¬ 8 * k + j < 8 * n by omega]

/-- The mask of the low bytes keeps these and clears the others. -/
theorem nthByte_and_sizeMask (v : Word) (n k : Nat) :
    nthByte (v &&& sizeMask n) k = if k < n then nthByte v k else 0#8 := by
  by_cases hk : k < 8
  · rw [nthByte_and, nthByte_sizeMask n hk]
    split
    · exact BitVec.and_allOnes
    · exact BitVec.and_zero
  · rw [nthByte_of_ge _ (by omega), nthByte_of_ge v (by omega), ite_self]

/-- A mask that is all ones or zero in every byte clears the bytes where it is all ones. -/
theorem nthByte_and_not (v m : Word) {k : Nat} (hk : k < 8) {p : Prop} [Decidable p]
    (hm : nthByte m k = if p then BitVec.allOnes 8 else 0#8) :
    nthByte (v &&& ~~~m) k = if p then 0#8 else nthByte v k := by
  rw [nthByte_and, nthByte_not m hk, hm]
  split
  · rw [BitVec.not_allOnes, BitVec.and_zero]
  · rw [BitVec.not_zero, BitVec.and_allOnes]

/-! Words packed from bits and from bytes -/

theorem getLsbD_truth (b : Bool) (i : Nat) : (truth b).getLsbD i = (decide (i = 0) && b) := by
  cases b <;> simp [truth]

theorem getLsbD_packBits (p : Nat → Bool) (n : Nat) {k : Nat} (hk : k < 64) :
    (packBits p n).getLsbD k = (decide (k < n) && p k) := by
  induction n with
  | zero => simp [packBits]
  | succ n ih =>
    rw [packBits, BitVec.getLsbD_or, ih, BitVec.getLsbD_shiftLeft, getLsbD_truth]
    rcases Nat.lt_trichotomy k n with hlt | rfl | hgt
    · simp [hlt, hlt.le, Nat.lt_succ_of_lt hlt]
    · simp [hk]
    · simp [show ¬ k < n by omega, show ¬ k < n + 1 by omega, show ¬ k - n = 0 by omega]

/-- The zero extension of a byte has it as its lowest byte and no other. -/
theorem nthByte_zeroExtend (b : Byte) (k : Nat) :
    nthByte (b.zeroExtend 64) k = if k = 0 then b else 0#8 := by
  ext j hj
  rw [getElem_nthByte, BitVec.getLsbD_setWidth]
  split
  case isTrue h => subst h; simp [hj, show j < 64 by omega]
  case isFalse h => simp [BitVec.getLsbD_of_ge b (8 * k + j) (by omega)]

theorem nthByte_packBytes (f : Nat → Byte) (n : Nat) {k : Nat} (hk : k < 8) :
    nthByte (packBytes f n) k = if k < n then f k else 0#8 := by
  induction n with
  | zero => simp [packBytes]
  | succ n ih =>
    rw [packBytes, nthByte_or, ih, nthByte_shiftLeft _ n hk, nthByte_zeroExtend]
    rcases Nat.lt_trichotomy k n with hlt | rfl | hgt
    · simp [hlt, Nat.lt_succ_of_lt hlt, hlt.not_ge]
    · simp
    · simp [show ¬ k < n by omega, show ¬ k < n + 1 by omega, show ¬ k - n = 0 by omega]

end Sys2Proof.Machine
end

section
/-! Byte-manipulation statements (spec/46_byte_manipulation.md), byte by byte: the count is the second operand modulo
8, the low forms serve the quadword that holds the first byte of a datum, and the high forms the next quadword, into
which the datum may run (R260 to R284). -/

namespace Sys2Proof.Machine

theorem byteCount_eq (y : Word) : byteCount y = y.toNat % 8 := BitVec.toNat_setWidth 3 y

/-- The shift of the high extracts is by whole bytes, and by none where the count is 0 (R266 to R268). -/
theorem extractHigh_shift (y : Word) : (64 - 8 * byteCount y) % 64 = 8 * ((8 - y.toNat % 8) % 8) := by
  rw [byteCount_eq]
  omega

/-! What each operation makes of the bytes -/

theorem nthByte_extractLow (n : Nat) (x y : Word) (k : Nat) : nthByte (extractLow n x y) k =
    if k < n ∧ k + y.toNat % 8 < 8 then nthByte x (k + y.toNat % 8) else 0#8 := by
  rw [extractLow, nthByte_and_sizeMask, nthByte_ushiftRight, byteCount_eq, ite_and]
  refine if_ctx_congr Iff.rfl (fun _ => ?_) fun _ => rfl
  split
  case isTrue => rfl
  case isFalse hbeyond => exact nthByte_of_ge x (by omega)

theorem nthByte_extractHigh (n : Nat) (x y : Word) {k : Nat} (hk : k < 8) : nthByte (extractHigh n x y) k =
    if k < n ∧ (8 - y.toNat % 8) % 8 ≤ k then nthByte x (k - (8 - y.toNat % 8) % 8) else 0#8 := by
  rw [extractHigh, nthByte_and_sizeMask, extractHigh_shift, nthByte_shiftLeft _ _ hk, ite_and]

theorem nthByte_insertLow (n : Nat) (x y : Word) {k : Nat} (hk : k < 8) : nthByte (insertLow n x y) k =
    if y.toNat % 8 ≤ k ∧ k < y.toNat % 8 + n then nthByte x (k - y.toNat % 8) else 0#8 := by
  rw [insertLow, nthByte_shiftLeft _ _ hk, nthByte_and_sizeMask, byteCount_eq, ite_and]
  exact if_ctx_congr Iff.rfl (fun hle => if_congr (Nat.sub_lt_iff_lt_add' hle) rfl rfl) fun _ => rfl

theorem nthByte_insertHigh (n : Nat) (x y : Word) {k : Nat} (hk : k < 8) : nthByte (insertHigh n x y) k =
    if k + 8 < y.toNat % 8 + n then nthByte x (k + 8 - y.toNat % 8) else 0#8 := by
  rw [insertHigh, byteCount_eq, nthByte_upperQuad _ (by omega) hk, nthByte_and_sizeMask]
  exact if_congr (Nat.sub_lt_iff_lt_add' (by omega)) rfl rfl

theorem nthByte_maskLow (n : Nat) (x y : Word) {k : Nat} (hk : k < 8) : nthByte (maskLow n x y) k =
    if y.toNat % 8 ≤ k ∧ k < y.toNat % 8 + n then 0#8 else nthByte x k := by
  refine nthByte_and_not x _ hk ?_
  rw [nthByte_shiftLeft _ _ hk, nthByte_sizeMask n (by omega), byteCount_eq, ite_and]
  exact if_ctx_congr Iff.rfl (fun hle => if_congr (Nat.sub_lt_iff_lt_add' hle) rfl rfl) fun _ => rfl

theorem nthByte_maskHigh {n : Nat} (hn : n ≤ 8) (x y : Word) {k : Nat} (hk : k < 8) : nthByte (maskHigh n x y) k =
    if k + 8 < y.toNat % 8 + n then 0#8 else nthByte x k := by
  refine nthByte_and_not x _ hk ?_
  rw [byteCount_eq, nthByte_upperQuad _ (by omega) hk]
  by_cases hbyte : k + 8 - y.toNat % 8 < 8
  · rw [nthByte_sizeMask n hbyte]
    exact if_congr (Nat.sub_lt_iff_lt_add' (by omega)) rfl rfl
  · rw [nthByte_of_ge _ (by omega), if_neg (by omega)]

theorem getLsbD_compareBytes (x y : Word) {k : Nat} (hk : k < 64) :
    (compareBytes x y).getLsbD k = decide (k < 8 ∧ nthByte y k ≤ nthByte x k) := by
  rw [compareBytes, getLsbD_packBits _ _ hk, Bool.decide_and]
  rfl

theorem nthByte_zeroBytes (zeroWhere : Bool) (x y : Word) {k : Nat} (hk : k < 8) :
    nthByte (zeroBytes zeroWhere x y) k = if y.getLsbD k = zeroWhere then 0#8 else nthByte x k := by
  rw [zeroBytes, nthByte_packBytes _ _ hk, if_pos hk]
  rfl

/-- A byte stays where its bit of the mask is one (R284). -/
theorem nthByte_zeroBytes_false (x y : Word) {k : Nat} (hk : k < 8) :
    nthByte (zeroBytes false x y) k = if y.getLsbD k = true then nthByte x k else 0#8 := by
  rw [nthByte_zeroBytes false x y hk]
  cases y.getLsbD k <;> rfl

/-! The statements -/

/-- A mnemonic that operates by `f` completes with the bytes of what `f` returns. -/
theorem WritesBytes.of_operate {mk : Reg → RegImm → Reg → Instr} {f : Word → Word → Word}
    {g : Word → Word → Nat → Byte} (hbytes : ∀ x y k, k < 8 → nthByte (f x y) k = g x y k)
    (hexec : ∀ a b c s, exec (mk a b c) s = s.operate (mk a b c) a b c f := by intros; rfl)
    (hdest : ∀ a b c, c ∈ (mk a b c).registers := by intros; simp [Instr.registers]) : WritesBytes mk g :=
  fun a b c s hwf => ⟨f (s.x a) (s.rbv b), WritesThree.of_operate (fun _ _ => rfl) hexec hdest a b c s hwf, hbytes _ _⟩

/-- Settles O53: each statement by the one formula of its form, for its size. -/
theorem extractStatements : Obligations.ExtractStatements := by
  simp only [Obligations.ExtractStatements, List.forall_mem_cons]
  refine ⟨⟨?extbl, ?extwl, ?extll, ?extql, List.forall_mem_nil _⟩, ⟨?extwh, ?extlh, ?extqh, List.forall_mem_nil _⟩⟩
  case extbl | extwl | extll | extql => exact .of_operate fun x y k _ => nthByte_extractLow _ x y k
  case extwh | extlh | extqh => exact .of_operate fun x y _ => nthByte_extractHigh _ x y

/-- Settles O54: each statement by the one formula of its form, for its size. -/
theorem insertAndMaskStatements : Obligations.InsertAndMaskStatements := by
  simp only [Obligations.InsertAndMaskStatements, List.forall_mem_cons]
  refine ⟨⟨?insbl, ?inswl, ?insll, ?insql, List.forall_mem_nil _⟩, ⟨?inswh, ?inslh, ?insqh, List.forall_mem_nil _⟩,
    ⟨?mskbl, ?mskwl, ?mskll, ?mskql, List.forall_mem_nil _⟩, ⟨?mskwh, ?msklh, ?mskqh, List.forall_mem_nil _⟩⟩
  case insbl | inswl | insll | insql => exact .of_operate fun x y _ => nthByte_insertLow _ x y
  case inswh | inslh | insqh => exact .of_operate fun x y _ => nthByte_insertHigh _ x y
  case mskbl | mskwl | mskll | mskql => exact .of_operate fun x y _ => nthByte_maskLow _ x y
  case mskwh | msklh | mskqh => exact .of_operate fun x y _ => nthByte_maskHigh (by decide) x y

/-- Settles O55: `cmpbge` by the bits of its result, `zap` and `zapnot` by its bytes. -/
theorem byteCompareAndZap : Obligations.ByteCompareAndZap := by
  refine ⟨fun a b c s hwf => ?cmpbge, ?zap, ?zapnot⟩
  case cmpbge =>
    have hwrites : WritesThree .cmpbge compareBytes := .of_operate fun _ _ => rfl
    exact ⟨_, hwrites a b c s hwf, fun _ => getLsbD_compareBytes _ _⟩
  case zap => exact .of_operate fun x y _ => nthByte_zeroBytes true x y
  case zapnot => exact .of_operate fun x y _ => nthByte_zeroBytes_false x y

end Sys2Proof.Machine
end

section
/-! Loading an unaligned datum (spec/46_byte_manipulation.md R285 part a): every byte of it is in the low extract of the
quadword that holds its first byte or in the high extract of the quadword that holds its last, or in both, which are
then the same byte. -/

namespace Sys2Proof.Machine

/-- The bits outside a mask and the bits inside it add up to the word. -/
theorem and_not_add_and (w mask : Word) : (w &&& ~~~mask) + (w &&& mask) = w := by
  rw [BitVec.add_eq_or_of_and_eq_zero] <;>
  · ext i hi
    cases hbit : mask[i] <;> simp [hbit]

/-- An address is the start of its aligned quadword and the number of the byte in it. -/
theorem quadOf_add_mod (a : Word) : quadOf a + BitVec.ofNat 64 (a.toNat % 8) = a := by
  have hlow : BitVec.ofNat 64 (a.toNat % 8) = a &&& 7#64 := by
    apply BitVec.eq_of_toNat_eq
    rw [BitVec.toNat_and, BitVec.toNat_ofNat, Nat.mod_eq_of_lt (by omega)]
    exact (Nat.and_two_pow_sub_one_eq_mod a.toNat 3).symm
  rw [quadOf, hlow, and_not_add_and]

/-- Byte `j` of the quadword that holds the byte `d` after an address is the byte `k` after the address. -/
theorem quadOf_add_byte {a : Word} {d j k : Nat} (h : j + d = k + (a + BitVec.ofNat 64 d).toNat % 8) :
    quadOf (a + BitVec.ofNat 64 d) + BitVec.ofNat 64 j = a + BitVec.ofNat 64 k := by
  have hquad := quadOf_add_mod (a + BitVec.ofNat 64 d)
  have hsum := congrArg (BitVec.ofNat 64) h
  rw [BitVec.ofNat_add, BitVec.ofNat_add] at hsum
  linear_combination hquad + hsum

/-- The low extract of the quadword that holds the first byte of a datum has the bytes of the datum that lie in this
quadword. -/
theorem nthByte_extractLow_memRead (s : State) (a : Word) (n k : Nat) :
    nthByte (extractLow n (s.memRead (quadOf a) 8) a) k =
      if k < n ∧ k + a.toNat % 8 < 8 then s.byteAt (a + BitVec.ofNat 64 k) else 0#8 := by
  rw [nthByte_extractLow]
  refine if_ctx_congr Iff.rfl (fun hin => ?_) fun _ => rfl
  have haddr := quadOf_add_byte (show k + a.toNat % 8 + 0 = k + (a + 0#64).toNat % 8 by simp)
  rw [BitVec.add_zero] at haddr
  rw [← haddr]
  exact s.memRead_byte _ 8 _ le_rfl hin.2

/-- The high extract of the quadword that holds the last byte of a datum has the bytes of the datum that lie in this
quadword; all its bytes where the datum begins at a quadword. -/
theorem nthByte_extractHigh_memRead (s : State) (a : Word) {n k : Nat} (hn : n ≤ 8) (hk : k < 8) :
    nthByte (extractHigh n (s.memRead (quadOf (a + BitVec.ofNat 64 (n - 1))) 8) a) k =
      if k < n ∧ (8 - a.toNat % 8) % 8 ≤ k then s.byteAt (a + BitVec.ofNat 64 k) else 0#8 := by
  rw [nthByte_extractHigh _ _ _ hk]
  refine if_ctx_congr Iff.rfl (fun ⟨hkn, hle⟩ => ?_) fun _ => rfl
  have haddr : quadOf (a + BitVec.ofNat 64 (n - 1)) + BitVec.ofNat 64 (k - (8 - a.toNat % 8) % 8) =
      a + BitVec.ofNat 64 k := by
    apply quadOf_add_byte
    rw [BitVec.toNat_add, BitVec.toNat_ofNat]
    omega
  rw [← haddr]
  exact s.memRead_byte _ 8 _ le_rfl (by omega)

/-- A datum of up to 8 bytes is its low extract or-ed with its high extract (R285 part a). -/
theorem extractLow_or_extractHigh (s : State) (a : Word) {n : Nat} (hn : n ≤ 8) :
    extractLow n (s.memRead (quadOf a) 8) a |||
      extractHigh n (s.memRead (quadOf (a + BitVec.ofNat 64 (n - 1))) 8) a = s.memRead a n := by
  apply eq_of_nthByte
  intro k hk
  rw [nthByte_or, nthByte_extractLow_memRead, nthByte_extractHigh_memRead s a hn hk]
  by_cases hkn : k < n
  · have hread : nthByte (s.memRead a n) k = s.byteAt (a + BitVec.ofNat 64 k) := s.memRead_byte a n k hn hkn
    have hsome : k + a.toNat % 8 < 8 ∨ (8 - a.toNat % 8) % 8 ≤ k := by omega
    rw [hread]
    rcases hsome with hlow | hhigh
    · rw [if_pos ⟨hkn, hlow⟩]
      split <;> simp
    · have hin : k < n ∧ (8 - a.toNat % 8) % 8 ≤ k := ⟨hkn, hhigh⟩
      rw [if_pos hin]
      split <;> simp
  · rw [s.nthByte_memRead_of_ge a (by omega)]
    simp [hkn]

/-- Settles O56: the one composition, for the three sizes. -/
theorem unalignedLoadComposition : Obligations.UnalignedLoadComposition := fun s a =>
  ⟨extractLow_or_extractHigh s a (by decide : 2 ≤ 8), extractLow_or_extractHigh s a (by decide : 4 ≤ 8),
    extractLow_or_extractHigh s a (by decide : 8 ≤ 8)⟩

end Sys2Proof.Machine
end

section
/-! Special-purpose statements (spec/47_special.md): those without effect (R297, R298, R301 to R306), the reads of the
implementation (R296, R299, R300), and `call_pal` with its handler (R295, spec/60_exceptions.md R327). -/

namespace Sys2Proof.Machine

/-! Statements without effect -/

/-- One machine instruction that does nothing but end advances the pc by 4 (spec/10_state.md R25). -/
theorem NoEffect.of_finish {i : Instr} (hone : ∀ bwx, i.isMacro bwx = false := by intros; rfl)
    (hexec : ∀ s, exec i s = s.finish i := by intros; rfl) : NoEffect i :=
  fun s => (hexec s).trans (State.finish_of_one (hone s.launch.bwx))

/-- A prefetch hint whose offset is zero is well-formed and only ends (R297). -/
theorem noEffect_fetch (b : Reg) : NoEffect (.fetch 0 b) :=
  .of_finish (hexec := fun s => State.guarded_of_wf (s := s) (i := .fetch 0 b) (Instr.wellFormed_of_one rfl) _)

/-- As `fetch`, with modify intent (R298). -/
theorem noEffect_fetchM (b : Reg) : NoEffect (.fetchM 0 b) :=
  .of_finish (hexec := fun s => State.guarded_of_wf (s := s) (i := .fetchM 0 b) (Instr.wellFormed_of_one rfl) _)

/-- Settles O57: all nine are one machine instruction that only ends; their words are those of their fields. -/
theorem statementsWithoutEffect : Obligations.StatementsWithoutEffect :=
  ⟨.of_finish, .of_finish, .of_finish, .of_finish, .of_finish, .of_finish,
    fun b => ⟨noEffect_fetch b, noEffect_fetchM b, .of_finish⟩, fun _ => ⟨rfl, rfl, rfl, rfl, rfl, rfl⟩⟩

/-! Reads of the implementation -/

/-- The implementation version is one bit (spec/00_scope.md R6). -/
theorem zeroExtend_implver : ∀ v : BitVec 1, v.zeroExtend 64 = if v = 1#1 then 1#64 else 0#64 := by decide

/-- `rpcc` writes the value it has drawn to its destination and to the counter, and nothing else (R299; log 21). -/
theorem exec_rpcc_spec (d : Reg) (s : State) : ∃ t, exec (.rpcc d) s = .next t ∧ t.pc = s.pc + 4#64 ∧
    RegHolds t d t.cycleCounter ∧ t.cycleCounter = Config.freeWord s.draws ∧ SameRegsExcept [d] s t ∧ SameMemory s t ∧
    SameLock s t ∧ t.launch = s.launch := by
  have hwf : (Instr.rpcc d).WellFormed s.launch.bwx := Instr.wellFormed_of_one rfl
  obtain ⟨t, hrun, hpc, hvalue, hothers, hmemory, hlock, hcounter, hlaunch⟩ :=
    s.readCounter.finish_setX_spec (.rpcc d) d s.readCounter.cycleCounter
      (Instr.notMem_temporaries hwf List.mem_cons_self)
  refine ⟨t, (State.guarded_of_wf hwf _).trans hrun, hpc, ?_, hcounter, hothers, hmemory, hlock, hlaunch⟩
  rw [hcounter]
  exact hvalue

/-- Settles O58: `amask` bit by bit, `implver` by its two values, `rpcc` by what it draws. -/
theorem implementationReads : Obligations.ImplementationReads := by
  refine ⟨fun b d s hwf => ?amask, fun d s => ?implver, exec_rpcc_spec⟩
  case amask =>
    exact ⟨s.rbv b &&& ~~~s.launch.amaskPresent, State.put_spec d _ hwf List.mem_cons_self,
      fun k hk => getLsbD_and_complement _ _ k hk⟩
  case implver =>
    rw [← zeroExtend_implver]
    exact State.put_spec (i := .implver d) d _ Instr.wellFormed_of_no_temporaries List.mem_cons_self

/-! `call_pal` -/

/-- A `palcode` of 26 bits is all that `call_pal` is checked for (R295). -/
theorem wellFormed_callPal {bwx : Bool} {n : Nat} (hn : n < 2 ^ 26) : (Instr.callPal n).WellFormed bwx :=
  Instr.wellFormed_of_one rfl (hpalcode := decide_eq_true hn)

theorem illFormed_callPal {bwx : Bool} {n : Nat} (hn : 2 ^ 26 ≤ n) :
    (Instr.callPal n).illFormed? bwx = some .palcodeOutOfRange := by
  have hrange : (Instr.callPal n).palcodeInRange = false := decide_eq_false (Nat.not_lt.mpr hn)
  rw [Instr.illFormed?, hrange]
  rfl

/-- Where a handler is given for the code, control goes to it and comes back (R327; log 8). -/
theorem exec_callPal_of_handler {n : Nat} {s : State} (hn : n < 2 ^ 26) (h : n ∈ s.launch.palHandlers) :
    exec (.callPal n) s = .next (s.palReturn (Config.pal n s)) :=
  (State.guarded_of_wf (wellFormed_callPal hn) _).trans (if_pos (List.contains_iff_mem.mpr h))

/-- Where none is given, the run ends with the environment call (R327, spec/70_reset_and_hazards.md R352 c). -/
theorem exec_callPal_of_no_handler {n : Nat} {s : State} (hn : n < 2 ^ 26) (h : n ∉ s.launch.palHandlers) :
    exec (.callPal n) s = .fault (.envCall n s) :=
  (State.guarded_of_wf (wellFormed_callPal hn) _).trans (if_neg (mt List.contains_iff_mem.mp h))

/-- What a handler leaves in a byte: the last value it stored there, and nothing in the program text (R56). -/
theorem State.byteAt_palReturn (s : State) (result : Config.PalResult) (hmem : s.mem.wf = true) (a : Word) :
    (s.palReturn result).byteAt a =
      if s.launch.isText a then s.byteAt a else (result.stores.reverse.lookup a).getD (s.byteAt a) :=
  (State.byteAt_congr (s.palReturn_mem result) a).trans (s.byteAt_palStores result.stores hmem a)

/-- Settles O59: by the code's range and whether a handler is given for it. -/
theorem callPalRunsTheHandlerOrEndsTheRun : Obligations.CallPalRunsTheHandlerOrEndsTheRun := by
  refine fun n s => ⟨exec_callPal_of_no_handler, fun hn hhandler => ?handler, fun hn => ?outOfRange⟩
  case handler =>
    refine ⟨_, exec_callPal_of_handler hn hhandler, rfl, rfl, rfl, s.palReturn_lockAddr _,
      ⟨s.palReturn_cycleCounter _, s.palReturn_launch _⟩, fun a htext hmem => ?_, fun a htext hmem => ?_⟩
    · rw [s.byteAt_palReturn _ hmem, if_pos htext]
    · rw [s.byteAt_palReturn _ hmem, if_neg (Bool.eq_false_iff.mp htext)]
  case outOfRange => exact State.guarded_of_illFormed (illFormed_callPal hn) _

end Sys2Proof.Machine
end

section
/-! How a statement stops (spec/60_exceptions.md section 1, spec/00_scope.md R13), said once for all statements:
`exec_raised` says which exception ends it in which state, `exec_refusedFor` why it has no meaning. A statement that can
do neither completes. -/

namespace Sys2Proof.Machine

/-! Exceptions -/

/-- The states agree but for their registers and the model's own counter of free values. -/
structure SameButRegs (s u : State) : Prop where
  pc : u.pc = s.pc
  memory : SameMemory s u
  lock : SameLock s u
  counter : SameCounter s u

theorem SameButRegs.refl {s : State} : SameButRegs s s := ⟨rfl, fun _ => rfl, ⟨rfl, rfl⟩, ⟨rfl, rfl⟩⟩

theorem SameButRegs.clobber {s : State} {l : List Reg} : SameButRegs s (s.clobber l) :=
  have ⟨hpc, _, hmemory, hlock, hcounter⟩ := s.clobber_frame l
  ⟨hpc, hmemory, hlock, hcounter⟩

/-- The wrapped result is written before the overflow is raised (R322). -/
theorem SameButRegs.setX_clobberTemps {s : State} {i : Instr} {d : Reg} {v : Word} :
    SameButRegs s ((s.setX d v).clobberTemps i) :=
  ⟨by simp, by simp [SameMemory], by simp [SameLock], by simp [SameCounter]⟩

/-- The exceptions a statement may raise (R320), with the state each ends the run in (R324). -/
inductive Raised (i : Instr) (s : State) : Fault → Prop where
  | dataAlignment {ea : Word} {u : State} (hi : i.checksAlignment = true) (hea : ea.toNat % 8 ≠ 0)
      (hu : SameButRegs s u) : Raised i s (.dataAlignment ea u)
  | integerOverflow {u : State} (hi : i.mayOverflow = true) (hu : SameButRegs s u) : Raised i s (.integerOverflow u)
  | divideByZero {u : State} (hi : i.divides = true) (hu : SameButRegs s u) : Raised i s (.divideByZero u)
  | accessViolation {ea : Word} {u : State} (hi : i.accessesMemory = true) (hu : SameButRegs s u) :
      Raised i s (.accessViolation ea u)
  | envCall {n : Nat} (hi : i = .callPal n) (hn : n ∉ s.launch.palHandlers) : Raised i s (.envCall n s)

/-- Every store accesses memory (spec/40_load_store.md R119). -/
theorem Instr.accessesMemory_of_stores {i : Instr} (h : i.stores = true) : i.accessesMemory = true := by
  cases i with
  | stb | stw | stl | stlC | stq | stqC | stqU | ustw | ustl | ustq => rfl
  | _ => cases h

/-- Only an access to memory has an alignment to check (R321). -/
theorem Instr.accessesMemory_of_checksAlignment {i : Instr} (h : i.checksAlignment = true) :
    i.accessesMemory = true := by
  cases i with
  | ldw | ldwu | stw | ldl | ldlL | stl | stlC | ldq | ldqL | stq | stqC => rfl
  | _ => cases h

/-- An address off the natural boundary of an access is no multiple of 8 (spec/20_memory.md R45, R46). -/
theorem AccessForm.mod_eight_ne_zero {f : AccessForm} {ea : Word} (h : f.misaligned ea = true) (hsize : f.size ∣ 8) :
    ea.toNat % 8 ≠ 0 := by
  have hmod : ea.toNat % f.size ≠ 0 := bne_iff_ne.mp (Bool.and_eq_true_iff.mp h).2
  exact fun h8 => hmod (Nat.mod_eq_zero_of_dvd (hsize.trans (Nat.dvd_of_mod_eq_zero h8)))

/-- The two exceptions of a load or store, as its form raises them (R321, R325). -/
theorem Raised.of_access {i : Instr} {s : State} {f : AccessForm} {ea : Word} {e : Fault}
    (hi : i.accessesMemory = true) (hf : f.aligned = true → i.checksAlignment = true ∧ f.size ∣ 8)
    (h : (f.misaligned ea = true ∧ e = .dataAlignment ea (s.clobberTemps i)) ∨
      (f.misaligned ea = false ∧ e = .accessViolation ea (s.clobberTemps i))) : Raised i s e := by
  obtain ⟨hmis, rfl⟩ | ⟨_, rfl⟩ := h
  · obtain ⟨hchecks, hsize⟩ := hf (Bool.and_eq_true_iff.mp hmis).1
    exact .dataAlignment hchecks (AccessForm.mod_eight_ne_zero hmis hsize) .clobber
  · exact .accessViolation hi .clobber

/-- `ldgp` raises nothing: away from its own address it has no meaning (spec/40_load_store.md R116). -/
theorem execLdgp_ne_fault (d b : Reg) (offset : Int) (s : State) (f : Fault) : execLdgp d offset b s ≠ .fault f := by
  intro h
  obtain ⟨_, h⟩ := State.guarded_fault h
  split at h
  · exact State.finish_ne_fault _ _ _ h
  · simp at h

section
variable {i : Instr} {s : State} {o : Outcome}

/-- What a statement raises: one case per form. -/
theorem Shape.raised {f : Fault} (shape : Shape i s o) (h : o = .fault f) : Raised i s f := by
  cases shape with
  | put => exact absurd h (State.put_ne_fault _ _ _ _ _)
  | putTrap _ _ _ _ _ hi => obtain ⟨_, rfl⟩ := State.putTrap_fault h; exact .integerOverflow hi .setX_clobberTemps
  | absolute _ _ _ _ _ hi => obtain ⟨_, rfl⟩ := State.absolute_fault h; exact .integerOverflow hi .clobber
  | divide _ _ _ _ hi => obtain ⟨_, rfl⟩ := State.divide_fault h; exact .divideByZero hi .clobber
  | condMove => exact absurd h (State.condMove_ne_fault _ _ _ _ _ _ _)
  | load _ _ _ _ _ hi hf => exact .of_access hi hf (State.load_fault h)
  | loadLocked _ _ _ _ _ hi _ hf => exact .of_access hi hf (State.loadLocked_fault h)
  | store _ _ _ hi _ hf => exact .of_access (Instr.accessesMemory_of_stores hi) hf (State.store_fault h)
  | storeConditional _ _ _ _ hi _ hf =>
    exact .of_access (Instr.accessesMemory_of_stores hi) hf (State.storeConditional_fault h)
  | condBranch => exact absurd h (State.condBranch_ne_fault _ _ _ _ _ _)
  | branch => exact absurd h (State.branch_ne_fault _ _ _ _ _)
  | jump => exact absurd h (State.jump_ne_fault _ _ _ _ _)
  | jumpSymbolic => exact absurd h (State.jumpSymbolic_ne_fault _ _ _ _ _)
  | ldgp => exact absurd h (execLdgp_ne_fault _ _ _ _ _)
  | callPal _ hi => obtain ⟨hn, rfl⟩ := execCallPal_fault h; exact .envCall hi hn
  | rpcc => exact absurd (State.guarded_fault h).2 (State.finish_ne_fault _ _ _)
  | finish => exact absurd h (State.finish_ne_fault _ _ _)
  | idle => exact absurd (State.guarded_fault h).2 (State.finish_ne_fault _ _ _)

end

/-- A statement that ends the run has raised one of the exceptions R320 lists for it. -/
theorem exec_raised {i : Instr} {s : State} {f : Fault} (h : exec i s = .fault f) : Raised i s f :=
  (exec_shape i s).raised h

/-- The state an exception ends the run in (R324). -/
theorem Raised.final {i : Instr} {s : State} {f : Fault} (h : Raised i s f) : SameButRegs s f.final := by
  cases h with
  | dataAlignment _ _ hu | integerOverflow _ hu | divideByZero _ hu | accessViolation _ hu => exact hu
  | envCall => exact .refl

/-- Settles O12: the exceptions of `Raised`, one by one. -/
theorem onlyListedStatementsRaise : Obligations.OnlyListedStatementsRaise := by
  intro i s f h
  cases exec_raised h with
  | dataAlignment hi hea => exact ⟨hi, hea⟩
  | integerOverflow hi | divideByZero hi | accessViolation hi => exact hi
  | envCall hi hn => exact ⟨hi, hn⟩

/-- Settles O13: every exception carries a state that differs in registers alone. -/
theorem exceptionsKeepPcAndMemory : Obligations.ExceptionsKeepPcAndMemory := by
  intro i s f h
  obtain ⟨hpc, hmemory, hlock, hcounter⟩ := (exec_raised h).final
  exact ⟨hpc, hmemory, hlock, hcounter⟩

/-! Refusals -/

/-- Why a statement has no meaning in a state: by its text (R13), or by what it does there. -/
inductive RefusedFor (i : Instr) (s : State) : Refusal → Prop where
  | illFormed {why : IllFormed} (h : i.illFormed? s.launch.bwx = some why) : RefusedFor i s (.illFormed why)
  | labelOutOfRange {l : Label} (ht : i.target? = some (.label l)) (hl : s.labelInRange l = false) :
      RefusedFor i s .labelOutOfRange
  | insideStatement {t : Target} {address : Word} (ht : i.target? = some t) (ha : s.target t = some address)
      (hinside : s.launch.insideStatement address = true) : RefusedFor i s .insideStatement
  | ldgpNotOwnAddress {d b : Reg} {offset : Int} (hi : i = .ldgp d offset b) (hne : s.ea (.base offset b) ≠ s.pc) :
      RefusedFor i s .ldgpNotOwnAddress
  | storeToText {b : Word} (hi : i.stores = true) (hb : b ∈ i.storedBytes s) (ht : s.launch.isText b = true) :
      RefusedFor i s .storeToText

/-- Only a label out of range has no address (spec/30_encoding.md R77). -/
theorem State.exists_label_of_target_none {s : State} {t : Target} (h : s.target t = none) :
    ∃ l, t = .label l ∧ s.labelInRange l = false := by
  cases t with
  | disp d => cases h
  | label l => exact ⟨l, rfl, by simpa [State.target] using h⟩

section
variable {i : Instr} {s : State} {o : Outcome} {r : Refusal}

theorem RefusedFor.of_illFormed (h : ∃ why, i.illFormed? s.launch.bwx = some why ∧ r = .illFormed why) :
    RefusedFor i s r := by
  obtain ⟨_, hwhy, rfl⟩ := h
  exact .illFormed hwhy

/-- The refusals of the direct branches (R77, spec/70_reset_and_hazards.md R360). -/
theorem RefusedFor.of_branch {t : Target} (hi : i.target? = some t)
    (h : (∃ why, i.illFormed? s.launch.bwx = some why ∧ r = .illFormed why) ∨
      (s.target t = none ∧ r = .labelOutOfRange) ∨
      ∃ address, s.target t = some address ∧ s.launch.insideStatement address = true ∧ r = .insideStatement) :
    RefusedFor i s r := by
  obtain h | ⟨hnone, rfl⟩ | ⟨_, haddress, hinside, rfl⟩ := h
  · exact .of_illFormed h
  · obtain ⟨_, rfl, hrange⟩ := State.exists_label_of_target_none hnone
    exact .labelOutOfRange hi hrange
  · exact .insideStatement hi haddress hinside

/-- The refusals of the stores (spec/20_memory.md R56). -/
theorem RefusedFor.of_store {a : Word} {n : Nat} (hi : i.stores = true) (hb : i.storedBytes s = bytesFrom a n)
    (h : (∃ why, i.illFormed? s.launch.bwx = some why ∧ r = .illFormed why) ∨
      (s.overlapsText a n = true ∧ r = .storeToText)) : RefusedFor i s r := by
  obtain h | ⟨htext, rfl⟩ := h
  · exact .of_illFormed h
  · obtain ⟨b, hmem, ht⟩ := List.any_eq_true.mp htext
    exact .storeToText hi (hb ▸ hmem) ht

/-- The refusals of `ldgp` (spec/40_load_store.md R116). -/
theorem RefusedFor.of_ldgp {d b : Reg} {offset : Int} (h : execLdgp d offset b s = .refused r) :
    RefusedFor (.ldgp d offset b) s r := by
  obtain h | ⟨_, h⟩ := State.guarded_refused h
  · exact .of_illFormed h
  · split at h
    · exact absurd h (State.finish_ne_refused _ _ _)
    · obtain rfl : Refusal.ldgpNotOwnAddress = r := by simpa using h
      exact .ldgpNotOwnAddress rfl ‹_›

/-- A statement that only ends is refused for its text alone. -/
theorem RefusedFor.of_guarded_finish {u : State} (h : s.guarded i (u.finish i) = .refused r) : RefusedFor i s r :=
  .of_illFormed ((State.guarded_refused h).resolve_right fun h => State.finish_ne_refused _ _ _ h.2)

/-- Why a statement is refused: one case per form. -/
theorem Shape.refusedFor (shape : Shape i s o) (h : o = .refused r) : RefusedFor i s r := by
  cases shape with
  | put => exact .of_illFormed (State.put_refused h)
  | putTrap => exact .of_illFormed (State.putTrap_refused h)
  | absolute => exact .of_illFormed (State.absolute_refused h)
  | divide => exact .of_illFormed (State.divide_refused h)
  | condMove => exact .of_illFormed (State.condMove_refused h)
  | load => exact .of_illFormed (State.load_refused h)
  | loadLocked => exact .of_illFormed (State.loadLocked_refused h)
  | store _ _ _ hi hb => exact .of_store hi hb (State.store_refused h)
  | storeConditional _ _ _ _ hi hb => exact .of_store hi hb (State.storeConditional_refused h)
  | condBranch _ _ _ hi => exact .of_branch hi (State.condBranch_refused h)
  | branch _ _ _ hi => exact .of_branch hi (State.branch_refused h)
  | jump => exact .of_illFormed (State.jump_refused h)
  | jumpSymbolic => exact .of_illFormed (State.jumpSymbolic_refused h)
  | ldgp _ _ _ hi => subst hi; exact .of_ldgp h
  | callPal _ hi => subst hi; exact .of_illFormed (execCallPal_refused h)
  | rpcc _ hi => subst hi; exact .of_guarded_finish h
  | finish => exact absurd h (State.finish_ne_refused _ _ _)
  | idle => exact .of_guarded_finish h

/-- Every form checks the text of its statement first (R13). -/
theorem Shape.eq_refused_of_illFormed {why : IllFormed} (shape : Shape i s o)
    (h : i.illFormed? s.launch.bwx = some why) : o = .refused (.illFormed why) := by
  cases shape with
  | ldgp _ _ _ hi | callPal _ hi | rpcc _ hi => subst hi; exact State.guarded_of_illFormed h _
  | finish hi => rw [hi] at h; cases h
  | _ => exact State.guarded_of_illFormed h _

end

/-- A statement that is refused is refused for one of these reasons. -/
theorem exec_refusedFor {i : Instr} {s : State} {r : Refusal} (h : exec i s = .refused r) : RefusedFor i s r :=
  (exec_shape i s).refusedFor h

/-- Settles O15: the check that comes first in every form, and the reasons of `RefusedFor`. -/
theorem onlyListedStatementsAreRefused : Obligations.OnlyListedStatementsAreRefused := by
  refine ⟨fun i s _ h => (exec_shape i s).eq_refused_of_illFormed h, fun i s r h => ?_⟩
  cases exec_refusedFor h with
  | illFormed hwhy => exact .inl ⟨_, hwhy⟩
  | labelOutOfRange ht hl => exact .inr (.inl ⟨_, ht, hl⟩)
  | ldgpNotOwnAddress hi hne => exact .inr (.inr (.inl ⟨_, _, _, hi, hne⟩))
  | insideStatement ht ha hinside => exact .inr (.inr (.inr (.inl ⟨_, _, ht, ha, hinside⟩)))
  | storeToText hi hb ht => exact .inr (.inr (.inr (.inr ⟨hi, _, hb, ht⟩)))

/-! Completion -/

/-- Settles O14: each exception and each refusal is of a class that is left out. -/
theorem ordinaryStatementsComplete : Obligations.OrdinaryStatementsComplete := by
  intro i s hwf haccess hoverflow hdivides hldgp hpal htarget
  cases hexec : exec i s with
  | next t => exact ⟨t, rfl⟩
  | fault f =>
    cases exec_raised hexec with
    | dataAlignment hi => simp [Instr.accessesMemory_of_checksAlignment hi] at haccess
    | integerOverflow hi => simp [hoverflow] at hi
    | divideByZero hi => simp [hdivides] at hi
    | accessViolation hi => simp [haccess] at hi
    | envCall hi => exact absurd hi (hpal _)
  | refused r =>
    cases exec_refusedFor hexec with
    | illFormed hwhy => rw [hwf] at hwhy; cases hwhy
    | labelOutOfRange ht hl =>
      obtain ⟨_, haddress, _⟩ := htarget _ ht
      simp [State.target, hl] at haddress
    | insideStatement ht ha hinside =>
      obtain ⟨_, ha', hinside'⟩ := htarget _ ht
      obtain rfl := Option.some.inj (ha.symm.trans ha')
      simp [hinside] at hinside'
    | ldgpNotOwnAddress hi => exact absurd hi (hldgp _ _ _)
    | storeToText hi => simp [Instr.accessesMemory_of_stores hi] at haccess

end Sys2Proof.Machine
end

section
/-! The exceptions of arithmetic (spec/60_exceptions.md R322, R323): a statement with overflow writes its wrapped result
and then raises; a zero divisor raises with the destination left open. -/

namespace Sys2Proof.Machine

/-! Overflow -/

theorem overflows32_iff_range (t : Int) : overflows32 t = true ↔ t < -2147483648 ∨ 2147483647 < t := decide_eq_true_iff

theorem overflows64_iff_range (t : Int) :
    overflows64 t = true ↔ t < -9223372036854775808 ∨ 9223372036854775807 < t := decide_eq_true_iff

/-- The wrapped result is in the destination when the overflow is raised, and the pc is at the statement (R322). -/
theorem State.putTrap_overflow_spec {s : State} {i : Instr} (d : Reg) (wrap : Int → Word) {overflows : Int → Bool}
    {t : Int} (h : i.WellFormed s.launch.bwx) (hd : d ∈ i.registers) (ho : overflows t = true) :
    ∃ u, s.putTrap i d wrap overflows t = .fault (.integerOverflow u) ∧ u.pc = s.pc ∧ WroteReg i d (wrap t) s u := by
  obtain ⟨u, hfinish, -, hvalue, hothers, hmemory, hlock, hcounter⟩ :=
    s.finish_setX_spec i d (wrap t) (Instr.notMem_temporaries h hd)
  obtain rfl := State.finish_next hfinish
  refine ⟨(s.setX d (wrap t)).clobberTemps i, ?_, by simp, hvalue, hothers, hmemory, hlock, hcounter⟩
  exact (State.guarded_of_wf h _).trans (if_pos ho)

/-- A statement that computes its exact result, of which `overflows` decides the range. -/
theorem WritesOrOverflows.of_putTrap {i : Instr} {s : State} {d : Reg} {wrap : Int → Word} {overflows : Int → Bool}
    {low high exact : Int} (hrange : ∀ t, overflows t = true ↔ t < low ∨ high < t)
    (hexec : exec i s = s.putTrap i d wrap overflows exact) (hd : d ∈ i.registers) :
    WritesOrOverflows i s d wrap low high exact := by
  intro hwf
  rw [Writes, hexec]
  refine ⟨fun hlow hhigh => ?_, fun hout => State.putTrap_overflow_spec d wrap hwf hd ((hrange _).mpr hout)⟩
  refine State.putTrap_spec d wrap overflows exact hwf hd (Bool.eq_false_iff.mpr fun ho => ?_)
  have := (hrange _).mp ho
  omega

/-- Settles O40: all eight compute their exact result, in one of two ranges. -/
theorem overflowStatements : Obligations.OverflowStatements := by
  refine fun a b c s => ⟨fun p hp => ?longwords, fun p hp => ?quadwords, ?neglv, ?negqv⟩
  case longwords =>
    fin_cases hp <;> exact .of_putTrap overflows32_iff_range rfl (by simp [Instr.registers])
  case quadwords =>
    fin_cases hp <;> exact .of_putTrap overflows64_iff_range rfl (by simp [Instr.registers])
  case neglv => exact .of_putTrap overflows32_iff_range rfl List.mem_cons_self
  case negqv => exact .of_putTrap overflows64_iff_range rfl List.mem_cons_self

/-! Division by zero -/

/-- A zero divisor raises before a result is looked at (R323). -/
theorem DividesBy.raisesOnZero {mk : Reg → RegImm → Reg → Instr} {val : Word → Int} {wrap : Int → Word} {least : Int}
    {op : Int → Int → Int} (h : DividesBy mk val wrap least op) : RaisesOnZero mk val := by
  intro a b c s hwf hzero
  refine ⟨s.clobber (c :: (mk a b c).temporaries s.launch.bwx), ?_, s.clobber_frame _⟩
  rw [h.exec_eq]
  exact (State.guarded_of_wf hwf _).trans (if_pos (decide_eq_true hzero))

/-- Two readings of the divisor that are zero together. -/
theorem RaisesOnZero.congr {mk : Reg → RegImm → Reg → Instr} {val val' : Word → Int} (h : RaisesOnZero mk val)
    (hval : ∀ v, val' v = 0 → val v = 0) : RaisesOnZero mk val' :=
  fun a b c s hwf hzero => h a b c s hwf (hval _ hzero)

/-- Zero is zero signed and unsigned. -/
theorem toNat_eq_zero_of_toInt {w : Nat} (v : BitVec w) (h : v.toInt = 0) : (v.toNat : Int) = 0 := by
  have hv : v = 0#w := BitVec.toInt_inj.mp (h.trans BitVec.toInt_zero.symm)
  simp [hv]

theorem u32_eq_zero_of_s32 (v : Word) : s32 v = 0 → (u32 v : Int) = 0 := toNat_eq_zero_of_toInt (low32 v)

/-- Settles O44: by the common form of the eight statements; zero is zero signed and unsigned. -/
theorem divisionByZeroRaises : Obligations.DivisionByZeroRaises := by
  refine ⟨?longwords, ?quadwords⟩
  case longwords =>
    simp only [List.forall_mem_cons]
    exact ⟨dividesBy_divl.raisesOnZero, (dividesBy_divlu 0).raisesOnZero.congr u32_eq_zero_of_s32,
      dividesBy_reml.raisesOnZero, (dividesBy_remlu 0).raisesOnZero.congr u32_eq_zero_of_s32, List.forall_mem_nil _⟩
  case quadwords =>
    simp only [List.forall_mem_cons]
    exact ⟨dividesBy_divq.raisesOnZero, (dividesBy_divqu 0).raisesOnZero.congr toNat_eq_zero_of_toInt,
      dividesBy_remq.raisesOnZero, (dividesBy_remqu 0).raisesOnZero.congr toNat_eq_zero_of_toInt, List.forall_mem_nil _⟩

end Sys2Proof.Machine
end

section
/-! The middle of a placed statement (spec/70_reset_and_hazards.md R360; log 29). -/

namespace Sys2Proof.Machine

/-- A fetch that is refused is how the step ends. -/
theorem step_of_fetch_refused {s : State} {r : Refusal} (h : s.fetchStatement = .error (.refused r)) :
    step s = .refused r := by simp [step, h]

section
variable {s : State} {i : Instr} {t : Target} {address : Word}

/-- A conditional branch whose test holds is refused at the middle of a placed statement. -/
theorem State.condBranch_of_inside {test : Word → Bool} {r : Reg} (hi : i.target? = some t)
    (ht : s.target t = some address) (hinside : s.launch.insideStatement address = true) (htest : test (s.x r) = true) :
    s.condBranch i test r t = .refused .insideStatement := by
  rw [State.condBranch, State.guarded_of_wf (Instr.wellFormed_of_target hi), State.toTarget_of ht, if_pos htest,
    State.branchTo_of_inside hinside]

/-- So are `br` and `bsr`, whatever they would link. -/
theorem State.branch_of_inside {d : Reg} (hi : i.target? = some t) (ht : s.target t = some address)
    (hinside : s.launch.insideStatement address = true) : s.branch i d t = .refused .insideStatement := by
  have hinside' : (s.setX d (s.npc i)).launch.insideStatement address = true := by rwa [State.setX_launch]
  rw [State.branch, State.guarded_of_wf (Instr.wellFormed_of_target hi), State.toTarget_of ht,
    State.branchTo_of_inside hinside']

/-- A mnemonic that branches by a test is refused there where what the test decides holds. -/
theorem exec_condBranch_of_inside {mk : Reg → Target → Instr} {test : Word → Bool} {p : Word → Prop}
    (ht : s.target t = some address) (hinside : s.launch.insideStatement address = true)
    (hdecides : ∀ v, test v = true ↔ p v)
    (hexec : ∀ r, exec (mk r t) s = s.condBranch (mk r t) test r t := by intros; rfl)
    (htarget : ∀ r, (mk r t).target? = some t := by intros; rfl) :
    ∀ r, p (s.x r) → exec (mk r t) s = .refused .insideStatement :=
  fun r hp => (hexec r).trans (State.condBranch_of_inside (htarget r) ht hinside ((hdecides _).mpr hp))

end

/-- Settles O60: the fetch, `br` and `bsr` by their one form, and each conditional branch by what its test decides. -/
theorem middleOfAStatementIsRefused : Obligations.MiddleOfAStatementIsRefused := by
  refine fun s => ⟨fun hexit hmap hinside => ?fetch, fun t address ht hinside => ⟨fun d => ?link, ?conditional⟩⟩
  case fetch =>
    exact step_of_fetch_refused (State.fetchStatement_of_inside hexit (List.all_eq_true.mpr hmap) hinside)
  case link =>
    exact ⟨State.branch_of_inside (i := .br d t) rfl ht hinside,
      State.branch_of_inside (i := .bsr d t) rfl ht hinside⟩
  case conditional =>
    simp only [List.forall_mem_cons]
    refine ⟨?beq, ?bne, ?blt, ?ble, ?bgt, ?bge, ?blbc, ?blbs, List.forall_mem_nil _⟩
    case beq => exact exec_condBranch_of_inside ht hinside testEq_iff
    case bne => exact exec_condBranch_of_inside ht hinside testNe_iff
    case blt => exact exec_condBranch_of_inside ht hinside testLt_iff
    case ble => exact exec_condBranch_of_inside ht hinside testLe_iff
    case bgt => exact exec_condBranch_of_inside ht hinside testGt_iff
    case bge => exact exec_condBranch_of_inside ht hinside testGe_iff
    case blbc => exact exec_condBranch_of_inside ht hinside testLbc_iff
    case blbs => exact exec_condBranch_of_inside ht hinside testLbs_iff

end Sys2Proof.Machine
end
